-- ==== Sys2Proof/Word.lean ====
section
/-! DEFINITION. The one unit of data of the block: the byte (00_scope.md R14).
The wider registers of the spec have fixed widths of their own and are written `BitVec n` where they stand. -/

namespace Sys2Proof

/-- A byte: 8 bits, bit 7 the most significant (R14). -/
abbrev Byte := BitVec 8

end Sys2Proof
end

