-- ==== Sys2Proof/Syntax.lean ====
section
/-! DEFINITION. The records of the raster body, one constructor per row of spec/opcode_table.json (30_encoding.md R80 to R89).
A record is named by its head byte; the pixels that follow a `REP` or `LIT` head are read from the stream by the
record's meaning, since how many there are depends on the machine's state (R80, R90). -/

namespace Sys2Proof

/-- One stream record, with the fields of its head byte. -/
inductive Instr where
  /-- `LINE` (R82, R85): the repeat byte `r`; `r + 1` rows share the line. -/
  | line (r : BitVec 8)
  /-- `REP` (R83, R86): `0mmmmmmm`; one pixel stored `m + 1` times. -/
  | rep (m : BitVec 7)
  /-- `LIT` (R83, R88): `1mmmmmmm` with `m != 0`; `129 - m` literal pixels. -/
  | lit (m : BitVec 7)
  /-- `BLANK` (R83, R89): `10000000`; blank to the end of the line. -/
  | blank
  deriving DecidableEq, Repr

end Sys2Proof
end

