-- ==== Sys2Proof/WellFormed.lean ====
section
/-! DEFINITION. Which terms of `Instr` stand for a record of the wire format (30_encoding.md R83). -/

namespace Sys2Proof

/-- The one constraint of the encodings: the field `m` of a `LIT` is not 0, since `10000000` is `BLANK` (R83).
Every repeat byte and every `REP` field is legal (R82, R83, R91). -/
def Instr.wellFormed : Instr → Bool
  | .line _ => true
  | .rep _  => true
  | .lit m  => m != 0
  | .blank  => true

end Sys2Proof
end

