-- ==== Sys2Proof/Decode.lean ====
section
/-! DEFINITION. The wire format of the raster body (30_encoding.md): head bytes to records and back, and above
them the grammar of R80 with the payloads, which depends on `WIDTH`, `PIXEL_BYTES`, `HEIGHT` and the position. -/

namespace Sys2Proof

/-! ## Head bytes (R81 to R84) -/

/-- `u8(b)` (R14): a byte as an unsigned number. -/
def u8 (b : Byte) : Nat := b.toNat

/-- `s8(b)` (R14): the same byte in two's complement. -/
def s8 (b : Byte) : Int := if u8 b ≤ 127 then (u8 b : Int) else (u8 b : Int) - 256

/-- Where a head byte is met (R81): its value alone has no meaning. -/
inductive Context where
  /-- A repeat byte is due. -/
  | lineHeader
  /-- A control byte is due. -/
  | runHeader
  deriving DecidableEq, Repr

/-- The context a record's head is read in (R81). -/
def Instr.context : Instr → Context
  | .line _ => .lineHeader
  | .rep _ | .lit _ | .blank => .runHeader

/-- A repeat byte (R82): the whole byte is the field `r`. -/
def decodeRepeat (b : Byte) : Instr := .line b

/-- A control byte (R83): `0x80` first, then the sign bit; the field `m` is bits 6:0. -/
def decodeControl (b : Byte) : Instr :=
  if b = 0x80 then .blank
  else if b.getLsbD 7 then .lit (b.extractLsb' 0 7)
  else .rep (b.extractLsb' 0 7)

/-- The record headed by a byte. Total: no head byte is invalid (R91, R163). -/
def decodeHead : Context → Byte → Instr
  | .lineHeader, b => decodeRepeat b
  | .runHeader, b => decodeControl b

/-- Why a list of bytes gives no record. -/
inductive DecodeError where
  /-- There is no byte where a head is due. -/
  | endOfStream
  deriving DecidableEq, Repr

/-- The record at the front of a byte list, and the bytes after its head. -/
def decode (c : Context) : List Byte → Except DecodeError (Instr × List Byte)
  | [] => .error .endOfStream
  | b :: rest => .ok (decodeHead c b, rest)

/-- The head byte of a record, from the layouts of R82 and R83. -/
def encodeHead : Instr → Byte
  | .line r => r
  | .rep m => (0#1) ++ m
  | .lit m => (1#1) ++ m
  | .blank => 0x80

/-- The words of a record's head: one byte. -/
def encode (i : Instr) : List Byte := [encodeHead i]

/-- `line_repeat` of a repeat byte (R82, R112): `u8(r) + 1`, in 9 bits. -/
def repeatCount (r : Byte) : BitVec 9 := BitVec.ofNat 9 (u8 r + 1)

/-- Run length of a `REP` (R84, R127): `m + 1`, in 1..128. -/
def repLength (m : BitVec 7) : BitVec 8 := BitVec.ofNat 8 (m.toNat + 1)

/-- Run length of a `LIT` (R84, R127): `129 - m`, in 2..128 when `m` is not 0. -/
def litLength (m : BitVec 7) : BitVec 8 := BitVec.ofNat 8 (129 - m.toNat)

/-! ## The opcode table's words -/

/-- The first `k` bytes of a number, least significant first. -/
def bytesOfNat : Nat → Nat → List Byte
  | 0, _ => []
  | k + 1, w => BitVec.ofNat 8 w :: bytesOfNat k (w / 256)

/-- The record the decoder reads from a row's word.
The table's words carry no context (R81), and the rows `REP`, `LIT`, `BLANK` are read in `RUN_HEADER`, so the word is
read there; a word of the row `LINE` is indistinguishable from a control byte (log 9). -/
def decodeTableWord (nbits w : Nat) : Option Instr :=
  match decode .runHeader (bytesOfNat (nbits / 8) w) with
  | .ok (i, _) => some i
  | .error _ => none

/-! ## Records with their payload (R80, R85 to R90) -/

/-- A run record as it stands in the stream: a pixel is its bytes in stream order. -/
inductive RunRecord where
  /-- `REP`: one pixel, always (R86). -/
  | rep (m : BitVec 7) (pixel : List Byte)
  /-- `LIT`: the pixels present in the stream (R88). -/
  | lit (m : BitVec 7) (pixels : List (List Byte))
  /-- `BLANK`: no payload (R89). -/
  | blank
  deriving DecidableEq, Repr

/-- A line record: the repeat byte and its run records (R80). -/
structure LineRecord where
  /-- The repeat byte. -/
  repeatByte : Byte
  /-- The run records that fill the line. -/
  runs : List RunRecord
  deriving DecidableEq, Repr

/-- The record a run record's head byte stands for. -/
def RunRecord.head : RunRecord → Instr
  | .rep m _ => .rep m
  | .lit m _ => .lit m
  | .blank => .blank

/-- The payload bytes of a run record (R87). -/
def RunRecord.payload : RunRecord → List Byte
  | .rep _ pixel => pixel
  | .lit _ pixels => pixels.flatten
  | .blank => []

/-- A run record on the wire: no padding, no terminator (R90). -/
def RunRecord.encode (r : RunRecord) : List Byte := encodeHead r.head :: r.payload

/-- A line record on the wire (R80). -/
def LineRecord.encode (l : LineRecord) : List Byte :=
  encodeHead (.line l.repeatByte) :: (l.runs.map RunRecord.encode).flatten

/-- A raster body on the wire (R80). -/
def encodeBody (ls : List LineRecord) : List Byte := (ls.map LineRecord.encode).flatten

/-- How many pixels of the line a run record met at position `p` produces (R124). -/
def RunRecord.advance (width p : Nat) : RunRecord → Nat
  | .rep m _ => min (m.toNat + 1) (width - p)
  | .lit m _ => min (129 - m.toNat) (width - p)
  | .blank => width - p

/-- A run record has the payload its head and the position call for (R80, R86, R88, R89). -/
def RunRecord.fits (width pb p : Nat) : RunRecord → Bool
  | .rep _ pixel => pixel.length == pb
  | .lit m pixels =>
    m != 0 && pixels.length == min (129 - m.toNat) (width - p) && pixels.all (·.length == pb)
  | .blank => true

/-- The run records of a line, met from position `p` on, fill it exactly (R80, R125). -/
def runsFill (width pb : Nat) : Nat → List RunRecord → Bool
  | p, [] => p == width
  | p, r :: rs => decide (p < width) && r.fits width pb p && runsFill width pb (p + r.advance width p) rs

/-- The line records of a page, met with `cur` lines done, bring it to `height` and no further record
follows (R80, R90, R143). -/
def bodyFills (width pb height : Nat) : Nat → List LineRecord → Bool
  | cur, [] => decide (height ≤ cur)
  | cur, l :: ls =>
    decide (cur < height) && runsFill width pb 0 l.runs
      && bodyFills width pb height (cur + u8 l.repeatByte + 1) ls

/-- `k` pixels of `pb` bytes each, and the bytes after them (R87). -/
def takePixels (pb : Nat) : Nat → List Byte → Option (List (List Byte) × List Byte)
  | 0, bs => some ([], bs)
  | k + 1, bs =>
    if bs.length < pb then none
    else match takePixels pb k (bs.drop pb) with
      | some (ps, rest) => some (bs.take pb :: ps, rest)
      | none => none

/-- The run record at the front of a byte list, met at position `p` (R83, R86, R88, R89). -/
def parseRun (width pb p : Nat) : List Byte → Option (RunRecord × List Byte)
  | [] => none
  | b :: bs =>
    match decodeControl b with
    | .blank => some (.blank, bs)
    | .rep m =>
      if bs.length < pb then none else some (.rep m (bs.take pb), bs.drop pb)
    | .lit m =>
      match takePixels pb (min (129 - m.toNat) (width - p)) bs with
      | some (ps, rest) => some (.lit m ps, rest)
      | none => none
    | .line _ => none

/-- The run records of a line from position `p` on; the first argument bounds how many are left, and
`width - p` is enough since each produces a pixel (R125). -/
def parseRuns (width pb : Nat) : Nat → Nat → List Byte → Option (List RunRecord × List Byte)
  | 0, p, bs => if width ≤ p then some ([], bs) else none
  | fuel + 1, p, bs =>
    if width ≤ p then some ([], bs)
    else match parseRun width pb p bs with
      | none => none
      | some (r, rest) =>
        match parseRuns width pb fuel (p + r.advance width p) rest with
        | none => none
        | some (rs, rest') => some (r :: rs, rest')

/-- The line records of a page from `cur` lines on; the first argument bounds how many are left, and
`height - cur` is enough since each gives a line (R143). -/
def parseLines (width pb height : Nat) : Nat → Nat → List Byte → Option (List LineRecord × List Byte)
  | 0, cur, bs => if height ≤ cur then some ([], bs) else none
  | fuel + 1, cur, bs =>
    if height ≤ cur then some ([], bs)
    else match bs with
      | [] => none
      | b :: bs' =>
        match parseRuns width pb width 0 bs' with
        | none => none
        | some (rs, rest) =>
          match parseLines width pb height fuel (cur + u8 b + 1) rest with
          | none => none
          | some (ls, rest') => some (⟨b, rs⟩ :: ls, rest')

/-- The raster body of a page at the front of a byte list, and the bytes after it (R80, R90). -/
def parseBody (width pb height : Nat) (bs : List Byte) : Option (List LineRecord × List Byte) :=
  parseLines width pb height height 0 bs

/-! ## The notation of R93 -/

/-- `LINE x<k>`, for 1 ≤ `k` ≤ 256. -/
def lineX (k : Nat) : Instr := .line (BitVec.ofNat 8 (k - 1))

/-- `REP <n>, <pixel>`, for 1 ≤ `n` ≤ 128. -/
def repX (n : Nat) (pixel : List Byte) : RunRecord := .rep (BitVec.ofNat 7 (n - 1)) pixel

/-- `LIT <n>, <pixel>, …`, for 2 ≤ `n` ≤ 128. -/
def litX (n : Nat) (pixels : List (List Byte)) : RunRecord := .lit (BitVec.ofNat 7 (129 - n)) pixels

end Sys2Proof
end

