-- ==== Sys2Proof/Config.lean ====
section
/-! DEFINITION. What a realisation of the block fixes once and for all (00_scope.md R11).
The spec makes each of the four "a named argument of the model". The model takes them in one record: the argument of
`State.resetOf`, which every state holds and no step writes, so a statement about every state is a statement about every
choice of them. -/

namespace Sys2Proof.Config

/-- The build-time parameters of R11. -/
structure Build where
  /-- `LINE_BUF_BYTES`: capacity of the scanline buffer in bytes; at least 1, which `Inv` says of every state. -/
  lineBufBytes : Nat
  /-- `BLANK_BYTE`: the byte a blank-to-end-of-line run writes. -/
  blankByte : Byte
  /-- `PIXEL_BYTE_REVERSE`: whether a pixel's bytes are stored reversed. -/
  pixelByteReverse : Bool
  /-- `EOF_AT_LINE_BOUNDARY_IS_ERROR`: `FAILED` or `ENDED_SHORT` when the stream ends where a repeat byte is due. -/
  eofAtLineBoundaryIsError : Bool
  deriving DecidableEq, Repr

/-- DESIGN CHOICE (log 3, unsafe): the argument that `State.reset`, one constant machine, gives `State.resetOf`.
They are the defaults of R11; for `LINE_BUF_BYTES`, which has none, the size R11 calls enough for every legal
configuration. No statement rests on these values. -/
def Build.default : Build where
  lineBufBytes := (2 ^ 32 - 1) * 31
  blankByte := 0xFF
  pixelByteReverse := false
  eofAtLineBoundaryIsError := true

end Sys2Proof.Config
end

