-- ==== Sys2Proof/Machine/State.lean ====
section
/-! DEFINITION. The state of the machine: the block's registers and buffer (10_state.md R20 to R29), what the stream
source and the sink hold of the session (R30, 44_sink_interface.md R154), and the host's pending acts. -/

namespace Sys2Proof.Machine

/-- The sequencer register's values (R27). -/
inductive Phase where
  /-- No session; waiting for START. -/
  | idle
  /-- A repeat byte is due. -/
  | lineHeader
  /-- A control byte is due. -/
  | runHeader
  /-- A byte of the one pixel of a `REP` is due. -/
  | repFetch
  /-- A byte of a pixel of a `LIT` is due. -/
  | litFetch
  /-- The scanline is complete and has emissions left. -/
  | emit
  /-- Terminal: `HEIGHT` lines were emitted. -/
  | done
  /-- Terminal: the session ended in `TruncatedStream`. -/
  | failed
  /-- Terminal: end of stream at a line boundary, accepted as a clean end. -/
  | endedShort
  deriving DecidableEq, Repr

/-- `err_kind` (R28). -/
inductive ErrKind where
  /-- No error. -/
  | none
  /-- `TRUNCATED_STREAM`. -/
  | truncatedStream
  deriving DecidableEq, Repr

/-- `err_where` (R28): which read met the end of the stream. -/
inductive ErrWhere where
  /-- No read did. -/
  | none
  /-- The repeat byte of a `LINE`. -/
  | repeatByte
  /-- The control byte of a run record. -/
  | controlByte
  /-- A byte of a pixel. -/
  | pixelPayload
  deriving DecidableEq, Repr

/-- One call of the sink (R154): the line index and a copy of the scanline at the moment of the call. -/
structure Emission where
  /-- `line_index`: `current_line` before the increment. -/
  lineIndex : BitVec 32
  /-- `linebuf[0 .. LINE_BYTES - 1]`, byte 0 first. -/
  bytes : List Byte
  deriving DecidableEq, Repr

/-- The operands of START (R101), and the stream the host has positioned for the page (R100, R192 duty 4; log 5). -/
structure Page where
  /-- The host's `width`. -/
  width : BitVec 32
  /-- The host's `height`. -/
  height : BitVec 32
  /-- The host's `bits_per_pixel`. -/
  bitsPerPixel : BitVec 8
  /-- The bytes from the first byte of the raster body to the end of the stream. -/
  stream : List Byte
  deriving DecidableEq, Repr

/-- What the host does next (log 4). -/
inductive HostAct where
  /-- Let the block make one transaction. -/
  | serve
  /-- Let the block run until `status` is no longer `BUSY` (R192 duty 6). -/
  | await
  /-- Issue START now. -/
  | start (page : Page)
  /-- Apply hardware reset now (R190). -/
  | reset
  deriving DecidableEq, Repr

/-- The scanline buffer's contents: the bytes that were written, by address, addresses strictly rising.
An address that is not listed holds no value (R51; log 2). -/
abbrev Memory := List Host.Cell

/-- The state of the machine. -/
structure State where
  /-- The build-time parameters (00_scope.md R11; log 3); no step writes them. -/
  build : Config.Build
  /-- `WIDTH` (R21). -/
  width : BitVec 32
  /-- `HEIGHT` (R21). -/
  height : BitVec 32
  /-- `BPP` (R21). -/
  bpp : BitVec 8
  /-- `current_line` (R22). -/
  currentLine : BitVec 32
  /-- `pos` (R23), in pixels. -/
  pos : BitVec 32
  /-- `line_repeat` (R24). -/
  lineRepeat : BitVec 9
  /-- `emit_left` (R24). -/
  emitLeft : BitVec 9
  /-- `code` (R25). -/
  code : Byte
  /-- `run_left` (R25). -/
  runLeft : BitVec 8
  /-- `px` (R26), of which a session uses the first `PIXEL_BYTES` bytes. -/
  px : Vector Byte 31
  /-- `px_idx` (R26). -/
  pxIdx : BitVec 5
  /-- `phase` (R27). -/
  phase : Phase
  /-- `err_kind` (R28). -/
  errKind : ErrKind
  /-- `err_where` (R28). -/
  errWhere : ErrWhere
  /-- `err_row` (R28). -/
  errRow : BitVec 32
  /-- `err_col` (R28). -/
  errCol : BitVec 32
  /-- `linebuf` (R29, R51). -/
  linebuf : Memory
  /-- The raster stream (R50), the stream source's; the decoder never writes it (R64). -/
  stream : List Byte
  /-- The stream cursor (R30), the stream source's: the count of bytes consumed. -/
  cursor : Nat
  /-- The sink calls of the session so far, oldest first (R154). -/
  trace : List Emission
  /-- The sink calls of earlier sessions, oldest first (R108: delivered lines are not retracted; log 13). -/
  earlier : List Emission
  /-- The host's pending acts, next first (log 4). -/
  host : List HostAct
  deriving DecidableEq, Repr

/-- Why the machine stops. Every one is safe: the model stops where the spec has no rule, in states that no
stream and no START lead to (10_state.md R33). -/
inductive Fault where
  /-- Raised by the buffer stores of `REP`, `LIT` and `BLANK`: a store at a position outside the line, or with a line
  longer than the buffer (20_memory.md R51, R59). Safe. -/
  | bufferOutOfRange
  /-- Raised by the sink call: it would hand over a byte never written since reset (20_memory.md R51). Safe. -/
  | unwrittenByte
  /-- Raised by the payload fetches and the emission: no row of R105 covers the registers' values (log 11). Safe. -/
  | noTransition
  deriving DecidableEq, Repr

/-- Why there is no step. -/
inductive Refusal where
  /-- Raised by `exec` alone, for an instruction that has no meaning yet. Safe. -/
  | notModelled (mnemonic : String)
  /-- Raised by START with a configuration outside the input constraints (60_exceptions.md R176 (a)). Safe. -/
  | illegalConfiguration
  /-- Raised by START while a session is busy (60_exceptions.md R176 (b)). Safe. -/
  | startWhileBusy
  /-- Raised by a record's meaning in a phase in which the record cannot stand (30_encoding.md R81; log 10). Safe. -/
  | outOfContext
  /-- Raised by the meaning of `LIT` for the term with `m = 0`, which no byte decodes to (30_encoding.md R83; log 10).
  Safe. -/
  | illFormed
  deriving DecidableEq, Repr

/-- The answer of a step of this machine. -/
abbrev Result := Host.Outcome State Fault Refusal

/-- The machine with the build-time parameters `b` (00_scope.md R11) right after hardware reset (10_state.md R34,
70_reset_and_hazards.md R190).
R34 gives `phase`, `current_line` and the error registers and lists nothing in the buffer; the zeros of the registers it
leaves unwritten are a DESIGN CHOICE (log 1, unsafe). -/
def State.resetOf (b : Config.Build) : State where
  build := b
  width := 0
  height := 0
  bpp := 0
  currentLine := 0
  pos := 0
  lineRepeat := 0
  emitLeft := 0
  code := 0
  runLeft := 0
  px := Vector.replicate 31 0
  pxIdx := 0
  phase := .idle
  errKind := .none
  errWhere := .none
  errRow := 0
  errCol := 0
  linebuf := []
  stream := []
  cursor := 0
  trace := []
  earlier := []
  host := []

/-- The machine of the default parameters right after hardware reset (log 3, unsafe). -/
def State.reset : State := State.resetOf Config.Build.default

end Sys2Proof.Machine
end

