-- ==== Sys2Proof/Machine/Operands.lean ====
section
/-! DEFINITION. The derived quantities the rules read: pixel and line sizes, buffer addresses, the bytes a pixel
store writes (10_state.md R21, 20_memory.md R51, R52; 42_pixel_runs.md R124). -/

namespace Sys2Proof.Machine

/-- `PIXEL_BYTES` (R21): `BPP / 8`, exact in a legal configuration (log 15). -/
def State.pixelBytes (s : State) : Nat := s.bpp.toNat / 8

/-- `LINE_BYTES` (R21): the length of one scanline in bytes. -/
def State.lineBytes (s : State) : Nat := s.width.toNat * s.pixelBytes

/-- The address of the first byte of pixel position `p` (R51). -/
def State.pixelAddress (s : State) (p : Nat) : Nat := p * s.pixelBytes

/-- `PIXEL_BYTES` in the terms of a host's configuration (R9). -/
def Page.pixelBytes (c : Page) : Nat := c.bitsPerPixel.toNat / 8

/-- The input constraints of R10 and R101, for a buffer of `cap` bytes. -/
def Page.legal (c : Page) (cap : Nat) : Bool :=
  decide (1 ≤ c.width.toNat) && decide (1 ≤ c.height.toNat) && decide (8 ≤ c.bitsPerPixel.toNat)
    && decide (c.bitsPerPixel.toNat % 8 = 0) && decide (c.width.toNat * c.pixelBytes ≤ cap)

/-- The bytes of the pixel in `px`, in the order they take in the buffer (R52): stream order, or reversed. -/
def State.pixelSlot (s : State) : List Byte :=
  let bytes := s.px.toList.take s.pixelBytes
  if s.build.pixelByteReverse then bytes.reverse else bytes

/-- The row-overflow clamp (R124): of `n` pixels, how many the line has room for. -/
def State.clamp (s : State) (n : Nat) : Nat := min n (s.width.toNat - s.pos.toNat)

/-- `pos + k` as the register's new value (R23, R127). -/
def State.posPlus (s : State) (k : Nat) : BitVec 32 := BitVec.ofNat 32 (s.pos.toNat + k)

end Sys2Proof.Machine
end

