-- ==== Sys2Proof/Machine/Flags.lean ====
section
/-! DEFINITION. The block has no flags (10_state.md R31): its decisions are tests on register values, which stand here,
and its status outputs are views of registers (R22, R27, R28; 40_decode_session.md R104). -/

namespace Sys2Proof.Machine

/-! ## Tests (R31) -/

/-- The scanline is complete: `pos = WIDTH` (42_pixel_runs.md R125). -/
def State.lineComplete (s : State) : Bool := s.pos == s.width

/-- The page is complete: `current_line = HEIGHT` (43_line_emit.md R143). -/
def State.pageComplete (s : State) : Bool := s.currentLine == s.height

/-- A byte that is not the last of its pixel is due (rows T8, T10 of R105). -/
def State.midPixel (s : State) : Bool := decide (s.pxIdx.toNat + 1 < s.pixelBytes)

/-- The last byte of a pixel the run still needs is due (rows T9, T11 of R105, under R33 items 2, 4, 5). -/
def State.lastOfPixel (s : State) : Bool :=
  decide (s.pxIdx.toNat + 1 = s.pixelBytes) && decide (0 < s.runLeft.toNat) && decide (s.pos.toNat < s.width.toNat)

/-- An emission is due (row T13 of R105, under R33 items 1 and 3; the two tests of R140's loop). -/
def State.emissionDue (s : State) : Bool :=
  decide (0 < s.emitLeft.toNat) && decide (s.currentLine.toNat < s.height.toNat)

/-- A pixel store at position `p` stays in the line and in the buffer (20_memory.md R51, R52, R59). -/
def State.canStore (s : State) (p : Nat) : Bool :=
  decide (p < s.width.toNat) && decide (s.lineBytes ≤ s.build.lineBufBytes)

/-! ## Status outputs -/

/-- The groups of `status` (R27). -/
inductive Status where
  /-- Phase 0. -/
  | idle
  /-- Phases 1 to 5. -/
  | busy
  /-- Phase 6. -/
  | done
  /-- Phase 7. -/
  | failed
  /-- Phase 8. -/
  | endedShort
  deriving DecidableEq, Repr

/-- The status group of a phase (R27). -/
def Phase.status : Phase → Status
  | .idle => .idle
  | .lineHeader | .runHeader | .repFetch | .litFetch | .emit => .busy
  | .done => .done
  | .failed => .failed
  | .endedShort => .endedShort

/-- A session is under way. -/
def Phase.busy (p : Phase) : Bool := p.status == .busy

/-- The number of a phase as the 4-bit status field exports it (R27). -/
def Phase.code : Phase → BitVec 4
  | .idle => 0
  | .lineHeader => 1
  | .runHeader => 2
  | .repFetch => 3
  | .litFetch => 4
  | .emit => 5
  | .done => 6
  | .failed => 7
  | .endedShort => 8

/-- The number of an error kind (R28). -/
def ErrKind.code : ErrKind → BitVec 2
  | .none => 0
  | .truncatedStream => 1

/-- The number of a failed read (R28, R161). -/
def ErrWhere.code : ErrWhere → BitVec 2
  | .none => 0
  | .repeatByte => 1
  | .controlByte => 2
  | .pixelPayload => 3

/-- `status` (R27). -/
def State.status (s : State) : Status := s.phase.status

/-- `lines_completed` (R22, R104): a view of `current_line`. -/
def State.linesCompleted (s : State) : BitVec 32 := s.currentLine

/-- What the session reports (R104): the source's `Result<(), DecodeError>`. -/
inductive SessionResult where
  /-- `Ok(())`. -/
  | ok
  /-- `Err(TruncatedStream)` with its row and column. -/
  | truncatedStream (row col : BitVec 32)
  deriving DecidableEq, Repr

/-- The report of a terminal phase (R104); none before. -/
def State.result (s : State) : Option SessionResult :=
  match s.phase with
  | .done => some .ok
  | .failed => some (.truncatedStream s.errRow s.errCol)
  | .endedShort => some .ok
  | .idle | .lineHeader | .runHeader | .repFetch | .litFetch | .emit => none

/-- `image[i]` (44_sink_interface.md R155): the bytes of the session's call with line index `i`. -/
def State.image (s : State) (i : Nat) : Option (List Byte) :=
  (s.trace.find? (fun e => e.lineIndex.toNat == i)).map Emission.bytes

end Sys2Proof.Machine
end

