-- ==== Sys2Proof/Machine/Ops.lean ====
section
/-! DEFINITION. The shared operations: the scanline buffer byte by byte, the primitives of 00_scope.md R16, the one
exception and its end states. -/

namespace Sys2Proof.Machine

/-- Go on with `k` if there is a next state. -/
def andThen (r : Result) (k : State → Result) : Result :=
  match r with
  | .next s => k s
  | .fault f => .fault f
  | .refused x => .refused x

/-! ## The scanline buffer's contents (R51) -/

/-- The value of the latest write to an address; none if there was no write. -/
def Memory.read : Memory → Nat → Option Byte
  | [], _ => none
  | (b, v) :: m, a => if b = a then some v else Memory.read m a

/-- `BufWrite` (R51): replace one byte, keeping the addresses rising. -/
def Memory.write : Memory → Nat → Byte → Memory
  | [], a, v => [(a, v)]
  | (b, w) :: m, a, v =>
    if a < b then (a, v) :: (b, w) :: m
    else if a = b then (a, v) :: m
    else (b, w) :: Memory.write m a v

/-- The canonical form: addresses strictly rising. No value is the value of an unlisted address, so no entry can
equal it. -/
abbrev Memory.wf (m : Memory) : Prop := m.Pairwise (fun x y => x.1 < y.1)

/-- Consecutive bytes from an address on. -/
def Memory.writeBytes : Memory → Nat → List Byte → Memory
  | m, _, [] => m
  | m, a, b :: bs => Memory.writeBytes (Memory.write m a b) (a + 1) bs

/-- The same byte at `n` consecutive addresses. -/
def Memory.fill (v : Byte) : Memory → Nat → Nat → Memory
  | m, _, 0 => m
  | m, a, n + 1 => Memory.fill v (Memory.write m a v) (a + 1) n

/-- `n` consecutive bytes, if every one was written. -/
def Memory.readBytes (m : Memory) : Nat → Nat → Option (List Byte)
  | _, 0 => some []
  | a, n + 1 =>
    match Memory.read m a, Memory.readBytes m (a + 1) n with
    | some b, some bs => some (b :: bs)
    | _, _ => none

/-- `BufRead` (R51): one byte of the scanline buffer. -/
def State.bufRead (s : State) (a : Nat) : Option Byte := Memory.read s.linebuf a

/-- `StorePixel(p, px)` (R52): the pixel in `px` at pixel position `p`. -/
def storePixel (p : Nat) (s : State) : Result :=
  if s.canStore p then
    .next { s with linebuf := Memory.writeBytes s.linebuf (s.pixelAddress p) s.pixelSlot }
  else .fault .bufferOutOfRange

/-- `StorePixel(p + t, px)` for `t` in `0 .. m - 1` (row T9 of R105). -/
def storeRun : Nat → Nat → State → Result
  | _, 0, s => .next s
  | p, m + 1, s => andThen (storePixel p s) (storeRun (p + 1) m)

/-- `BlankFill(p)` (R53): `BLANK_BYTE` in every byte from pixel position `p` to the end of the line. -/
def blankFill (p : Nat) (s : State) : Result :=
  if s.canStore p then
    .next { s with
      linebuf := Memory.fill s.build.blankByte s.linebuf (s.pixelAddress p) (s.lineBytes - s.pixelAddress p) }
  else .fault .bufferOutOfRange

/-! ## The stream (R54) -/

/-- The two answers of the stream source. -/
inductive ReadAnswer where
  /-- The byte at the cursor, now consumed. -/
  | byte (b : Byte)
  /-- There is no byte at the cursor. -/
  | eof
  deriving DecidableEq, Repr

/-- `StreamRead()` (R54): one byte, consumed; or end of stream, the cursor left where it is. The source
always answers (log 7). -/
def streamRead (s : State) : ReadAnswer × State :=
  match s.stream[s.cursor]? with
  | some b => (.byte b, { s with cursor := s.cursor + 1 })
  | none => (.eof, s)

/-- Read a head byte and decode it in its context (R81); none at end of stream. -/
def fetchHead (c : Context) (s : State) : Option Instr × State :=
  match streamRead s with
  | (.byte b, s') => (some (decodeHead c b), s')
  | (.eof, s') => (none, s')

/-- A payload byte into `px` (rows T8 to T11 of R105). -/
def receivePixelByte (b : Byte) (s : State) : State :=
  { s with px := s.px.setIfInBounds s.pxIdx.toNat b }

/-! ## The sink (R150, R154) -/

/-- `SinkAccept(current_line, linebuf[0 .. LINE_BYTES - 1])` (R154): recorded in the output trace. The sink copies
the line at the call and always returns (log 16). -/
def sinkAccept (s : State) : Result :=
  match Memory.readBytes s.linebuf 0 s.lineBytes with
  | some bytes => .next { s with trace := s.trace ++ [⟨s.currentLine, bytes⟩] }
  | none => .fault .unwrittenByte

/-! ## The exception and the other early end (R161, R162, R165) -/

/-- `raise TruncatedStream(row, col, where)` (R161): the error registers and the phase, and nothing else. There is no
handler, and the only way on is a new START (R165, R167). -/
def raiseTruncated (row col : BitVec 32) (at_ : ErrWhere) (s : State) : State :=
  { s with errKind := .truncatedStream, errWhere := at_, errRow := row, errCol := col, phase := .failed }

/-- The clean end of a short page (R111, R162). -/
def endShort (s : State) : State :=
  { s with errKind := .none, errWhere := .repeatByte, errRow := s.currentLine, errCol := 0, phase := .endedShort }

/-! ## The end of a run record (R125) -/

/-- The scanline is complete: load `emit_left` and go to emission. -/
def beginEmission (s : State) : State := { s with emitLeft := s.lineRepeat, phase := .emit }

end Sys2Proof.Machine
end

