-- ==== Sys2Proof/Machine/Session.lean ====
section
/-! DEFINITION. The host's side of a session: START (40_decode_session.md R101), hardware reset (70_reset_and_hazards.md
R190) and the order in which the host acts (log 4). -/

namespace Sys2Proof.Machine

/-- The state START leaves, its two `require`s met (R101, row T0 of R105). The stream is the one the host has positioned
for the page, its cursor 0 by definition (R30); the sink is the page's own (R100), so its trace begins empty. -/
def openSession (c : Page) (s : State) : State :=
  { s with
    width := c.width, height := c.height, bpp := c.bitsPerPixel, currentLine := 0,
    errKind := .none, errWhere := .none, errRow := 0, errCol := 0, phase := .lineHeader,
    stream := c.stream, cursor := 0, earlier := s.earlier ++ s.trace, trace := [] }

/-- START (R101); the two cases the source gives no meaning are refused (R176). -/
def start (c : Page) (s : State) : Result :=
  if s.phase.busy then .refused .startWhileBusy
  else if c.legal s.build.lineBufBytes then .next (openSession c s)
  else .refused .illegalConfiguration

/-- Hardware reset at any moment (R190). The stream source's, the sink's and the host's own state is not the block's and
stays; the registers R34 leaves unwritten take the values of `State.resetOf` (log 12, unsafe). -/
def hardwareReset (s : State) : State :=
  { State.resetOf s.build with
    stream := s.stream, cursor := s.cursor, earlier := s.earlier ++ s.trace, host := s.host }

/-- One turn of the host, its pending acts being the list: it issues START or reset, or lets the block make one
transaction, which is `run`. With no act pending it keeps serving the block (R192 duty 6). -/
def hostTurn (run : State → Result) : List HostAct → State → Result
  | [], s => run { s with host := [] }
  | .serve :: rest, s => run { s with host := rest }
  | .await :: rest, s =>
    if s.phase.busy then run { s with host := .await :: rest } else hostTurn run rest s
  | .start c :: rest, s => start c { s with host := rest }
  | .reset :: rest, s => .next (hardwareReset { s with host := rest })

end Sys2Proof.Machine
end

