-- ==== Sys2Proof/Machine/Line.lean ====
section
/-! DEFINITION. The `LINE` record and the end of the stream at a line boundary (41_line_record.md). -/

namespace Sys2Proof.Machine

/-- `LINE` (R110, row T1 of R105): its repeat byte has been read. -/
def execLine (r : BitVec 8) (s : State) : Result :=
  match s.phase with
  | .lineHeader => .next { s with lineRepeat := repeatCount r, pos := 0, phase := .runHeader }
  | .idle | .runHeader | .repFetch | .litFetch | .emit | .done | .failed | .endedShort => .refused .outOfContext

/-- `EndAtLineBoundary()` (R111, rows T2 and T3 of R105). -/
def endAtLineBoundary (s : State) : State :=
  if s.build.eofAtLineBoundaryIsError then raiseTruncated s.currentLine 0 .repeatByte s else endShort s

end Sys2Proof.Machine
end

