-- ==== Sys2Proof/Machine/Runs.lean ====
section
/-! DEFINITION. The run records `REP`, `LIT` and `BLANK` (42_pixel_runs.md), row by row of R105.
The meaning of `REP` and of `LIT` spans several steps (log 17): the head's row in `RUN_HEADER`, its control byte having
been read, and the payload's rows in `REP_FETCH` or `LIT_FETCH`, each reading one payload byte. -/

namespace Sys2Proof.Machine

/-- End of stream where a control byte is due (R128, row T7 of R105). -/
def endAtControlByte (s : State) : State := raiseTruncated s.currentLine s.pos .controlByte s

/-- End of stream inside a pixel (R128, row T12 of R105). -/
def endInPayload (s : State) : State := raiseTruncated s.currentLine s.pos .pixelPayload s

/-- Rows T8 and T10 of R105: a byte that is not the last of its pixel. -/
def receiveMidPixel (b : Byte) (s : State) : State :=
  { receivePixelByte b s with pxIdx := s.pxIdx + 1 }

/-- After the last store of a record that has no pixel left to read (R125): emission, or the next control byte. -/
def afterRun (s : State) : State :=
  if s.lineComplete then beginEmission s else { s with phase := .runHeader }

/-- The tail of row T9: `REP`'s pixel is in `px`; store it as often as the run asks and the line has room (R122, R124). -/
def finishRep (s : State) : Result :=
  let m := s.clamp s.runLeft.toNat
  andThen (storeRun s.pos.toNat m s) fun s' =>
    .next (afterRun { s' with pos := s.posPlus m, runLeft := 0 })

/-- The phase after a `LIT` pixel (row T11): the line's end comes before the run's (R123, R124). -/
def afterLitPixel (s : State) : State :=
  if s.lineComplete then beginEmission s
  else if s.runLeft = 0 then { s with phase := .runHeader }
  else s

/-- The tail of row T11: a pixel of a `LIT` is in `px`; store it (R123). -/
def finishLitPixel (s : State) : Result :=
  andThen (storePixel s.pos.toNat s) fun s' =>
    .next (afterLitPixel { s' with pos := s.posPlus 1, runLeft := s.runLeft - 1, pxIdx := 0 })

/-- One payload byte of a run record (rows T8 to T12 of R105); `finish` is what the last byte of a pixel does. -/
def fetchPayload (finish : State → Result) (s : State) : Result :=
  match streamRead s with
  | (.eof, s') => .next (endInPayload s')
  | (.byte b, s') =>
    if s.midPixel then .next (receiveMidPixel b s')
    else if s.lastOfPixel then finish (receivePixelByte b s')
    else .fault .noTransition

/-- Phase `REP_FETCH` (rows T8, T9, T12). -/
def repFetch (s : State) : Result := fetchPayload finishRep s

/-- Phase `LIT_FETCH` (rows T10, T11, T12). -/
def litFetch (s : State) : Result := fetchPayload finishLitPixel s

/-- `REP` (R122): row T5 in `RUN_HEADER`, rows T8, T9, T12 in `REP_FETCH`. -/
def execRep (m : BitVec 7) (s : State) : Result :=
  match s.phase with
  | .runHeader =>
    .next { s with code := encodeHead (.rep m), runLeft := repLength m, pxIdx := 0, phase := .repFetch }
  | .repFetch => repFetch s
  | .idle | .lineHeader | .litFetch | .emit | .done | .failed | .endedShort => .refused .outOfContext

/-- `LIT` (R123): row T6 in `RUN_HEADER`, rows T10, T11, T12 in `LIT_FETCH`. -/
def execLit (m : BitVec 7) (s : State) : Result :=
  if m = 0 then .refused .illFormed
  else match s.phase with
    | .runHeader =>
      .next { s with code := encodeHead (.lit m), runLeft := litLength m, pxIdx := 0, phase := .litFetch }
    | .litFetch => litFetch s
    | .idle | .lineHeader | .repFetch | .emit | .done | .failed | .endedShort => .refused .outOfContext

/-- `BLANK` (R121, row T4 of R105). -/
def execBlank (s : State) : Result :=
  match s.phase with
  | .runHeader =>
    andThen (blankFill s.pos.toNat { s with code := encodeHead .blank }) fun s' =>
      .next (beginEmission { s' with pos := s.width })
  | .idle | .lineHeader | .repFetch | .litFetch | .emit | .done | .failed | .endedShort => .refused .outOfContext

end Sys2Proof.Machine
end

