-- ==== Sys2Proof/Machine/Dispatch.lean ====
section
/-! DEFINITION. One arm per record (42_pixel_runs.md R120, 41_line_record.md R110). -/

namespace Sys2Proof.Machine

def exec (i : Instr) (s : State) : Host.Outcome State Fault Refusal :=
  match i with
  | .line r => Sys2Proof.Machine.execLine r s
  | .rep m => Sys2Proof.Machine.execRep m s
  | .lit m => Sys2Proof.Machine.execLit m s
  | .blank => Sys2Proof.Machine.execBlank s

end Sys2Proof.Machine
end

