-- ==== Sys2Proof/Machine/Emit.lean ====
section
/-! DEFINITION. Line completion and repeated emission (43_line_emit.md R140, R141, R143). -/

namespace Sys2Proof.Machine

/-- The phase after an emission (row T13 of R105): the page's end comes before the line's (R141, R143). -/
def afterEmission (s : State) : State :=
  if s.pageComplete then { s with phase := .done }
  else if s.emitLeft = 0 then { s with phase := .lineHeader }
  else s

/-- One sink call (row T13 of R105), one turn of R140's loop. -/
def emitLine (s : State) : Result :=
  if s.emissionDue then
    andThen (sinkAccept s) fun s' =>
      .next (afterEmission { s' with currentLine := s.currentLine + 1, emitLeft := s.emitLeft - 1 })
  else .fault .noTransition

end Sys2Proof.Machine
end

