-- ==== Sys2Proof/Machine/Transaction.lean ====
section
/-! DEFINITION. One transaction of the block (00_scope.md R7; 40_decode_session.md R105): one stream read or one sink
call, with the internal work that follows it. -/

namespace Sys2Proof.Machine

/-- Read a head byte and run its record; `atEof` is what the end of the stream does. -/
def headTransaction (c : Context) (atEof : State → State) (s : State) : Result :=
  match fetchHead c s with
  | (some i, s') => exec i s'
  | (none, s') => .next (atEof s')

/-- Rows T1 to T13 of R105. In `IDLE` and the terminal phases there is no event but START, so the block waits and all
its state survives (R170; log 6). -/
def transaction (s : State) : Result :=
  match s.phase with
  | .lineHeader => headTransaction .lineHeader endAtLineBoundary s
  | .runHeader => headTransaction .runHeader endAtControlByte s
  | .repFetch => repFetch s
  | .litFetch => litFetch s
  | .emit => emitLine s
  | .idle | .done | .failed | .endedShort => .next s

/-- The session in which a record placed by the host's test runs (log 8): a page one line high of 128 one-byte pixels,
so that no run is clamped, with its `LINE x1` done. -/
def trialSession (s : State) : State :=
  { s with
    width := 128, height := 1, bpp := 8, currentLine := 0, pos := 0, lineRepeat := 1,
    errKind := .none, errWhere := .none, errRow := 0, errCol := 0, phase := .runHeader, trace := [] }

/-- `bs` at the cursor in place of what stood there. -/
def placeAtCursor (bs : List Byte) (s : State) : State :=
  { s with stream := s.stream.take s.cursor ++ List.replicate (s.cursor - s.stream.length) 0 ++ bs, host := [] }

/-- Bytes of the longest record: a head and 128 pixels of 31 bytes (R21, R84). -/
def longestRecord : Nat := 1 + 128 * 31

/-- The bytes of a table word, followed by zeros up to the longest record. -/
def tableWordBytes (nbits w : Nat) : List Byte :=
  bytesOfNat (nbits / 8) w ++ List.replicate (longestRecord - nbits / 8) 0

end Sys2Proof.Machine
end

