-- ==== Sys2Proof/Machine/Step.lean ====
section
/-! DEFINITION. The machine's step: one act of the host, or one transaction of the block that the host lets pass. -/

namespace Sys2Proof.Machine

/-- One step (00_scope.md R7): one stream byte, one sink call, START or reset. -/
def step (s : State) : Host.Outcome State Fault Refusal := hostTurn transaction s.host s

/-- The state with a table word as the next record of the stream, ready to be read as a control byte (log 8).
A session that already waits for a control byte inside its line is kept; else the session of `trialSession` is set up. -/
def State.withFetchWord (s : State) (nbits w : Nat) : State :=
  let inLine := s.phase == .runHeader && decide (s.pos.toNat < s.width.toNat)
  placeAtCursor (tableWordBytes nbits w) (if inLine then s else trialSession s)

end Sys2Proof.Machine
end

