-- ==== Sys2Proof/Machine/BigStep.lean ====
section
/-! DEFINITION. The session in one piece, the big-step form (40_decode_session.md R102, the pseudocode of R55, R110,
R120 to R123, R140, R143). It uses the primitives of the step machine and none of its rows; R106 says that the two
agree. It writes neither `run_left` nor `px_idx`: R102 has loop variables there. -/

namespace Sys2Proof.Machine

/-- How a piece of R102 ends: it goes on, the session has ended, or a primitive faulted. -/
inductive Flow where
  /-- Go on from this state. -/
  | go (s : State)
  /-- The session ended in a terminal phase. -/
  | ended (s : State)
  /-- A primitive's precondition failed. -/
  | stopped (f : Fault)
  deriving DecidableEq, Repr

/-- Go on with `k` unless the session has ended. -/
def Flow.bind : Flow → (State → Flow) → Flow
  | .go s, k => k s
  | .ended s, _ => .ended s
  | .stopped f, _ => .stopped f

/-- A primitive that returns. -/
def Flow.ofResult : Result → Flow
  | .next s => .go s
  | .fault f => .stopped f
  | .refused _ => .stopped .noTransition

/-- `ReadPixel()` from byte `j` on, `todo` bytes left (R55). -/
def readPixelFrom : Nat → Nat → State → Flow
  | 0, _, s => .go s
  | todo + 1, j, s =>
    match streamRead s with
    | (.eof, s') => .ended (raiseTruncated s'.currentLine s'.pos .pixelPayload s')
    | (.byte b, s') => readPixelFrom todo (j + 1) { s' with px := s'.px.setIfInBounds j b }

/-- `ReadPixel()` (R55). -/
def readPixel (s : State) : Flow := readPixelFrom s.pixelBytes 0 s

/-- The body of both store loops: `StorePixel(pos, px); pos <- pos + 1`. -/
def storeHere (s : State) : Flow :=
  (Flow.ofResult (storePixel s.pos.toNat s)).bind fun s' => .go { s' with pos := s'.posPlus 1 }

/-- `REP`'s loop, `n - i` turns left (R122). -/
def repLoop : Nat → State → Flow
  | 0, s => .go s
  | k + 1, s => if s.pos.toNat < s.width.toNat then (storeHere s).bind (repLoop k) else .go s

/-- `LIT`'s loop, `n - i` turns left (R123). -/
def litLoop : Nat → State → Flow
  | 0, s => .go s
  | k + 1, s =>
    if s.pos.toNat < s.width.toNat then
      (readPixel s).bind fun s' => (storeHere s').bind (litLoop k)
    else .go s

/-- One run record (R120): the control byte, its dispatch, the record. -/
def runRecord (s : State) : Flow :=
  match streamRead s with
  | (.eof, s') => .ended (raiseTruncated s'.currentLine s'.pos .controlByte s')
  | (.byte b, s') =>
    let s1 := { s' with code := b }
    if s8 b = -128 then
      (Flow.ofResult (blankFill s1.pos.toNat s1)).bind fun s2 => .go { s2 with pos := s2.width }
    else if 0 ≤ s8 b then (readPixel s1).bind (repLoop (s8 b + 1).toNat)
    else litLoop (-s8 b + 1).toNat s1

/-- The inner loop (R125), at most `fuel` run records. -/
def runLoop : Nat → State → Flow
  | 0, s => .go s
  | fuel + 1, s => if s.pos.toNat < s.width.toNat then (runRecord s).bind (runLoop fuel) else .go s

/-- The emission loop (R140), at most `fuel` sink calls. -/
def emitLoop : Nat → State → Flow
  | 0, s => .go s
  | fuel + 1, s =>
    if s.emissionDue then
      (Flow.ofResult (sinkAccept s)).bind fun s' =>
        emitLoop fuel { s' with currentLine := s'.currentLine + 1, emitLeft := s'.emitLeft - 1 }
    else .go s

/-- One line record and its emissions (steps 1 to 5 of R102). Each run record produces a pixel, so `WIDTH` turns are
enough for the inner loop (R125); the emission loop makes at most `line_repeat` calls. -/
def lineRecord (s : State) : Flow :=
  match streamRead s with
  | (.eof, s') => .ended (endAtLineBoundary s')
  | (.byte b, s') =>
    (runLoop s.width.toNat { s' with lineRepeat := repeatCount b, pos := 0 }).bind fun s2 =>
      emitLoop s2.lineRepeat.toNat { s2 with emitLeft := s2.lineRepeat }

/-- The outer loop (step 6 of R102), at most `fuel` line records. -/
def pageLoop : Nat → State → Flow
  | 0, s => .ended { s with phase := .done }
  | fuel + 1, s =>
    if s.currentLine.toNat < s.height.toNat then (lineRecord s).bind (pageLoop fuel)
    else .ended { s with phase := .done }

/-- `DecodePage()` (R102), after START. Each line record gives a line, so `HEIGHT` turns are enough (R143). -/
def decodePage (s : State) : Flow := pageLoop s.height.toNat s

end Sys2Proof.Machine
end

