-- ==== Sys2Proof/Safety.lean ====
section
/-! DEFINITION. What a good state and a good run are, in the terms the statements use: the invariants of
10_state.md R33, the phase edges of 40_decode_session.md R105, and what a run may not depend on (R66, R191). -/

namespace Sys2Proof.Machine

/-- Phases in which a scanline is being assembled: `RUN_HEADER`, `REP_FETCH`, `LIT_FETCH`. -/
def Phase.inLine (p : Phase) : Bool := p == .runHeader || p == .repFetch || p == .litFetch

/-- Phases in which a payload byte is due. -/
def Phase.fetching (p : Phase) : Bool := p == .repFetch || p == .litFetch

/-- Phases in which `pos`, `line_repeat` and the buffer below `pos` belong to a line record. -/
def Phase.holdsLine (p : Phase) : Bool := p.inLine || p == .emit

/-- The input constraints of R10, on the latched registers. -/
def State.configLegal (s : State) : Prop :=
  1 ≤ s.width.toNat ∧ 1 ≤ s.height.toNat ∧ 8 ≤ s.bpp.toNat ∧ s.bpp.toNat % 8 = 0 ∧
    s.lineBytes ≤ s.build.lineBufBytes

/-- Every buffer byte outside `[lo, hi)` reads the same in both states. -/
def BufferSameOutside (s t : State) (lo hi : Nat) : Prop :=
  ∀ a, a < lo ∨ hi ≤ a → t.bufRead a = s.bufRead a

/-- Where byte `j` of a pixel, in stream order, lies when the pixel is stored at position `p` (R52). -/
def State.byteAddress (s : State) (p j : Nat) : Nat :=
  s.pixelAddress p + (if s.build.pixelByteReverse then s.pixelBytes - 1 - j else j)

/-- The error registers' contents (R28, R34). -/
def State.errorsAre (s : State) (k : ErrKind) (w : ErrWhere) (row col : BitVec 32) : Prop :=
  s.errKind = k ∧ s.errWhere = w ∧ s.errRow = row ∧ s.errCol = col

/-- The invariants of R33, with those of R20 to R30 that every reachable state has, and the bound of R11. -/
structure Inv (s : State) : Prop where
  /-- `LINE_BUF_BYTES` is at least 1 (R11). -/
  bufferSize : 1 ≤ s.build.lineBufBytes
  /-- The buffer's contents are in canonical form. -/
  bufferWf : Memory.wf s.linebuf
  /-- No byte stands outside the buffer (R51, R59). -/
  bufferFits : ∀ a, s.build.lineBufBytes ≤ a → s.bufRead a = none
  /-- The cursor never passes the end of the stream (R30). -/
  cursorInStream : s.cursor ≤ s.stream.length
  /-- In the two early ends the cursor stands at the end of the stream (R104). -/
  cursorAtEnd : s.phase = .failed ∨ s.phase = .endedShort → s.cursor = s.stream.length
  /-- Before the first session nothing was delivered (R34). -/
  idleClear : s.phase = .idle → s.currentLine = 0
  /-- A session's configuration is legal (R101). -/
  config : s.phase ≠ .idle → s.configLegal
  /-- R33 item 1: `current_line = HEIGHT` exactly in `DONE`. -/
  lines : s.phase ≠ .idle →
    s.currentLine.toNat ≤ s.height.toNat ∧ (s.currentLine = s.height ↔ s.phase = .done)
  /-- R33 item 2: `pos < WIDTH` while the line is assembled. -/
  posInLine : s.phase.inLine = true → s.pos.toNat < s.width.toNat
  /-- R33 item 2: `pos = WIDTH` in `EMIT`, and in `LINE_HEADER` after the first line. -/
  posAtEnd : (s.phase = .emit ∨ (s.phase = .lineHeader ∧ s.currentLine ≠ 0)) → s.pos = s.width
  /-- R33 item 3: `line_repeat` in 1..256 from the first `LINE` on. -/
  repeatRange : (s.phase.holdsLine = true ∨ (s.phase = .lineHeader ∧ s.currentLine ≠ 0)) →
    1 ≤ s.lineRepeat.toNat ∧ s.lineRepeat.toNat ≤ 256
  /-- R33 item 3: `emit_left` in 1..`line_repeat` in `EMIT`. -/
  emitRange : s.phase = .emit → 1 ≤ s.emitLeft.toNat ∧ s.emitLeft.toNat ≤ s.lineRepeat.toNat
  /-- R33 item 4 for `REP`: the whole run is left, and it is in 1..128. -/
  repRun : s.phase = .repFetch → u8 s.code ≤ 127 ∧ s.runLeft.toNat = u8 s.code + 1
  /-- R33 item 4 for `LIT`: `run_left` is at least 1 and at most the run's length `257 - code`, in 2..128, which it
  equals before the first pixel is complete. -/
  litRun : s.phase = .litFetch →
    129 ≤ u8 s.code ∧ 1 ≤ s.runLeft.toNat ∧ s.runLeft.toNat + u8 s.code ≤ 257
  /-- R33 item 5. -/
  pixelIndex : s.phase.fetching = true → s.pxIdx.toNat < s.pixelBytes
  /-- R33 item 6: every byte below `pos` holds a value (that it is of this line record is what `AgreeOnLive` is for). -/
  written : s.phase.holdsLine = true →
    ∀ a, a < s.pixelAddress s.pos.toNat → (s.bufRead a).isSome = true
  /-- R28, R34: the error registers are clear but in the two early ends. -/
  errorsClear : s.phase ≠ .failed → s.phase ≠ .endedShort → s.errorsAre .none .none 0 0
  /-- R161: what `FAILED` reports. -/
  errorsFailed : s.phase = .failed →
    s.errKind = .truncatedStream ∧ s.errRow = s.currentLine ∧
      ((s.errWhere = .repeatByte ∧ s.errCol = 0 ∧ s.build.eofAtLineBoundaryIsError = true) ∨
        ((s.errWhere = .controlByte ∨ s.errWhere = .pixelPayload) ∧ s.errCol = s.pos ∧
          s.pos.toNat < s.width.toNat))
  /-- R28, R162: what `ENDED_SHORT` reports. -/
  errorsShort : s.phase = .endedShort →
    s.errorsAre .none .repeatByte s.currentLine 0 ∧ s.build.eofAtLineBoundaryIsError = false
  /-- R151: as many calls as lines completed. -/
  traceLength : s.trace.length = s.currentLine.toNat
  /-- R150, R151: the `t`-th call has index `t` and hands `LINE_BYTES` bytes. -/
  traceEntries : ∀ (i : Nat) (e : Emission), s.trace[i]? = some e → e.lineIndex.toNat = i ∧ e.bytes.length = s.lineBytes

/-- The edges of R105 between the phases, and the waiting of the phases whose only event is START. -/
def Phase.edge : Phase → Phase → Bool
  | .lineHeader, q => q == .runHeader || q == .failed || q == .endedShort
  | .runHeader, q => q == .repFetch || q == .litFetch || q == .emit || q == .failed
  | .repFetch, q => q == .repFetch || q == .runHeader || q == .emit || q == .failed
  | .litFetch, q => q == .litFetch || q == .runHeader || q == .emit || q == .failed
  | .emit, q => q == .emit || q == .lineHeader || q == .done
  | .idle, q => q == .idle
  | .done, q => q == .done
  | .failed, q => q == .failed
  | .endedShort, q => q == .endedShort

/-- Two states that agree on all a rule may still read (R33 items 2 to 6, R66, R191): a register is compared only in the
phases in which it is live, the buffer only below `pos` and only while a line is held, `px` only below `px_idx`. -/
structure AgreeOnLive (s t : State) : Prop where
  /-- The parameters. -/
  build : s.build = t.build
  /-- The sequencer. -/
  phase : s.phase = t.phase
  /-- `current_line`. -/
  currentLine : s.currentLine = t.currentLine
  /-- The error registers. -/
  errors : t.errorsAre s.errKind s.errWhere s.errRow s.errCol
  /-- The stream source. -/
  source : s.stream = t.stream ∧ s.cursor = t.cursor
  /-- The sink of this session. -/
  sink : s.trace = t.trace
  /-- The host. -/
  host : s.host = t.host
  /-- The configuration, in a session. -/
  config : s.phase ≠ .idle → s.width = t.width ∧ s.height = t.height ∧ s.bpp = t.bpp
  /-- The line record's registers and the part of the buffer it has written. -/
  line : s.phase.holdsLine = true → s.pos = t.pos ∧ s.lineRepeat = t.lineRepeat ∧
    ∀ a, a < s.pixelAddress s.pos.toNat → s.bufRead a = t.bufRead a
  /-- The run's registers and the part of `px` that has arrived. -/
  run : s.phase.fetching = true → s.runLeft = t.runLeft ∧ s.pxIdx = t.pxIdx ∧
    ∀ j, j < s.pxIdx.toNat → s.px[j]? = t.px[j]?
  /-- `emit_left`. -/
  emission : s.phase = .emit → s.emitLeft = t.emitLeft

/-- The answer `a` of one state is matched by the answer `b` of another: the same stop, or next states that agree. -/
def AnswersAgree : Result → Result → Prop
  | .next s, .next t => AgreeOnLive s t
  | .fault f, .fault g => f = g
  | .refused x, .refused y => x = y
  | _, _ => False

/-- `k` steps of the machine. -/
def runSteps (k : Nat) (s : State) : Result := Host.Core.run core k s

/-- The bytes of the stream not yet consumed. -/
def State.ahead (s : State) : List Byte := s.stream.drop s.cursor

/-! ## What a page's records stand for, as bytes -/

/-- A pixel as the buffer holds it (20_memory.md R52). -/
def storedPixel (b : Config.Build) (pixel : List Byte) : List Byte := if b.pixelByteReverse then pixel.reverse else pixel

/-- The bytes of the line that a run record met at position `p` gives (42_pixel_runs.md R121 to R124). -/
def renderRun (b : Config.Build) (width pb p : Nat) : RunRecord → List Byte
  | .rep m pixel => (List.replicate (min (m.toNat + 1) (width - p)) (storedPixel b pixel)).flatten
  | .lit _ pixels => (pixels.map (storedPixel b)).flatten
  | .blank => List.replicate ((width - p) * pb) b.blankByte

/-- The bytes of the line that run records met from position `p` on give. -/
def renderRuns (b : Config.Build) (width pb : Nat) : Nat → List RunRecord → List Byte
  | _, [] => []
  | p, r :: rs => renderRun b width pb p r ++ renderRuns b width pb (p + r.advance width p) rs

/-- The rows of a page (43_line_emit.md R140, R141): each line as often as its repeat byte says, as far as the page goes. -/
def renderBody (b : Config.Build) (width pb height : Nat) (ls : List LineRecord) : List (List Byte) :=
  (ls.map fun l => List.replicate (u8 l.repeatByte + 1) (renderRuns b width pb 0 l.runs)).flatten.take height

end Sys2Proof.Machine
end

