-- ==== Sys2Proof/Certificates/Slice0/Obligations.lean ====
section
/-! DEFINITION. The statements for the provers. Each docstring names the rules of spec/ it formalises; where a clause rests
on a decision the spec marks as its own (D<n> of 92_eei_decisions.md) or on this model's log, it says so. -/

open Sys2Proof Sys2Proof.Machine

/-! ## Encoding (30_encoding.md) -/

/-- The head-byte table of 95_test_vectors.md section 2: every boundary value, in both contexts (R82, R83). -/
def Obligations.BoundaryHeadBytesDecode : Prop :=
  (decodeControl 0x00 = .rep 0 ∧ repLength 0 = 1) ∧
  (decodeControl 0x01 = .rep 1 ∧ repLength 1 = 2) ∧
  (decodeControl 0x7E = .rep 126 ∧ repLength 126 = 127) ∧
  (decodeControl 0x7F = .rep 127 ∧ repLength 127 = 128) ∧
  decodeControl 0x80 = .blank ∧
  (decodeControl 0x81 = .lit 1 ∧ litLength 1 = 128) ∧
  (decodeControl 0x82 = .lit 2 ∧ litLength 2 = 127) ∧
  (decodeControl 0xFE = .lit 126 ∧ litLength 126 = 3) ∧
  (decodeControl 0xFF = .lit 127 ∧ litLength 127 = 2) ∧
  (decodeRepeat 0x00 = .line 0x00 ∧ repeatCount 0x00 = 1) ∧
  (decodeRepeat 0x01 = .line 0x01 ∧ repeatCount 0x01 = 2) ∧
  (decodeRepeat 0x7E = .line 0x7E ∧ repeatCount 0x7E = 127) ∧
  (decodeRepeat 0x7F = .line 0x7F ∧ repeatCount 0x7F = 128) ∧
  (decodeRepeat 0x80 = .line 0x80 ∧ repeatCount 0x80 = 129) ∧
  (decodeRepeat 0x81 = .line 0x81 ∧ repeatCount 0x81 = 130) ∧
  (decodeRepeat 0x82 = .line 0x82 ∧ repeatCount 0x82 = 131) ∧
  (decodeRepeat 0xFE = .line 0xFE ∧ repeatCount 0xFE = 255) ∧
  (decodeRepeat 0xFF = .line 0xFF ∧ repeatCount 0xFF = 256)

/-- R82: the repeat byte is one unsigned field; every value is legal, and the count is `u8(r) + 1`, never 0, in 1..256.
A step in `LINE_HEADER` loads it. -/
def Obligations.RepeatByteIsUnsigned : Prop :=
  (∀ b : Byte, decodeHead .lineHeader b = .line b ∧ (repeatCount b).toNat = b.toNat + 1 ∧
    1 ≤ (repeatCount b).toNat ∧ (repeatCount b).toNat ≤ 256) ∧
  ∀ (s : State) (b : Byte), s.host = [] → s.phase = .lineHeader → s.stream[s.cursor]? = some b →
    ∃ t, step s = .next t ∧ t.lineRepeat.toNat = b.toNat + 1

/-- R83, R84, R127: the three classes of the control byte by its signed value, and the run length of each. -/
def Obligations.ControlByteClasses : Prop :=
  ∀ b : Byte,
    (decodeControl b = .blank ↔ s8 b = -128) ∧
    (0 ≤ s8 b → ∃ m, decodeControl b = .rep m ∧ ((repLength m).toNat : Int) = s8 b + 1) ∧
    (-127 ≤ s8 b → s8 b ≤ -1 → ∃ m, decodeControl b = .lit m ∧ m ≠ 0 ∧ ((litLength m).toNat : Int) = -s8 b + 1)

/-- R163: no head byte is invalid: in either context each byte decodes, to a well-formed record of that context. -/
def Obligations.EveryHeadByteDecodes : Prop :=
  ∀ (c : Context) (b : Byte) (rest : List Byte),
    ∃ i, decode c (b :: rest) = .ok (i, rest) ∧ i.wellFormed = true ∧ i.context = c

/-- Decoding what is encoded gives the record back, with every field at every value. -/
def Obligations.DecodeOfEncode : Prop :=
  ∀ (i : Instr) (rest : List Byte), i.wellFormed = true → decode i.context (encode i ++ rest) = .ok (i, rest)

/-- Encoding what is decoded gives the byte back: no bit of a head byte is dropped. -/
def Obligations.EncodeOfDecode : Prop :=
  ∀ (c : Context) (b : Byte), encodeHead (decodeHead c b) = b

/-- R80, R85 to R90: a page's line records, with their payloads, parse back from the wire, and what follows them is left:
the format needs no length field, terminator or padding. -/
def Obligations.ParseOfEncodedBody : Prop :=
  ∀ (width pb height : Nat) (ls : List LineRecord) (rest : List Byte),
    bodyFills width pb height 0 ls = true →
      parseBody width pb height (encodeBody ls ++ rest) = some (ls, rest)

/-- The converse: what parses is a page's line records followed by the rest. -/
def Obligations.ParsedBodyIsEncoded : Prop :=
  ∀ (width pb height : Nat) (bs : List Byte) (ls : List LineRecord) (rest : List Byte),
    parseBody width pb height bs = some (ls, rest) →
      bodyFills width pb height 0 ls = true ∧ encodeBody ls ++ rest = bs

/-- R90: the length of a run record on the wire, from its head, `PIXEL_BYTES` and the position. -/
def Obligations.RunRecordLength : Prop :=
  ∀ (width pb p : Nat) (r : RunRecord), r.fits width pb p = true →
    r.encode.length = match r with
      | .rep _ _ => 1 + pb
      | .lit m _ => 1 + min (129 - m.toNat) (width - p) * pb
      | .blank => 1

/-! ## Reset and START (70_reset_and_hazards.md, 40_decode_session.md) -/

/-- R34, R190 (decision D15): what reset gives, whatever the build-time parameters (R11); a host act applies it at any moment.
That it empties the buffer's contents and leaves the stream, the sink's lines and the host's acts alone is the model's choice
(log 2, log 12), and so are the parameters of `State.reset` (log 3). -/
def Obligations.HardwareResetState : Prop :=
  (∀ b : Config.Build, (State.resetOf b).build = b ∧ (State.resetOf b).phase = .idle ∧ (State.resetOf b).currentLine = 0 ∧
    (State.resetOf b).errorsAre .none .none 0 0 ∧ (State.resetOf b).linebuf = []) ∧
  (∃ b : Config.Build, 1 ≤ b.lineBufBytes ∧ State.reset = State.resetOf b) ∧
  ∀ (s : State) (rest : List HostAct), s.host = .reset :: rest →
    ∃ t, step s = .next t ∧ t.phase = .idle ∧ t.currentLine = 0 ∧ t.errorsAre .none .none 0 0 ∧
      (∀ a, t.bufRead a = none) ∧ t.build = s.build ∧ t.stream = s.stream ∧ t.cursor = s.cursor ∧
      t.host = rest ∧ t.earlier ++ t.trace = s.earlier ++ s.trace

/-- R101 (decisions D11, D18): START in `IDLE` or a terminal phase, with a legal configuration, latches it, clears
`current_line` and the error registers, and changes no other register and no byte of the buffer. That it brings the page's
stream and a new sink is the model's reading of R30 and R100 (log 5, log 13). -/
def Obligations.StartOpensSession : Prop :=
  ∀ (s : State) (c : Page) (rest : List HostAct), s.host = .start c :: rest →
    (s.phase = .idle ∨ s.phase = .done ∨ s.phase = .failed ∨ s.phase = .endedShort) →
    1 ≤ c.width.toNat → 1 ≤ c.height.toNat → 8 ≤ c.bitsPerPixel.toNat → c.bitsPerPixel.toNat % 8 = 0 →
    c.width.toNat * (c.bitsPerPixel.toNat / 8) ≤ s.build.lineBufBytes →
    step s = .next { s with
      width := c.width, height := c.height, bpp := c.bitsPerPixel, currentLine := 0,
      errKind := .none, errWhere := .none, errRow := 0, errCol := 0, phase := .lineHeader,
      stream := c.stream, cursor := 0, earlier := s.earlier ++ s.trace, trace := [], host := rest }

/-- R176 (decisions D11, D18): START while busy, and START with a configuration outside the input constraints, are
refused. -/
def Obligations.StartRefused : Prop :=
  ∀ (s : State) (c : Page) (rest : List HostAct), s.host = .start c :: rest →
    (s.phase.busy = true → step s = .refused .startWhileBusy) ∧
    (s.phase.busy = false →
      (c.width = 0 ∨ c.height = 0 ∨ c.bitsPerPixel.toNat < 8 ∨ c.bitsPerPixel.toNat % 8 ≠ 0 ∨
        s.build.lineBufBytes < c.width.toNat * (c.bitsPerPixel.toNat / 8)) →
      step s = .refused .illegalConfiguration)

/-! ## LINE (41_line_record.md) -/

/-- R110 (row T1): `LINE` loads `line_repeat` and clears `pos`, and that is all it does. -/
def Obligations.LineBeginsLineRecord : Prop :=
  ∀ (s : State) (r : BitVec 8), s.phase = .lineHeader →
    ∃ t, exec (.line r) s = .next t ∧ t.lineRepeat.toNat = r.toNat + 1 ∧ t.pos = 0 ∧ t.phase = .runHeader ∧
      t = { s with lineRepeat := t.lineRepeat, pos := 0, phase := .runHeader }

/-- R111 (decision D6; rows T2, T3): end of stream where a repeat byte is due, under both policies; nothing is read, stored
or emitted. -/
def Obligations.EndOfStreamAtLineBoundary : Prop :=
  ∀ s : State, s.host = [] → s.phase = .lineHeader → s.stream[s.cursor]? = none →
    (s.build.eofAtLineBoundaryIsError = true →
      step s = .next { s with
        errKind := .truncatedStream, errWhere := .repeatByte, errRow := s.currentLine, errCol := 0, phase := .failed }) ∧
    (s.build.eofAtLineBoundaryIsError = false →
      step s = .next { s with
        errKind := .none, errWhere := .repeatByte, errRow := s.currentLine, errCol := 0, phase := .endedShort })

/-! ## The control byte (42_pixel_runs.md) -/

/-- R120: in `RUN_HEADER` the control byte is consumed, kept in `code`, and its signed value picks the record and the record's
field; the dispatch never fails: where the line is open and fits the buffer (R33, R59) there is always a next state. At end of
stream the session ends in `TruncatedStream(current_line, pos, CONTROL_BYTE)`. -/
def Obligations.ControlByteDispatch : Prop :=
  ∀ s : State, s.host = [] → s.phase = .runHeader →
    (s.stream[s.cursor]? = none →
      step s = .next { s with
        errKind := .truncatedStream, errWhere := .controlByte, errRow := s.currentLine, errCol := s.pos,
        phase := .failed }) ∧
    (∀ b : Byte, s.stream[s.cursor]? = some b →
      (s8 b = -128 → step s = exec .blank { s with cursor := s.cursor + 1 }) ∧
      (0 ≤ s8 b → ∃ m : BitVec 7, (m.toNat : Int) = s8 b ∧ step s = exec (.rep m) { s with cursor := s.cursor + 1 }) ∧
      (-127 ≤ s8 b → s8 b ≤ -1 → ∃ m : BitVec 7, m ≠ 0 ∧ (m.toNat : Int) = 128 + s8 b ∧
        step s = exec (.lit m) { s with cursor := s.cursor + 1 }) ∧
      (∀ t, step s = .next t → t.code = b) ∧
      (s.pos.toNat < s.width.toNat → s.lineBytes ≤ s.build.lineBufBytes →
        ∃ t, step s = .next t ∧ t.code = b ∧ t.cursor = s.cursor + 1))

/-- Row T5 of R105 (decision D3): the head of a `REP` loads the run's registers and touches neither the buffer nor the
stream. -/
def Obligations.RepHeadLoadsRun : Prop :=
  ∀ (s : State) (m : BitVec 7), s.phase = .runHeader →
    ∃ t, exec (.rep m) s = .next t ∧ t.runLeft.toNat = m.toNat + 1 ∧ t.code = encodeHead (.rep m) ∧
      t = { s with code := t.code, runLeft := t.runLeft, pxIdx := 0, phase := .repFetch }

/-- Row T6 of R105 (decision D3): the head of a `LIT`. -/
def Obligations.LitHeadLoadsRun : Prop :=
  ∀ (s : State) (m : BitVec 7), m ≠ 0 → s.phase = .runHeader →
    ∃ t, exec (.lit m) s = .next t ∧ t.runLeft.toNat = 129 - m.toNat ∧ t.code = encodeHead (.lit m) ∧
      t = { s with code := t.code, runLeft := t.runLeft, pxIdx := 0, phase := .litFetch }

/-- Rows T8 and T10 of R105 (decisions D3, D13): a byte that is not the last of its pixel goes to `px` and to nowhere
else, in a `REP` and in a `LIT`. -/
def Obligations.PixelByteReceived : Prop :=
  ∀ (s : State) (m : BitVec 7) (b : Byte), s.stream[s.cursor]? = some b → s.pxIdx.toNat + 1 < s.pixelBytes →
    (s.phase = .repFetch → ∃ t, exec (.rep m) s = .next t ∧ t.px[s.pxIdx.toNat]? = some b ∧
      (∀ j : Nat, j ≠ s.pxIdx.toNat → t.px[j]? = s.px[j]?) ∧ t.pxIdx.toNat = s.pxIdx.toNat + 1 ∧
      t = { s with cursor := s.cursor + 1, px := t.px, pxIdx := t.pxIdx }) ∧
    (s.phase = .litFetch → m ≠ 0 → ∃ t, exec (.lit m) s = .next t ∧ t.px[s.pxIdx.toNat]? = some b ∧
      (∀ j : Nat, j ≠ s.pxIdx.toNat → t.px[j]? = s.px[j]?) ∧ t.pxIdx.toNat = s.pxIdx.toNat + 1 ∧
      t = { s with cursor := s.cursor + 1, px := t.px, pxIdx := t.pxIdx })

/-- R122, R124, R125 (row T9; the store's byte order is R52, decision D5): the last byte of a `REP`'s pixel. With `k` the
smaller of the run and the room left, positions `pos .. pos + k - 1` receive the pixel and every other byte of the buffer
is as before; the line is complete exactly if it is full. The second part is the frame. -/
def Obligations.RepStoresPixelCopies : Prop :=
  ∀ (s : State) (m : BitVec 7) (b : Byte), s.phase = .repFetch → s.stream[s.cursor]? = some b →
    s.pxIdx.toNat + 1 = s.pixelBytes → 0 < s.runLeft.toNat → s.pos.toNat < s.width.toNat →
    s.lineBytes ≤ s.build.lineBufBytes →
    ∃ t k, k = min s.runLeft.toNat (s.width.toNat - s.pos.toNat) ∧ exec (.rep m) s = .next t ∧
      (t.px[s.pxIdx.toNat]? = some b ∧ ∀ j : Nat, j ≠ s.pxIdx.toNat → t.px[j]? = s.px[j]?) ∧
      (∀ i j, i < k → j < s.pixelBytes → t.bufRead (s.byteAddress (s.pos.toNat + i) j) = t.px[j]?) ∧
      BufferSameOutside s t (s.pixelAddress s.pos.toNat) (s.pixelAddress (s.pos.toNat + k)) ∧
      t.pos.toNat = s.pos.toNat + k ∧ t.runLeft = 0 ∧
      (t.pos = s.width → t.phase = .emit ∧ t.emitLeft = s.lineRepeat) ∧
      (t.pos ≠ s.width → t.phase = .runHeader ∧ t.emitLeft = s.emitLeft) ∧
      t = { s with cursor := s.cursor + 1, px := t.px, linebuf := t.linebuf, pos := t.pos, runLeft := 0, phase := t.phase, emitLeft := t.emitLeft }

/-- R123, R124, R125 (row T11; decisions D5, D7): the last byte of a pixel of a `LIT`. Position `pos` receives the pixel and
every other byte of the buffer is as before; the line's end comes before the run's. The last part is the frame. -/
def Obligations.LitStoresPixel : Prop :=
  ∀ (s : State) (m : BitVec 7) (b : Byte), m ≠ 0 → s.phase = .litFetch → s.stream[s.cursor]? = some b →
    s.pxIdx.toNat + 1 = s.pixelBytes → 0 < s.runLeft.toNat → s.pos.toNat < s.width.toNat →
    s.lineBytes ≤ s.build.lineBufBytes →
    ∃ t, exec (.lit m) s = .next t ∧
      (t.px[s.pxIdx.toNat]? = some b ∧ ∀ j : Nat, j ≠ s.pxIdx.toNat → t.px[j]? = s.px[j]?) ∧
      (∀ j, j < s.pixelBytes → t.bufRead (s.byteAddress s.pos.toNat j) = t.px[j]?) ∧
      BufferSameOutside s t (s.pixelAddress s.pos.toNat) (s.pixelAddress (s.pos.toNat + 1)) ∧
      t.pos.toNat = s.pos.toNat + 1 ∧ t.runLeft.toNat + 1 = s.runLeft.toNat ∧ t.pxIdx = 0 ∧
      (t.pos = s.width → t.phase = .emit ∧ t.emitLeft = s.lineRepeat) ∧
      (t.pos ≠ s.width → t.runLeft = 0 → t.phase = .runHeader ∧ t.emitLeft = s.emitLeft) ∧
      (t.pos ≠ s.width → t.runLeft ≠ 0 → t.phase = .litFetch ∧ t.emitLeft = s.emitLeft) ∧
      t = { s with cursor := s.cursor + 1, px := t.px, pxIdx := 0, linebuf := t.linebuf, pos := t.pos, runLeft := t.runLeft, phase := t.phase, emitLeft := t.emitLeft }

/-- R121 (row T4; `BLANK_BYTE` is decision D4): the rest of the line is blank, everything before it as it was, the line
complete. The last part is the frame. -/
def Obligations.BlankFillsRestOfLine : Prop :=
  ∀ s : State, s.phase = .runHeader → s.pos.toNat < s.width.toNat → s.lineBytes ≤ s.build.lineBufBytes →
    ∃ t, exec .blank s = .next t ∧
      (∀ a, s.pixelAddress s.pos.toNat ≤ a → a < s.lineBytes → t.bufRead a = some s.build.blankByte) ∧
      BufferSameOutside s t (s.pixelAddress s.pos.toNat) s.lineBytes ∧
      t = { s with code := 0x80, pos := s.width, linebuf := t.linebuf, emitLeft := s.lineRepeat, phase := .emit }

/-- R89: `BLANK` is the single byte 0x80 with no payload, and the last run record of its line: its one step consumes that
byte and goes to emission. -/
def Obligations.BlankHasNoPayload : Prop :=
  encode .blank = [0x80] ∧
  ∀ s : State, s.host = [] → s.phase = .runHeader → s.stream[s.cursor]? = some 0x80 → s.pos.toNat < s.width.toNat →
    s.lineBytes ≤ s.build.lineBufBytes →
    ∃ t, step s = .next t ∧ t.cursor = s.cursor + 1 ∧ t.phase = .emit

/-- R128, R161 (decisions D12, D13; row T12): end of stream inside a pixel of a `REP` or a `LIT`: the error registers and
the phase, and nothing else; no byte of the unfinished pixel is in the buffer. -/
def Obligations.EndOfStreamInPixel : Prop :=
  ∀ (s : State) (m : BitVec 7), s.stream[s.cursor]? = none →
    (s.phase = .repFetch → exec (.rep m) s = .next { s with
      errKind := .truncatedStream, errWhere := .pixelPayload, errRow := s.currentLine, errCol := s.pos,
      phase := .failed }) ∧
    (s.phase = .litFetch → m ≠ 0 → exec (.lit m) s = .next { s with
      errKind := .truncatedStream, errWhere := .pixelPayload, errRow := s.currentLine, errCol := s.pos,
      phase := .failed })

/-- Where a record's meaning stops, in states that no run from START shows (R33). The stops are the model's choice: outside the
phases the record stands in and on the ill-formed `LIT` term (R81, R83; log 10); at a payload byte on registers that no row of
R105 covers (log 11); at a store outside the line or in a line longer than the buffer (R51, R59; log 2). -/
def Obligations.RecordStopsOutOfContext : Prop :=
  (∀ (s : State) (r : BitVec 8), s.phase ≠ .lineHeader → exec (.line r) s = .refused .outOfContext) ∧
  (∀ (s : State) (m : BitVec 7), s.phase ≠ .runHeader → s.phase ≠ .repFetch →
    exec (.rep m) s = .refused .outOfContext) ∧
  (∀ (s : State) (m : BitVec 7), m ≠ 0 → s.phase ≠ .runHeader → s.phase ≠ .litFetch →
    exec (.lit m) s = .refused .outOfContext) ∧
  (∀ s : State, exec (.lit 0) s = .refused .illFormed) ∧
  (∀ s : State, s.phase ≠ .runHeader → exec .blank s = .refused .outOfContext) ∧
  (∀ (s : State) (m : BitVec 7) (b : Byte), s.stream[s.cursor]? = some b →
    (s.pixelBytes ≤ s.pxIdx.toNat ∨
      s.pxIdx.toNat + 1 = s.pixelBytes ∧ (s.runLeft = 0 ∨ s.width.toNat ≤ s.pos.toNat)) →
    (s.phase = .repFetch → exec (.rep m) s = .fault .noTransition) ∧
    (s.phase = .litFetch → m ≠ 0 → exec (.lit m) s = .fault .noTransition)) ∧
  (∀ (s : State) (m : BitVec 7) (b : Byte), s.stream[s.cursor]? = some b → s.pxIdx.toNat + 1 = s.pixelBytes →
    0 < s.runLeft.toNat → s.pos.toNat < s.width.toNat → s.build.lineBufBytes < s.lineBytes →
    (s.phase = .repFetch → exec (.rep m) s = .fault .bufferOutOfRange) ∧
    (s.phase = .litFetch → m ≠ 0 → exec (.lit m) s = .fault .bufferOutOfRange)) ∧
  (∀ s : State, s.phase = .runHeader → s.width.toNat ≤ s.pos.toNat ∨ s.build.lineBufBytes < s.lineBytes →
    exec .blank s = .fault .bufferOutOfRange)

/-- R122, R86, whole: from `RUN_HEADER`, a `REP` consumes its control byte and exactly one pixel, whatever the run and the
room are, and stores `min(n, WIDTH - pos)` copies of it; a `REP` whose pixel the stream does not hold consumes what is there,
ends the session in `TruncatedStream(current_line, pos, PIXEL_PAYLOAD)` and stores nothing. -/
def Obligations.RepRecordWhole : Prop :=
  ∀ (s : State) (b : Byte), s.host = [] → s.phase = .runHeader → s.stream[s.cursor]? = some b → 0 ≤ s8 b →
    s.pos.toNat < s.width.toNat → s.lineBytes ≤ s.build.lineBufBytes → 1 ≤ s.pixelBytes →
    (s.cursor + 1 + s.pixelBytes ≤ s.stream.length →
      ∃ (t : State) (k : Nat), (k : Int) = min (s8 b + 1) (s.width.toNat - s.pos.toNat) ∧
        runSteps (1 + s.pixelBytes) s = .next t ∧ t.cursor = s.cursor + 1 + s.pixelBytes ∧
        (∀ j, j < s.pixelBytes → t.px[j]? = s.stream[s.cursor + 1 + j]?) ∧
        (∀ i j, i < k → j < s.pixelBytes →
          t.bufRead (s.byteAddress (s.pos.toNat + i) j) = s.stream[s.cursor + 1 + j]?) ∧
        BufferSameOutside s t (s.pixelAddress s.pos.toNat) (s.pixelAddress (s.pos.toNat + k)) ∧
        t.pos.toNat = s.pos.toNat + k ∧
        (t.pos = s.width → t.phase = .emit ∧ t.emitLeft = s.lineRepeat) ∧
        (t.pos ≠ s.width → t.phase = .runHeader) ∧ t.currentLine = s.currentLine ∧ t.trace = s.trace ∧
        t.errorsAre s.errKind s.errWhere s.errRow s.errCol) ∧
    (s.stream.length < s.cursor + 1 + s.pixelBytes →
      ∃ t, runSteps (1 + (s.stream.length - (s.cursor + 1)) + 1) s = .next t ∧ t.phase = .failed ∧
        t.errorsAre .truncatedStream .pixelPayload s.currentLine s.pos ∧ t.cursor = s.stream.length ∧
        t.linebuf = s.linebuf ∧ t.pos = s.pos ∧ t.currentLine = s.currentLine ∧ t.trace = s.trace)

/-- R123, R88, R124 (decisions D7, D12), whole: from `RUN_HEADER`, a `LIT` of `n` pixels reads and stores
`k = min(n, WIDTH - pos)` of them, and not one byte more; if the stream ends first, the whole pixels before the end are stored
and the session ends in `TruncatedStream` at the position of the pixel that could not be completed. -/
def Obligations.LitRecordWhole : Prop :=
  ∀ (s : State) (b : Byte) (k : Nat), s.host = [] → s.phase = .runHeader → s.stream[s.cursor]? = some b →
    -127 ≤ s8 b → s8 b ≤ -1 → (k : Int) = min (-s8 b + 1) (s.width.toNat - s.pos.toNat) →
    s.pos.toNat < s.width.toNat → s.lineBytes ≤ s.build.lineBufBytes → 1 ≤ s.pixelBytes →
    (s.cursor + 1 + k * s.pixelBytes ≤ s.stream.length →
      ∃ t, runSteps (1 + k * s.pixelBytes) s = .next t ∧ t.cursor = s.cursor + 1 + k * s.pixelBytes ∧
        (∀ i j, i < k → j < s.pixelBytes →
          t.bufRead (s.byteAddress (s.pos.toNat + i) j) = s.stream[s.cursor + 1 + i * s.pixelBytes + j]?) ∧
        BufferSameOutside s t (s.pixelAddress s.pos.toNat) (s.pixelAddress (s.pos.toNat + k)) ∧
        t.pos.toNat = s.pos.toNat + k ∧
        (t.pos = s.width → t.phase = .emit ∧ t.emitLeft = s.lineRepeat) ∧
        (t.pos ≠ s.width → t.phase = .runHeader) ∧ t.currentLine = s.currentLine ∧ t.trace = s.trace ∧
        t.errorsAre s.errKind s.errWhere s.errRow s.errCol) ∧
    (s.stream.length < s.cursor + 1 + k * s.pixelBytes →
      ∃ t q, q = (s.stream.length - (s.cursor + 1)) / s.pixelBytes ∧
        runSteps (1 + (s.stream.length - (s.cursor + 1)) + 1) s = .next t ∧
        (∀ i j, i < q → j < s.pixelBytes →
          t.bufRead (s.byteAddress (s.pos.toNat + i) j) = s.stream[s.cursor + 1 + i * s.pixelBytes + j]?) ∧
        BufferSameOutside s t (s.pixelAddress s.pos.toNat) (s.pixelAddress (s.pos.toNat + q)) ∧
        t.pos.toNat = s.pos.toNat + q ∧ t.phase = .failed ∧
        t.errorsAre .truncatedStream .pixelPayload s.currentLine t.pos ∧ t.cursor = s.stream.length ∧
        t.currentLine = s.currentLine ∧ t.trace = s.trace)

/-! ## EMIT (43_line_emit.md, 44_sink_interface.md) -/

/-- R140, R150, R154 (row T13; decision D8 for the page's end): one sink call hands over the line index and exactly the
bytes of the line; nothing is read from the stream and no byte of the buffer changes (R61 (c) to (e)). -/
def Obligations.EmissionHandsScanline : Prop :=
  ∀ s : State, s.host = [] → s.phase = .emit → 0 < s.emitLeft.toNat → s.currentLine.toNat < s.height.toNat →
    (∀ a, a < s.lineBytes → (s.bufRead a).isSome = true) →
    ∃ t bytes, step s = .next t ∧ bytes.length = s.lineBytes ∧ (∀ a, a < s.lineBytes → s.bufRead a = bytes[a]?) ∧
      t.currentLine.toNat = s.currentLine.toNat + 1 ∧ t.emitLeft.toNat + 1 = s.emitLeft.toNat ∧
      (t.currentLine = s.height → t.phase = .done) ∧
      (t.currentLine ≠ s.height → t.emitLeft = 0 → t.phase = .lineHeader) ∧
      (t.currentLine ≠ s.height → t.emitLeft ≠ 0 → t.phase = .emit) ∧
      t = { s with trace := s.trace ++ [⟨s.currentLine, bytes⟩], currentLine := t.currentLine, emitLeft := t.emitLeft, phase := t.phase }

/-- R140 to R142 (decision D8), whole: from a completed line, `min(emit_left, HEIGHT - current_line)` calls with the same
bytes and consecutive indices, then `DONE` exactly at the page's end, the buffer and the cursor as they were. -/
def Obligations.LineEmittedRepeatedly : Prop :=
  ∀ (s : State) (k : Nat), Inv s → s.host = [] → s.phase = .emit →
    k = min s.emitLeft.toNat (s.height.toNat - s.currentLine.toNat) →
    ∃ t bytes, runSteps k s = .next t ∧ (∀ a, a < s.lineBytes → s.bufRead a = bytes[a]?) ∧
      bytes.length = s.lineBytes ∧
      t.trace = s.trace ++ (List.range k).map (fun i => ⟨BitVec.ofNat 32 (s.currentLine.toNat + i), bytes⟩) ∧
      t.currentLine.toNat = s.currentLine.toNat + k ∧ t.linebuf = s.linebuf ∧ t.cursor = s.cursor ∧
      t.phase = if t.currentLine = s.height then .done else .lineHeader

/-! ## The step -/

/-- A step in a head's phase runs the record the byte at the cursor decodes to, that byte consumed. -/
def Obligations.StepRunsDecodedHead : Prop :=
  ∀ (s : State) (c : Context) (i : Instr) (rest : List Byte), s.host = [] →
    (c = .lineHeader ∧ s.phase = .lineHeader ∨ c = .runHeader ∧ s.phase = .runHeader) →
    decode c s.ahead = .ok (i, rest) → step s = exec i { s with cursor := s.cursor + 1 }

/-- A step in a payload's phase runs the record under way (rows T8 to T12 of R105). That the meaning of a record spans several
steps, and that it runs there whatever field its head had, is the model's choice (log 17). -/
def Obligations.StepRunsRecordUnderWay : Prop :=
  ∀ (s : State) (m : BitVec 7), s.host = [] →
    (s.phase = .repFetch → step s = exec (.rep m) s) ∧
    (s.phase = .litFetch → m ≠ 0 → step s = exec (.lit m) s)

/-- The host's acts (the model's own, log 4): `serve` lets one transaction pass, `await` lets them pass while the block is
busy, and a host with no act pending keeps serving. -/
def Obligations.HostServesBlock : Prop :=
  ∀ (s : State) (rest : List HostAct),
    (s.host = [] → step s = transaction s) ∧
    (s.host = .serve :: rest → step s = transaction { s with host := rest }) ∧
    (s.host = .await :: rest → s.phase.busy = true → step s = transaction s) ∧
    (s.host = .await :: rest → s.phase.busy = false → step s = step { s with host := rest })

/-- `IDLE` and the terminal phases have no event but START (R105); the block waits there, all its state kept (the model's
choice of a waiting step, log 6). -/
def Obligations.BlockWaitsForStart : Prop :=
  ∀ s : State, s.host = [] →
    (s.phase = .idle ∨ s.phase = .done ∨ s.phase = .failed ∨ s.phase = .endedShort) → step s = .next s

/-- What no record changes: the configuration, the parameters, `current_line`, the stream, the sink's lines, the host
(R21, R22, R64). -/
def Obligations.RecordFrame : Prop :=
  ∀ (i : Instr) (s t : State), exec i s = .next t →
    t.build = s.build ∧ t.width = s.width ∧ t.height = s.height ∧ t.bpp = s.bpp ∧ t.currentLine = s.currentLine ∧
    t.stream = s.stream ∧ t.trace = s.trace ∧ t.earlier = s.earlier ∧ t.host = s.host

/-- R21, R64 (decision D9 for the widths): no transaction changes the latched configuration, the parameters or the
stream's content. -/
def Obligations.ConfigurationIsImmutable : Prop :=
  ∀ s t : State, transaction s = .next t →
    t.build = s.build ∧ t.width = s.width ∧ t.height = s.height ∧ t.bpp = s.bpp ∧ t.stream = s.stream ∧
    t.earlier = s.earlier ∧ t.host = s.host

/-- R30: the cursor is 0 after START, advances by exactly one when a byte is read and by nothing else, is never moved
back, and stays at the end of the stream. -/
def Obligations.CursorCountsBytesRead : Prop :=
  (∀ (c : Page) (s t : State), start c s = .next t → t.cursor = 0) ∧
  ∀ s t : State, transaction s = .next t →
    (t.cursor = s.cursor + 1 ∧ s.cursor < s.stream.length ∧
      (s.phase = .lineHeader ∨ s.phase = .runHeader ∨ s.phase = .repFetch ∨ s.phase = .litFetch)) ∨
    (t.cursor = s.cursor ∧
      (s.stream.length ≤ s.cursor ∨ s.phase = .idle ∨ s.phase = .emit ∨ s.phase = .done ∨ s.phase = .failed ∨
        s.phase = .endedShort))

/-- R22, R150: only a sink call counts a line, its own; every other transaction leaves `current_line` and the lines
delivered alone. -/
def Obligations.CurrentLineCountsSinkCalls : Prop :=
  ∀ s t : State, transaction s = .next t →
    (s.phase = .emit ∧ t.currentLine.toNat = s.currentLine.toNat + 1 ∧
      ∃ bytes, bytes.length = s.lineBytes ∧ t.trace = s.trace ++ [⟨s.currentLine, bytes⟩]) ∨
    (s.phase ≠ .emit ∧ t.currentLine = s.currentLine ∧ t.trace = s.trace)

/-- R166: no step takes back a line delivered, in this session or an earlier one; a step into `FAILED` delivers nothing; and
a step that delivers is one in `EMIT`, under the invariants with the line complete: an unfinished line is never handed over. -/
def Obligations.DeliveredLinesStay : Prop :=
  ∀ s t : State, step s = .next t →
    (s.earlier ++ s.trace) <+: (t.earlier ++ t.trace) ∧
    (t.phase = .failed → t.earlier ++ t.trace = s.earlier ++ s.trace) ∧
    (t.earlier ++ t.trace ≠ s.earlier ++ s.trace → s.phase = .emit ∧ (Inv s → s.pos = s.width))

/-- R105 (decision D3): the phases change along the table's edges only. -/
def Obligations.PhaseFollowsTable : Prop :=
  ∀ s t : State, transaction s = .next t → s.phase.edge t.phase = true

/-- R161, R165 (decision D12): an error is taken exactly where a read met the end of the stream, reports where, and changes
the error registers and the phase and nothing else. -/
def Obligations.FailureIsPrecise : Prop :=
  ∀ s t : State, transaction s = .next t → s.phase ≠ .failed → t.phase = .failed →
    s.stream[s.cursor]? = none ∧
    t = { s with
      errKind := .truncatedStream, errWhere := t.errWhere, errRow := s.currentLine, errCol := t.errCol,
      phase := .failed } ∧
    (s.phase = .lineHeader ∧ t.errWhere = .repeatByte ∧ t.errCol = 0 ∨
      s.phase = .runHeader ∧ t.errWhere = .controlByte ∧ t.errCol = s.pos ∨
      (s.phase = .repFetch ∨ s.phase = .litFetch) ∧ t.errWhere = .pixelPayload ∧ t.errCol = s.pos)

/-- R167: nothing is retried and no failed session goes on: out of `FAILED` leads only a START that the host issues, on the
stream the host brings with it, or a hardware reset that the host applies; every other step leaves the block as it is and at
most takes acts from the host's list. R167 names START alone; that reset leaves `FAILED` too is decision D15 (what it leaves:
log 12), that START brings a stream is log 5, and that the host's `await` passes at once in `FAILED` is log 4. -/
def Obligations.FailedSessionIsOver : Prop :=
  ∀ s t : State, step s = .next t → s.phase = .failed →
    (∃ (n : Nat) (c : Page) (rest : List HostAct), s.host = List.replicate n .await ++ .start c :: rest ∧
      t.host = rest ∧ t.phase = .lineHeader ∧ t.stream = c.stream ∧ t.cursor = 0 ∧ t.currentLine = 0 ∧
      t.errorsAre .none .none 0 0) ∨
    (∃ (n : Nat) (rest : List HostAct), s.host = List.replicate n .await ++ .reset :: rest ∧
      t.host = rest ∧ t.phase = .idle ∧ t.currentLine = 0 ∧ t.errorsAre .none .none 0 0) ∨
    (t = { s with host := t.host } ∧ t.host <:+ s.host)

/-! ## The buffer (20_memory.md) -/

/-- The buffer's contents keep their canonical form, from every state. The form, written bytes by rising address and no value
for the rest, is the model's own (log 2). -/
def Obligations.BufferStaysCanonical : Prop :=
  ∀ s t : State, step s = .next t → Memory.wf s.linebuf → Memory.wf t.linebuf

/-- R59: no transaction changes a byte at or above `LINE_BYTES`, from every state. -/
def Obligations.WritesStayInLine : Prop :=
  ∀ s t : State, transaction s = .next t → ∀ a, s.lineBytes ≤ a → t.bufRead a = s.bufRead a

/-- R61 (b) to (e), R142 (decision D21): only a step of `REP`, `LIT` or `BLANK` changes the buffer, never one that emits. -/
def Obligations.OnlyRunsWriteBuffer : Prop :=
  ∀ s t : State, transaction s = .next t → t.linebuf ≠ s.linebuf →
    s.phase = .runHeader ∧ t.phase = .emit ∨ s.phase = .repFetch ∨ s.phase = .litFetch

/-! ## The machine as a whole -/

/-- The invariants of R33 hold after reset, for every choice of the build-time parameters that R11 admits, and so for the
model's own choice of them in `State.reset` (log 3). The zeros of the registers R34 leaves unwritten are the model's (log 1). -/
def Obligations.ResetMeetsInvariants : Prop :=
  (∀ b : Config.Build, 1 ≤ b.lineBufBytes → Inv (State.resetOf b)) ∧ Inv State.reset

/-- R33: every step, from every state that meets the invariants, keeps them: transactions, START and reset alike. -/
def Obligations.StepKeepsInvariants : Prop := ∀ s t : State, Inv s → step s = .next t → Inv t

/-- R59, R66, R33: under the invariants no step faults, and only a START can be refused: the block never runs out of rules,
out of the line, or into a byte that was not written. Those are the states on which the model chose to stop (log 2, log 10,
log 11). -/
def Obligations.NoStepFaults : Prop :=
  ∀ s : State, Inv s →
    (∀ f, step s ≠ .fault f) ∧
    (∀ x, step s = .refused x →
      (x = .startWhileBusy ∨ x = .illegalConfiguration) ∧ ∃ c, HostAct.start c ∈ s.host)

/-- R143, R151 (decisions D7, D8): a session that reaches `DONE` has made exactly `HEIGHT` calls, the `i`-th with index `i`
and `LINE_BYTES` bytes; at every moment before, fewer, in the same order. -/
def Obligations.DoneMeansWholePage : Prop :=
  ∀ (c : Page) (s s1 t : State) (k : Nat), Inv s → s.host = [] → start c s = .next s1 → runSteps k s1 = .next t →
    (∀ i, i < t.trace.length → ∃ bytes, t.trace[i]? = some ⟨BitVec.ofNat 32 i, bytes⟩ ∧ t.image i = some bytes ∧
      bytes.length = c.width.toNat * (c.bitsPerPixel.toNat / 8)) ∧
    t.linesCompleted.toNat = t.trace.length ∧
    (t.phase = .done → t.trace.length = c.height.toNat) ∧
    (t.phase ≠ .done → t.trace.length < c.height.toNat)

/-- R104, R161, R162 (decisions D6, D12, D20): what a terminal phase reports: the source's result, `lines_completed`, the error
registers and, in the two early ends, the cursor at the end of the stream (for `DONE` that is `SessionReadsTheParsedPage`). In
`FAILED` the result is the error with `err_row` and `err_col`; the row is the count of lines completed, and the column is `pos`,
but 0 at a repeat byte. -/
def Obligations.ReportOfTerminalPhase : Prop :=
  ∀ s : State, Inv s →
    (s.phase = .done → s.result = some .ok ∧ s.linesCompleted = s.height ∧ s.errorsAre .none .none 0 0) ∧
    (s.phase = .failed → s.result = some (.truncatedStream s.errRow s.errCol) ∧ s.errKind = .truncatedStream ∧
      s.errRow = s.linesCompleted ∧
      (s.errWhere = .repeatByte ∧ s.errCol = 0 ∨
        (s.errWhere = .controlByte ∨ s.errWhere = .pixelPayload) ∧ s.errCol = s.pos ∧ s.pos.toNat < s.width.toNat) ∧
      s.linesCompleted.toNat < s.height.toNat ∧ s.cursor = s.stream.length) ∧
    (s.phase = .endedShort → s.result = some .ok ∧ s.errorsAre .none .repeatByte s.linesCompleted 0 ∧
      s.linesCompleted.toNat < s.height.toNat ∧ s.cursor = s.stream.length) ∧
    (s.result = none ↔ s.status = .busy ∨ s.status = .idle)

/-- R103, R197: once a session is under way and the host serves it, it ends, after at most one read for each byte left
and one more, and one sink call for each line left. It rests on the two fairness premises of R197, which the model builds in
(log 7, DEDUCED, unsafe for this statement): every `StreamRead` is answered with `Byte` or `Eof`, and every `SinkAccept`
returns; a step that waits for either does not exist here. -/
def Obligations.SessionEndsInTime : Prop :=
  ∀ s : State, Inv s → s.host = [] → s.phase.busy = true →
    ∃ k t, k ≤ (s.ahead.length + 1) + (s.height.toNat - s.currentLine.toNat) ∧
      runSteps k s = .next t ∧ t.phase.busy = false

/-- R106: the step machine and the big-step form R102 agree: from the state START leaves, the steps reach the state in which
`DecodePage` ends, in every field but the two loop counters that R102 has no registers for. That the steps get there rests on
the premises of R197 (log 7). -/
def Obligations.StepsAgreeWithDecodePage : Prop :=
  ∀ s : State, Inv s → s.host = [] → s.phase = .lineHeader →
    ∃ k t u, runSteps k s = .next t ∧ decodePage s = .ended u ∧ t.phase.busy = false ∧
      { t with runLeft := u.runLeft, pxIdx := u.pxIdx } = u

/-- R80, R90, R91, R104: a session whose stream begins with a page's line records reaches `DONE` with the cursor just after
them; any other stream is too short, and its session reads it to the end and ends early. That the session gets there rests on
the premises of R197 (log 7). -/
def Obligations.SessionReadsTheParsedPage : Prop :=
  ∀ s : State, Inv s → s.host = [] → s.phase = .lineHeader → s.currentLine = 0 →
    match parseBody s.width.toNat s.pixelBytes s.height.toNat s.ahead with
    | some (_, rest) => ∃ k t, runSteps k s = .next t ∧ t.phase = .done ∧ t.ahead = rest
    | none => ∃ k t, runSteps k s = .next t ∧ (t.phase = .failed ∨ t.phase = .endedShort) ∧ t.ahead = []

/-- R80 to R90, R52, R121 to R125, R140, R141, R151, R155, together (decisions D4, D5, D7, D8): the session over the wire form
of a page's line records delivers exactly the rows those records stand for, in order, and stops reading just after them. That
the session gets there rests on the premises of R197 (log 7). -/
def Obligations.SessionRendersThePage : Prop :=
  ∀ (s : State) (ls : List LineRecord) (rest : List Byte), Inv s → s.host = [] → s.phase = .lineHeader →
    s.currentLine = 0 → bodyFills s.width.toNat s.pixelBytes s.height.toNat 0 ls = true →
    s.ahead = encodeBody ls ++ rest →
    ∃ k t, runSteps k s = .next t ∧ t.phase = .done ∧ t.ahead = rest ∧
      t.trace.map Emission.bytes = renderBody s.build s.width.toNat s.pixelBytes s.height.toNat ls

/-- R33 item 6, R66: no step reads a register in a phase in which it is not live, a byte of `px` that has not arrived, or a
byte of the buffer the line record has not written: states that agree on the rest answer alike. -/
def Obligations.StepReadsLiveStateOnly : Prop :=
  ∀ s t : State, Inv s → Inv t → AgreeOnLive s t → AnswersAgree (step s) (step t)

/-- R191: START clears `current_line` and the error registers, and nothing of a previous session influences the next: the
same START in two states of the same machine leads to the same phases, lines, cursor and error reports for ever. -/
def Obligations.SessionsAreIndependent : Prop :=
  ∀ (c : Page) (s1 s2 t1 t2 u1 : State) (k : Nat), Inv s1 → Inv s2 → s1.build = s2.build →
    s1.host = [] → s2.host = [] → start c s1 = .next t1 → start c s2 = .next t2 → runSteps k t1 = .next u1 →
    (t1.currentLine = 0 ∧ t1.errorsAre .none .none 0 0) ∧
    ∃ u2, runSteps k t2 = .next u2 ∧ u1.phase = u2.phase ∧ u1.trace = u2.trace ∧
      u1.currentLine = u2.currentLine ∧ u1.cursor = u2.cursor ∧
      u2.errorsAre u1.errKind u1.errWhere u1.errRow u1.errCol

/-- R155, R162: the end-of-stream policy classifies the early end and does nothing else: until then two machines that
differ in it alone do the same, and at it they differ in the phase and the error kind alone. -/
def Obligations.PolicyOnlyClassifies : Prop :=
  ∀ (s t : State) (p : Bool), transaction s = .next t →
    ∃ u, transaction { s with build := { s.build with eofAtLineBoundaryIsError := p } } = .next u ∧
      u = { t with build := { t.build with eofAtLineBoundaryIsError := p }, phase := u.phase, errKind := u.errKind } ∧
      ((s.phase = .lineHeader ∧ s.stream[s.cursor]? = none) ∨ (u.phase = t.phase ∧ u.errKind = t.errKind))
end

