-- ==== Sys2Proof/Laws/Memory.lean ====
section
/-! SUPPORT. The laws of the scanline buffer's contents (20_memory.md R51): every operation keeps the canonical form, a read
after a write gives the value written, and a write leaves every other address alone. -/

namespace Sys2Proof.Machine

@[simp] theorem Memory.read_nil (a : Nat) : Memory.read [] a = none := rfl

theorem Memory.wf_nil : Memory.wf [] := List.Pairwise.nil

theorem Memory.mem_write {m : Memory} {a : Nat} {v : Byte} {c : Host.Cell} (h : c ∈ Memory.write m a v) :
    c = (a, v) ∨ c ∈ m := by
  induction m with
  | nil => simp [Memory.write] at h; exact .inl h
  | cons x m ih =>
    obtain ⟨b, w⟩ := x
    simp only [Memory.write] at h
    split at h
    · simpa using h
    · split at h
      · simp only [List.mem_cons] at h ⊢; tauto
      · simp only [List.mem_cons] at h ⊢
        rcases h with h | h
        · exact .inr (.inl h)
        · exact (ih h).imp_right .inr

theorem Memory.write_wf {m : Memory} (h : Memory.wf m) (a : Nat) (v : Byte) : Memory.wf (Memory.write m a v) := by
  induction m with
  | nil => simp [Memory.write, Memory.wf]
  | cons x m ih =>
    obtain ⟨b, w⟩ := x
    obtain ⟨hb, hm⟩ := List.pairwise_cons.mp h
    simp only [Memory.write]
    split
    · rename_i hlt
      refine List.pairwise_cons.mpr ⟨?_, h⟩
      intro c hc
      rcases List.mem_cons.mp hc with rfl | hc
      · exact hlt
      · exact lt_trans hlt (hb c hc)
    · split
      · rename_i heq
        subst heq
        exact List.pairwise_cons.mpr ⟨hb, hm⟩
      · refine List.pairwise_cons.mpr ⟨?_, ih hm⟩
        intro c hc
        rcases Memory.mem_write hc with rfl | hc
        · simp only; omega
        · exact hb c hc

/-- Read after write, the same address or another (R51). It holds of a buffer in any form. -/
theorem Memory.read_write (m : Memory) (a b : Nat) (v : Byte) :
    Memory.read (Memory.write m a v) b = if a = b then some v else Memory.read m b := by
  induction m with
  | nil => simp [Memory.write, Memory.read]
  | cons x m ih =>
    obtain ⟨c, w⟩ := x
    simp only [Memory.write]
    split
    · simp only [Memory.read]
    · split
      · rename_i h1 h2
        subst h2
        simp only [Memory.read]
        split <;> simp_all
      · rename_i h1 h2
        simp only [Memory.read, ih]
        by_cases hcb : c = b
        · subst hcb; simp [h2]
        · simp [hcb]

theorem Memory.writeBytes_wf {m : Memory} (h : Memory.wf m) (a : Nat) (bs : List Byte) :
    Memory.wf (Memory.writeBytes m a bs) := by
  induction bs generalizing m a with
  | nil => exact h
  | cons b bs ih => exact ih (Memory.write_wf h a b) (a + 1)

theorem Memory.fill_wf {m : Memory} (h : Memory.wf m) (v : Byte) (a n : Nat) : Memory.wf (Memory.fill v m a n) := by
  induction n generalizing m a with
  | zero => exact h
  | succ n ih => exact ih (Memory.write_wf h a v) (a + 1)

/-- What every address reads after consecutive writes. -/
theorem Memory.read_writeBytes (m : Memory) (a : Nat) (bs : List Byte) (b : Nat) :
    Memory.read (Memory.writeBytes m a bs) b
      = if a ≤ b ∧ b < a + bs.length then bs[b - a]? else Memory.read m b := by
  induction bs generalizing m a with
  | nil =>
    have h : ¬ (a ≤ b ∧ b < a + ([] : List Byte).length) := by simp
    rw [if_neg h]; rfl
  | cons x bs ih =>
    simp only [Memory.writeBytes, ih, Memory.read_write, List.length_cons]
    by_cases hab : a = b
    · subst hab; simp
    · by_cases h : a + 1 ≤ b ∧ b < a + 1 + bs.length
      · have h2 : a ≤ b ∧ b < a + (bs.length + 1) := by omega
        have h3 : b - a = (b - (a + 1)) + 1 := by omega
        rw [if_pos h, if_pos h2, h3, List.getElem?_cons_succ]
      · have h2 : ¬ (a ≤ b ∧ b < a + (bs.length + 1)) := by omega
        rw [if_neg h, if_neg h2, if_neg hab]

/-- What every address reads after a fill. -/
theorem Memory.read_fill (v : Byte) (m : Memory) (a n b : Nat) :
    Memory.read (Memory.fill v m a n) b = if a ≤ b ∧ b < a + n then some v else Memory.read m b := by
  induction n generalizing m a with
  | zero =>
    have h : ¬ (a ≤ b ∧ b < a + 0) := by omega
    rw [if_neg h]; rfl
  | succ n ih =>
    simp only [Memory.fill, ih, Memory.read_write]
    by_cases hab : a = b
    · subst hab; simp
    · by_cases h : a + 1 ≤ b ∧ b < a + 1 + n
      · have h2 : a ≤ b ∧ b < a + (n + 1) := by omega
        simp [h, h2]
      · have h2 : ¬ (a ≤ b ∧ b < a + (n + 1)) := by omega
        rw [if_neg h, if_neg h2, if_neg hab]

/-- A block read succeeds exactly when every byte of the block was written. -/
theorem Memory.readBytes_isSome (m : Memory) (a n : Nat) :
    (Memory.readBytes m a n).isSome = true ↔ ∀ i, i < n → (Memory.read m (a + i)).isSome = true := by
  induction n generalizing a with
  | zero => simp [Memory.readBytes]
  | succ n ih =>
    have step : (Memory.readBytes m a (n + 1)).isSome = true
        ↔ (Memory.read m a).isSome = true ∧ (Memory.readBytes m (a + 1) n).isSome = true := by
      simp only [Memory.readBytes]
      cases Memory.read m a <;> cases Memory.readBytes m (a + 1) n <;> simp
    rw [step, ih]
    constructor
    · rintro ⟨h0, h⟩ i hi
      cases i with
      | zero => exact h0
      | succ i => have := h i (by omega); rwa [show a + (i + 1) = a + 1 + i by omega]
    · intro h
      refine ⟨h 0 (by omega), fun i hi => ?_⟩
      have := h (i + 1) (by omega)
      rwa [show a + 1 + i = a + (i + 1) by omega]

/-- The bytes of a block read are the bytes of the block. -/
theorem Memory.readBytes_spec {m : Memory} {a n : Nat} {bs : List Byte} (h : Memory.readBytes m a n = some bs) :
    bs.length = n ∧ ∀ i, i < n → Memory.read m (a + i) = bs[i]? := by
  induction n generalizing a bs with
  | zero =>
    obtain rfl : bs = [] := by simpa [Memory.readBytes] using h.symm
    simp
  | succ n ih =>
    simp only [Memory.readBytes] at h
    cases hr : Memory.read m a with
    | none => simp [hr] at h
    | some b =>
      cases hrest : Memory.readBytes m (a + 1) n with
      | none => simp [hr, hrest] at h
      | some bs' =>
        obtain rfl : bs = b :: bs' := by simpa [hr, hrest] using h.symm
        obtain ⟨hl, hi⟩ := ih hrest
        refine ⟨by simp [hl], fun i hlt => ?_⟩
        cases i with
        | zero => simpa using hr
        | succ i =>
          rw [show a + (i + 1) = a + 1 + i by omega, hi i (by omega)]
          simp

/-- A block read depends on the block's bytes alone. -/
theorem Memory.readBytes_congr {m m' : Memory} {a n : Nat}
    (h : ∀ i, i < n → Memory.read m (a + i) = Memory.read m' (a + i)) :
    Memory.readBytes m a n = Memory.readBytes m' a n := by
  induction n generalizing a with
  | zero => rfl
  | succ n ih =>
    simp only [Memory.readBytes]
    have h0 := h 0 (by omega)
    rw [Nat.add_zero] at h0
    rw [h0, ih fun i hi => by have := h (i + 1) (by omega); rwa [show a + 1 + i = a + (i + 1) by omega]]

end Sys2Proof.Machine
end

