-- ==== Sys2Proof/Laws/State.lean ====
section
/-! SUPPORT. What each named update of the state does to each field: one lemma per field per update, by definition. -/

namespace Sys2Proof.Machine

variable (s : State)

/-! ## `raiseTruncated` -/

@[simp] theorem raiseTruncated_build (row col : BitVec 32) (at_ : ErrWhere) : (raiseTruncated row col at_ s).build = s.build := rfl
@[simp] theorem raiseTruncated_width (row col : BitVec 32) (at_ : ErrWhere) : (raiseTruncated row col at_ s).width = s.width := rfl
@[simp] theorem raiseTruncated_height (row col : BitVec 32) (at_ : ErrWhere) : (raiseTruncated row col at_ s).height = s.height := rfl
@[simp] theorem raiseTruncated_bpp (row col : BitVec 32) (at_ : ErrWhere) : (raiseTruncated row col at_ s).bpp = s.bpp := rfl
@[simp] theorem raiseTruncated_currentLine (row col : BitVec 32) (at_ : ErrWhere) : (raiseTruncated row col at_ s).currentLine = s.currentLine := rfl
@[simp] theorem raiseTruncated_pos (row col : BitVec 32) (at_ : ErrWhere) : (raiseTruncated row col at_ s).pos = s.pos := rfl
@[simp] theorem raiseTruncated_lineRepeat (row col : BitVec 32) (at_ : ErrWhere) : (raiseTruncated row col at_ s).lineRepeat = s.lineRepeat := rfl
@[simp] theorem raiseTruncated_emitLeft (row col : BitVec 32) (at_ : ErrWhere) : (raiseTruncated row col at_ s).emitLeft = s.emitLeft := rfl
@[simp] theorem raiseTruncated_code (row col : BitVec 32) (at_ : ErrWhere) : (raiseTruncated row col at_ s).code = s.code := rfl
@[simp] theorem raiseTruncated_runLeft (row col : BitVec 32) (at_ : ErrWhere) : (raiseTruncated row col at_ s).runLeft = s.runLeft := rfl
@[simp] theorem raiseTruncated_px (row col : BitVec 32) (at_ : ErrWhere) : (raiseTruncated row col at_ s).px = s.px := rfl
@[simp] theorem raiseTruncated_pxIdx (row col : BitVec 32) (at_ : ErrWhere) : (raiseTruncated row col at_ s).pxIdx = s.pxIdx := rfl
@[simp] theorem raiseTruncated_phase (row col : BitVec 32) (at_ : ErrWhere) : (raiseTruncated row col at_ s).phase = .failed := rfl
@[simp] theorem raiseTruncated_errKind (row col : BitVec 32) (at_ : ErrWhere) : (raiseTruncated row col at_ s).errKind = .truncatedStream := rfl
@[simp] theorem raiseTruncated_errWhere (row col : BitVec 32) (at_ : ErrWhere) : (raiseTruncated row col at_ s).errWhere = at_ := rfl
@[simp] theorem raiseTruncated_errRow (row col : BitVec 32) (at_ : ErrWhere) : (raiseTruncated row col at_ s).errRow = row := rfl
@[simp] theorem raiseTruncated_errCol (row col : BitVec 32) (at_ : ErrWhere) : (raiseTruncated row col at_ s).errCol = col := rfl
@[simp] theorem raiseTruncated_linebuf (row col : BitVec 32) (at_ : ErrWhere) : (raiseTruncated row col at_ s).linebuf = s.linebuf := rfl
@[simp] theorem raiseTruncated_stream (row col : BitVec 32) (at_ : ErrWhere) : (raiseTruncated row col at_ s).stream = s.stream := rfl
@[simp] theorem raiseTruncated_cursor (row col : BitVec 32) (at_ : ErrWhere) : (raiseTruncated row col at_ s).cursor = s.cursor := rfl
@[simp] theorem raiseTruncated_trace (row col : BitVec 32) (at_ : ErrWhere) : (raiseTruncated row col at_ s).trace = s.trace := rfl
@[simp] theorem raiseTruncated_earlier (row col : BitVec 32) (at_ : ErrWhere) : (raiseTruncated row col at_ s).earlier = s.earlier := rfl
@[simp] theorem raiseTruncated_host (row col : BitVec 32) (at_ : ErrWhere) : (raiseTruncated row col at_ s).host = s.host := rfl

/-! ## `endShort` -/

@[simp] theorem endShort_build : (endShort s).build = s.build := rfl
@[simp] theorem endShort_width : (endShort s).width = s.width := rfl
@[simp] theorem endShort_height : (endShort s).height = s.height := rfl
@[simp] theorem endShort_bpp : (endShort s).bpp = s.bpp := rfl
@[simp] theorem endShort_currentLine : (endShort s).currentLine = s.currentLine := rfl
@[simp] theorem endShort_pos : (endShort s).pos = s.pos := rfl
@[simp] theorem endShort_lineRepeat : (endShort s).lineRepeat = s.lineRepeat := rfl
@[simp] theorem endShort_emitLeft : (endShort s).emitLeft = s.emitLeft := rfl
@[simp] theorem endShort_code : (endShort s).code = s.code := rfl
@[simp] theorem endShort_runLeft : (endShort s).runLeft = s.runLeft := rfl
@[simp] theorem endShort_px : (endShort s).px = s.px := rfl
@[simp] theorem endShort_pxIdx : (endShort s).pxIdx = s.pxIdx := rfl
@[simp] theorem endShort_phase : (endShort s).phase = .endedShort := rfl
@[simp] theorem endShort_errKind : (endShort s).errKind = .none := rfl
@[simp] theorem endShort_errWhere : (endShort s).errWhere = .repeatByte := rfl
@[simp] theorem endShort_errRow : (endShort s).errRow = s.currentLine := rfl
@[simp] theorem endShort_errCol : (endShort s).errCol = 0 := rfl
@[simp] theorem endShort_linebuf : (endShort s).linebuf = s.linebuf := rfl
@[simp] theorem endShort_stream : (endShort s).stream = s.stream := rfl
@[simp] theorem endShort_cursor : (endShort s).cursor = s.cursor := rfl
@[simp] theorem endShort_trace : (endShort s).trace = s.trace := rfl
@[simp] theorem endShort_earlier : (endShort s).earlier = s.earlier := rfl
@[simp] theorem endShort_host : (endShort s).host = s.host := rfl

/-! ## `beginEmission` -/

@[simp] theorem beginEmission_build : (beginEmission s).build = s.build := rfl
@[simp] theorem beginEmission_width : (beginEmission s).width = s.width := rfl
@[simp] theorem beginEmission_height : (beginEmission s).height = s.height := rfl
@[simp] theorem beginEmission_bpp : (beginEmission s).bpp = s.bpp := rfl
@[simp] theorem beginEmission_currentLine : (beginEmission s).currentLine = s.currentLine := rfl
@[simp] theorem beginEmission_pos : (beginEmission s).pos = s.pos := rfl
@[simp] theorem beginEmission_lineRepeat : (beginEmission s).lineRepeat = s.lineRepeat := rfl
@[simp] theorem beginEmission_emitLeft : (beginEmission s).emitLeft = s.lineRepeat := rfl
@[simp] theorem beginEmission_code : (beginEmission s).code = s.code := rfl
@[simp] theorem beginEmission_runLeft : (beginEmission s).runLeft = s.runLeft := rfl
@[simp] theorem beginEmission_px : (beginEmission s).px = s.px := rfl
@[simp] theorem beginEmission_pxIdx : (beginEmission s).pxIdx = s.pxIdx := rfl
@[simp] theorem beginEmission_phase : (beginEmission s).phase = .emit := rfl
@[simp] theorem beginEmission_errKind : (beginEmission s).errKind = s.errKind := rfl
@[simp] theorem beginEmission_errWhere : (beginEmission s).errWhere = s.errWhere := rfl
@[simp] theorem beginEmission_errRow : (beginEmission s).errRow = s.errRow := rfl
@[simp] theorem beginEmission_errCol : (beginEmission s).errCol = s.errCol := rfl
@[simp] theorem beginEmission_linebuf : (beginEmission s).linebuf = s.linebuf := rfl
@[simp] theorem beginEmission_stream : (beginEmission s).stream = s.stream := rfl
@[simp] theorem beginEmission_cursor : (beginEmission s).cursor = s.cursor := rfl
@[simp] theorem beginEmission_trace : (beginEmission s).trace = s.trace := rfl
@[simp] theorem beginEmission_earlier : (beginEmission s).earlier = s.earlier := rfl
@[simp] theorem beginEmission_host : (beginEmission s).host = s.host := rfl

/-! ## `receivePixelByte` -/

@[simp] theorem receivePixelByte_build (b : Byte) : (receivePixelByte b s).build = s.build := rfl
@[simp] theorem receivePixelByte_width (b : Byte) : (receivePixelByte b s).width = s.width := rfl
@[simp] theorem receivePixelByte_height (b : Byte) : (receivePixelByte b s).height = s.height := rfl
@[simp] theorem receivePixelByte_bpp (b : Byte) : (receivePixelByte b s).bpp = s.bpp := rfl
@[simp] theorem receivePixelByte_currentLine (b : Byte) : (receivePixelByte b s).currentLine = s.currentLine := rfl
@[simp] theorem receivePixelByte_pos (b : Byte) : (receivePixelByte b s).pos = s.pos := rfl
@[simp] theorem receivePixelByte_lineRepeat (b : Byte) : (receivePixelByte b s).lineRepeat = s.lineRepeat := rfl
@[simp] theorem receivePixelByte_emitLeft (b : Byte) : (receivePixelByte b s).emitLeft = s.emitLeft := rfl
@[simp] theorem receivePixelByte_code (b : Byte) : (receivePixelByte b s).code = s.code := rfl
@[simp] theorem receivePixelByte_runLeft (b : Byte) : (receivePixelByte b s).runLeft = s.runLeft := rfl
@[simp] theorem receivePixelByte_px (b : Byte) : (receivePixelByte b s).px = s.px.setIfInBounds s.pxIdx.toNat b := rfl
@[simp] theorem receivePixelByte_pxIdx (b : Byte) : (receivePixelByte b s).pxIdx = s.pxIdx := rfl
@[simp] theorem receivePixelByte_phase (b : Byte) : (receivePixelByte b s).phase = s.phase := rfl
@[simp] theorem receivePixelByte_errKind (b : Byte) : (receivePixelByte b s).errKind = s.errKind := rfl
@[simp] theorem receivePixelByte_errWhere (b : Byte) : (receivePixelByte b s).errWhere = s.errWhere := rfl
@[simp] theorem receivePixelByte_errRow (b : Byte) : (receivePixelByte b s).errRow = s.errRow := rfl
@[simp] theorem receivePixelByte_errCol (b : Byte) : (receivePixelByte b s).errCol = s.errCol := rfl
@[simp] theorem receivePixelByte_linebuf (b : Byte) : (receivePixelByte b s).linebuf = s.linebuf := rfl
@[simp] theorem receivePixelByte_stream (b : Byte) : (receivePixelByte b s).stream = s.stream := rfl
@[simp] theorem receivePixelByte_cursor (b : Byte) : (receivePixelByte b s).cursor = s.cursor := rfl
@[simp] theorem receivePixelByte_trace (b : Byte) : (receivePixelByte b s).trace = s.trace := rfl
@[simp] theorem receivePixelByte_earlier (b : Byte) : (receivePixelByte b s).earlier = s.earlier := rfl
@[simp] theorem receivePixelByte_host (b : Byte) : (receivePixelByte b s).host = s.host := rfl

/-! ## `receiveMidPixel` -/

@[simp] theorem receiveMidPixel_build (b : Byte) : (receiveMidPixel b s).build = s.build := rfl
@[simp] theorem receiveMidPixel_width (b : Byte) : (receiveMidPixel b s).width = s.width := rfl
@[simp] theorem receiveMidPixel_height (b : Byte) : (receiveMidPixel b s).height = s.height := rfl
@[simp] theorem receiveMidPixel_bpp (b : Byte) : (receiveMidPixel b s).bpp = s.bpp := rfl
@[simp] theorem receiveMidPixel_currentLine (b : Byte) : (receiveMidPixel b s).currentLine = s.currentLine := rfl
@[simp] theorem receiveMidPixel_pos (b : Byte) : (receiveMidPixel b s).pos = s.pos := rfl
@[simp] theorem receiveMidPixel_lineRepeat (b : Byte) : (receiveMidPixel b s).lineRepeat = s.lineRepeat := rfl
@[simp] theorem receiveMidPixel_emitLeft (b : Byte) : (receiveMidPixel b s).emitLeft = s.emitLeft := rfl
@[simp] theorem receiveMidPixel_code (b : Byte) : (receiveMidPixel b s).code = s.code := rfl
@[simp] theorem receiveMidPixel_runLeft (b : Byte) : (receiveMidPixel b s).runLeft = s.runLeft := rfl
@[simp] theorem receiveMidPixel_px (b : Byte) : (receiveMidPixel b s).px = s.px.setIfInBounds s.pxIdx.toNat b := rfl
@[simp] theorem receiveMidPixel_pxIdx (b : Byte) : (receiveMidPixel b s).pxIdx = s.pxIdx + 1 := rfl
@[simp] theorem receiveMidPixel_phase (b : Byte) : (receiveMidPixel b s).phase = s.phase := rfl
@[simp] theorem receiveMidPixel_errKind (b : Byte) : (receiveMidPixel b s).errKind = s.errKind := rfl
@[simp] theorem receiveMidPixel_errWhere (b : Byte) : (receiveMidPixel b s).errWhere = s.errWhere := rfl
@[simp] theorem receiveMidPixel_errRow (b : Byte) : (receiveMidPixel b s).errRow = s.errRow := rfl
@[simp] theorem receiveMidPixel_errCol (b : Byte) : (receiveMidPixel b s).errCol = s.errCol := rfl
@[simp] theorem receiveMidPixel_linebuf (b : Byte) : (receiveMidPixel b s).linebuf = s.linebuf := rfl
@[simp] theorem receiveMidPixel_stream (b : Byte) : (receiveMidPixel b s).stream = s.stream := rfl
@[simp] theorem receiveMidPixel_cursor (b : Byte) : (receiveMidPixel b s).cursor = s.cursor := rfl
@[simp] theorem receiveMidPixel_trace (b : Byte) : (receiveMidPixel b s).trace = s.trace := rfl
@[simp] theorem receiveMidPixel_earlier (b : Byte) : (receiveMidPixel b s).earlier = s.earlier := rfl
@[simp] theorem receiveMidPixel_host (b : Byte) : (receiveMidPixel b s).host = s.host := rfl

/-! ## `State.resetOf` -/

@[simp] theorem State.resetOf_build (b : Config.Build) : (State.resetOf b).build = b := rfl
@[simp] theorem State.resetOf_width (b : Config.Build) : (State.resetOf b).width = 0 := rfl
@[simp] theorem State.resetOf_height (b : Config.Build) : (State.resetOf b).height = 0 := rfl
@[simp] theorem State.resetOf_bpp (b : Config.Build) : (State.resetOf b).bpp = 0 := rfl
@[simp] theorem State.resetOf_currentLine (b : Config.Build) : (State.resetOf b).currentLine = 0 := rfl
@[simp] theorem State.resetOf_pos (b : Config.Build) : (State.resetOf b).pos = 0 := rfl
@[simp] theorem State.resetOf_lineRepeat (b : Config.Build) : (State.resetOf b).lineRepeat = 0 := rfl
@[simp] theorem State.resetOf_emitLeft (b : Config.Build) : (State.resetOf b).emitLeft = 0 := rfl
@[simp] theorem State.resetOf_code (b : Config.Build) : (State.resetOf b).code = 0 := rfl
@[simp] theorem State.resetOf_runLeft (b : Config.Build) : (State.resetOf b).runLeft = 0 := rfl
@[simp] theorem State.resetOf_px (b : Config.Build) : (State.resetOf b).px = Vector.replicate 31 0 := rfl
@[simp] theorem State.resetOf_pxIdx (b : Config.Build) : (State.resetOf b).pxIdx = 0 := rfl
@[simp] theorem State.resetOf_phase (b : Config.Build) : (State.resetOf b).phase = .idle := rfl
@[simp] theorem State.resetOf_errKind (b : Config.Build) : (State.resetOf b).errKind = .none := rfl
@[simp] theorem State.resetOf_errWhere (b : Config.Build) : (State.resetOf b).errWhere = .none := rfl
@[simp] theorem State.resetOf_errRow (b : Config.Build) : (State.resetOf b).errRow = 0 := rfl
@[simp] theorem State.resetOf_errCol (b : Config.Build) : (State.resetOf b).errCol = 0 := rfl
@[simp] theorem State.resetOf_linebuf (b : Config.Build) : (State.resetOf b).linebuf = [] := rfl
@[simp] theorem State.resetOf_stream (b : Config.Build) : (State.resetOf b).stream = [] := rfl
@[simp] theorem State.resetOf_cursor (b : Config.Build) : (State.resetOf b).cursor = 0 := rfl
@[simp] theorem State.resetOf_trace (b : Config.Build) : (State.resetOf b).trace = [] := rfl
@[simp] theorem State.resetOf_earlier (b : Config.Build) : (State.resetOf b).earlier = [] := rfl
@[simp] theorem State.resetOf_host (b : Config.Build) : (State.resetOf b).host = [] := rfl

/-! ## `hardwareReset` -/

@[simp] theorem hardwareReset_build : (hardwareReset s).build = s.build := rfl
@[simp] theorem hardwareReset_width : (hardwareReset s).width = 0 := rfl
@[simp] theorem hardwareReset_height : (hardwareReset s).height = 0 := rfl
@[simp] theorem hardwareReset_bpp : (hardwareReset s).bpp = 0 := rfl
@[simp] theorem hardwareReset_currentLine : (hardwareReset s).currentLine = 0 := rfl
@[simp] theorem hardwareReset_pos : (hardwareReset s).pos = 0 := rfl
@[simp] theorem hardwareReset_lineRepeat : (hardwareReset s).lineRepeat = 0 := rfl
@[simp] theorem hardwareReset_emitLeft : (hardwareReset s).emitLeft = 0 := rfl
@[simp] theorem hardwareReset_code : (hardwareReset s).code = 0 := rfl
@[simp] theorem hardwareReset_runLeft : (hardwareReset s).runLeft = 0 := rfl
@[simp] theorem hardwareReset_px : (hardwareReset s).px = Vector.replicate 31 0 := rfl
@[simp] theorem hardwareReset_pxIdx : (hardwareReset s).pxIdx = 0 := rfl
@[simp] theorem hardwareReset_phase : (hardwareReset s).phase = .idle := rfl
@[simp] theorem hardwareReset_errKind : (hardwareReset s).errKind = .none := rfl
@[simp] theorem hardwareReset_errWhere : (hardwareReset s).errWhere = .none := rfl
@[simp] theorem hardwareReset_errRow : (hardwareReset s).errRow = 0 := rfl
@[simp] theorem hardwareReset_errCol : (hardwareReset s).errCol = 0 := rfl
@[simp] theorem hardwareReset_linebuf : (hardwareReset s).linebuf = [] := rfl
@[simp] theorem hardwareReset_stream : (hardwareReset s).stream = s.stream := rfl
@[simp] theorem hardwareReset_cursor : (hardwareReset s).cursor = s.cursor := rfl
@[simp] theorem hardwareReset_trace : (hardwareReset s).trace = [] := rfl
@[simp] theorem hardwareReset_earlier : (hardwareReset s).earlier = s.earlier ++ s.trace := rfl
@[simp] theorem hardwareReset_host : (hardwareReset s).host = s.host := rfl

/-! ## `openSession` -/

@[simp] theorem openSession_build (c : Page) : (openSession c s).build = s.build := rfl
@[simp] theorem openSession_width (c : Page) : (openSession c s).width = c.width := rfl
@[simp] theorem openSession_height (c : Page) : (openSession c s).height = c.height := rfl
@[simp] theorem openSession_bpp (c : Page) : (openSession c s).bpp = c.bitsPerPixel := rfl
@[simp] theorem openSession_currentLine (c : Page) : (openSession c s).currentLine = 0 := rfl
@[simp] theorem openSession_pos (c : Page) : (openSession c s).pos = s.pos := rfl
@[simp] theorem openSession_lineRepeat (c : Page) : (openSession c s).lineRepeat = s.lineRepeat := rfl
@[simp] theorem openSession_emitLeft (c : Page) : (openSession c s).emitLeft = s.emitLeft := rfl
@[simp] theorem openSession_code (c : Page) : (openSession c s).code = s.code := rfl
@[simp] theorem openSession_runLeft (c : Page) : (openSession c s).runLeft = s.runLeft := rfl
@[simp] theorem openSession_px (c : Page) : (openSession c s).px = s.px := rfl
@[simp] theorem openSession_pxIdx (c : Page) : (openSession c s).pxIdx = s.pxIdx := rfl
@[simp] theorem openSession_phase (c : Page) : (openSession c s).phase = .lineHeader := rfl
@[simp] theorem openSession_errKind (c : Page) : (openSession c s).errKind = .none := rfl
@[simp] theorem openSession_errWhere (c : Page) : (openSession c s).errWhere = .none := rfl
@[simp] theorem openSession_errRow (c : Page) : (openSession c s).errRow = 0 := rfl
@[simp] theorem openSession_errCol (c : Page) : (openSession c s).errCol = 0 := rfl
@[simp] theorem openSession_linebuf (c : Page) : (openSession c s).linebuf = s.linebuf := rfl
@[simp] theorem openSession_stream (c : Page) : (openSession c s).stream = c.stream := rfl
@[simp] theorem openSession_cursor (c : Page) : (openSession c s).cursor = 0 := rfl
@[simp] theorem openSession_trace (c : Page) : (openSession c s).trace = [] := rfl
@[simp] theorem openSession_earlier (c : Page) : (openSession c s).earlier = s.earlier ++ s.trace := rfl
@[simp] theorem openSession_host (c : Page) : (openSession c s).host = s.host := rfl

end Sys2Proof.Machine
end

