-- ==== Sys2Proof/Laws/Ops.lean ====
section
/-! SUPPORT. One lemma for each shared operation that says all it can do (20_memory.md R51 to R54, 44_sink_interface.md R154). -/

namespace Sys2Proof.Machine

@[simp] theorem andThen_next (s : State) (k : State → Result) : andThen (.next s) k = k s := rfl
@[simp] theorem andThen_fault (f : Fault) (k : State → Result) : andThen (.fault f) k = .fault f := rfl
@[simp] theorem andThen_refused (x : Refusal) (k : State → Result) : andThen (.refused x) k = .refused x := rfl

/-- A sequence answers a next state exactly when both parts do. -/
theorem andThen_eq_next {r : Result} {k : State → Result} {t : State} :
    andThen r k = .next t ↔ ∃ s, r = .next s ∧ k s = .next t := by
  cases r <;> simp

/-- A stream read moves the cursor by one on a byte, and does nothing else ever. -/
theorem streamRead_of_some {s : State} {b : Byte} (h : s.stream[s.cursor]? = some b) :
    streamRead s = (.byte b, { s with cursor := s.cursor + 1 }) := by
  simp [streamRead, h]

theorem streamRead_of_none {s : State} (h : s.stream[s.cursor]? = none) : streamRead s = (.eof, s) := by
  simp [streamRead, h]

theorem fetchHead_of_some {c : Context} {s : State} {b : Byte} (h : s.stream[s.cursor]? = some b) :
    fetchHead c s = (some (decodeHead c b), { s with cursor := s.cursor + 1 }) := by
  simp [fetchHead, streamRead_of_some h]

theorem fetchHead_of_none {c : Context} {s : State} (h : s.stream[s.cursor]? = none) :
    fetchHead c s = (none, s) := by
  simp [fetchHead, streamRead_of_none h]

/-- `PIXEL_BYTES` never exceeds the 31 bytes of `px` (R21, R26). -/
theorem pixelBytes_le (s : State) : s.pixelBytes ≤ 31 := by
  have : s.bpp.toNat < 256 := s.bpp.isLt
  simp only [State.pixelBytes]; omega

@[simp] theorem pixelSlot_length (s : State) : s.pixelSlot.length = s.pixelBytes := by
  have := pixelBytes_le s
  simp only [State.pixelSlot]
  split <;> simp <;> omega

/-- The byte order of a pixel store (R52): byte `j` of the slot is byte `j` of `px`, or the `j`-th from the end. -/
theorem pixelSlot_get (s : State) {j : Nat} (hj : j < s.pixelBytes) :
    s.pixelSlot[if s.build.pixelByteReverse then s.pixelBytes - 1 - j else j]? = s.px[j]? := by
  have h31 := pixelBytes_le s
  simp only [State.pixelSlot]
  split
  · rw [List.getElem?_reverse (by simp; omega)]
    have hl : (s.px.toList.take s.pixelBytes).length = s.pixelBytes := by simp; omega
    rw [hl, show s.pixelBytes - 1 - (s.pixelBytes - 1 - j) = j by omega, List.getElem?_take_of_lt hj]
    exact Vector.getElem?_toList
  · rw [List.getElem?_take_of_lt hj]
    exact Vector.getElem?_toList

theorem canStore_iff {s : State} {p : Nat} :
    s.canStore p = true ↔ p < s.width.toNat ∧ s.lineBytes ≤ s.build.lineBufBytes := by
  simp [State.canStore]

/-- `StorePixel` in full (R52). -/
theorem storePixel_eq_next {p : Nat} {s t : State} :
    storePixel p s = .next t ↔ s.canStore p = true ∧
      t = { s with linebuf := Memory.writeBytes s.linebuf (s.pixelAddress p) s.pixelSlot } := by
  unfold storePixel
  split
  · rename_i h
    exact ⟨fun e => ⟨h, by injection e with e; exact e.symm⟩, fun e => by rw [e.2]⟩
  · rename_i h
    exact ⟨fun e => by injection e, fun e => absurd e.1 h⟩

/-- The address just past pixel position `p` (R51). -/
theorem pixelAddress_succ (s : State) (p : Nat) :
    s.pixelAddress (p + 1) = s.pixelAddress p + s.pixelBytes := by
  simp [State.pixelAddress, Nat.succ_mul]

theorem pixelAddress_add (s : State) (p m : Nat) :
    s.pixelAddress (p + m) = s.pixelAddress p + m * s.pixelBytes := by
  simp [State.pixelAddress, Nat.add_mul]

/-- A position in the line begins and ends inside the line (R59). -/
theorem pixelAddress_le_lineBytes {s : State} {p : Nat} (h : p ≤ s.width.toNat) :
    s.pixelAddress p ≤ s.lineBytes := Nat.mul_le_mul_right _ h

/-- What the buffer of a state that differs from `s` in its buffer alone reads after `m` copies of the pixel at `p`. -/
def RunStored (s t : State) (p m : Nat) : Prop :=
  (∀ i j, i < m → j < s.pixelBytes → t.bufRead (s.pixelAddress (p + i) + j) = s.pixelSlot[j]?) ∧
    ∀ a, a < s.pixelAddress p ∨ s.pixelAddress (p + m) ≤ a → t.bufRead a = s.bufRead a

/-- `m` stores from position `p` on succeed when they stay in the line, change the buffer alone, keep its form, and write
exactly the pixel's bytes at those positions (R52, R59). -/
theorem storeRun_spec {m p : Nat} {s : State} (hp : p + m ≤ s.width.toNat)
    (hcap : s.lineBytes ≤ s.build.lineBufBytes) :
    ∃ t, storeRun p m s = .next t ∧ t = { s with linebuf := t.linebuf } ∧
      (Memory.wf s.linebuf → Memory.wf t.linebuf) ∧ RunStored s t p m := by
  induction m generalizing p s with
  | zero => exact ⟨s, rfl, rfl, id, by simp, by simp⟩
  | succ m ih =>
    let s1 : State := { s with linebuf := Memory.writeBytes s.linebuf (s.pixelAddress p) s.pixelSlot }
    have hs1 : storePixel p s = .next s1 := storePixel_eq_next.mpr ⟨canStore_iff.mpr ⟨by omega, hcap⟩, rfl⟩
    obtain ⟨t, ht, hframe, hwf, hin, hout⟩ := ih (p := p + 1) (s := s1) (by show p + 1 + m ≤ s.width.toNat; omega) hcap
    refine ⟨t, by rw [storeRun, hs1]; exact ht, hframe, fun h => hwf (Memory.writeBytes_wf h _ _), ?_, ?_⟩
    · intro i j hi hj
      cases i with
      | zero =>
        have h1 : t.bufRead (s.pixelAddress p + j) = s1.bufRead (s.pixelAddress p + j) :=
          hout _ (.inl (by show _ < s.pixelAddress (p + 1); rw [pixelAddress_succ]; omega))
        rw [Nat.add_zero, h1]
        show Memory.read s1.linebuf _ = _
        rw [Memory.read_writeBytes, if_pos (by rw [pixelSlot_length]; omega)]
        congr 1; omega
      | succ i =>
        have h1 := hin i j (by omega) hj
        rw [show p + (i + 1) = p + 1 + i by omega]
        exact h1
    · intro a ha
      have hle : s.pixelAddress p ≤ s.pixelAddress (p + 1) := by rw [pixelAddress_succ]; omega
      have hle2 : s.pixelAddress (p + 1) ≤ s.pixelAddress (p + 1 + m) := Nat.mul_le_mul_right _ (by omega)
      rw [show p + (m + 1) = p + 1 + m by omega] at ha
      have h1 : t.bufRead a = s1.bufRead a :=
        hout a (by show a < s.pixelAddress (p + 1) ∨ s.pixelAddress (p + 1 + m) ≤ a; omega)
      rw [h1]
      show Memory.read s1.linebuf _ = _
      have h2 := pixelAddress_succ s p
      rw [Memory.read_writeBytes, if_neg (by rw [pixelSlot_length]; omega)]
      rfl

/-- `m` stores succeed only inside the line. -/
theorem storeRun_eq_next_bound {m p : Nat} {s t : State} (h : storeRun p m s = .next t) (hm : 0 < m) :
    p + m ≤ s.width.toNat ∧ s.lineBytes ≤ s.build.lineBufBytes := by
  induction m generalizing p s with
  | zero => omega
  | succ m ih =>
    obtain ⟨s1, h1, h2⟩ := andThen_eq_next.mp h
    obtain ⟨hc, rfl⟩ := storePixel_eq_next.mp h1
    have := canStore_iff.mp hc
    cases m with
    | zero => omega
    | succ m =>
      have h3 := ih h2 (by omega)
      have h4 : p + 1 + (m + 1) ≤ s.width.toNat := h3.1
      omega

/-- `BlankFill` in full (R53). -/
theorem blankFill_eq_next {p : Nat} {s t : State} :
    blankFill p s = .next t ↔ s.canStore p = true ∧
      t = { s with
        linebuf := Memory.fill s.build.blankByte s.linebuf (s.pixelAddress p) (s.lineBytes - s.pixelAddress p) } := by
  unfold blankFill
  split
  · rename_i h
    exact ⟨fun e => ⟨h, by injection e with e; exact e.symm⟩, fun e => by rw [e.2]⟩
  · rename_i h
    exact ⟨fun e => by injection e, fun e => absurd e.1 h⟩

/-- What every address reads after a blank fill: the rest of the line is blank, all else is as before (R53). -/
theorem bufRead_blankFill {p : Nat} {s t : State} (h : blankFill p s = .next t) (a : Nat) :
    t.bufRead a = if s.pixelAddress p ≤ a ∧ a < s.lineBytes then some s.build.blankByte else s.bufRead a := by
  obtain ⟨hc, rfl⟩ := blankFill_eq_next.mp h
  have := pixelAddress_le_lineBytes (s := s) (p := p) (by have := canStore_iff.mp hc; omega)
  show Memory.read (Memory.fill _ _ _ _) a = _
  rw [Memory.read_fill, show s.pixelAddress p + (s.lineBytes - s.pixelAddress p) = s.lineBytes by omega]
  rfl

/-- A sink call appends one emission, whose bytes are the line's, and does nothing else (R154). -/
theorem sinkAccept_eq_next {s t : State} :
    sinkAccept s = .next t ↔ ∃ bytes, Memory.readBytes s.linebuf 0 s.lineBytes = some bytes ∧
      t = { s with trace := s.trace ++ [⟨s.currentLine, bytes⟩] } := by
  simp only [sinkAccept]
  split
  · rename_i bytes hb
    constructor
    · rintro h
      exact ⟨bytes, hb, by injection h with h; exact h.symm⟩
    · rintro ⟨bytes', hb', rfl⟩
      rw [hb] at hb'
      obtain rfl := Option.some.inj hb'
      rfl
  · rename_i hb
    simp [hb]

/-- A sink call succeeds when every byte of the line was written. -/
theorem sinkAccept_of_written {s : State} (h : ∀ a, a < s.lineBytes → (s.bufRead a).isSome = true) :
    ∃ bytes, bytes.length = s.lineBytes ∧ (∀ a, a < s.lineBytes → s.bufRead a = bytes[a]?) ∧
      sinkAccept s = .next { s with trace := s.trace ++ [⟨s.currentLine, bytes⟩] } := by
  have hs : (Memory.readBytes s.linebuf 0 s.lineBytes).isSome = true :=
    (Memory.readBytes_isSome _ _ _).mpr fun i hi => by rw [Nat.zero_add]; exact h i hi
  obtain ⟨bytes, hb⟩ := Option.isSome_iff_exists.mp hs
  obtain ⟨hl, hr⟩ := Memory.readBytes_spec hb
  exact ⟨bytes, hl, fun a ha => by have := hr a ha; rwa [Nat.zero_add] at this, sinkAccept_eq_next.mpr ⟨bytes, hb, rfl⟩⟩

end Sys2Proof.Machine
end

