-- ==== Sys2Proof/Laws/PerInstr.lean ====
section
/-! SUPPORT. The records against the rows of spec/opcode_table.json, record by record. -/

namespace Sys2Proof.Laws.FitsRow

/-- A row's columns `match`, `mask` and `exclude`. -/
structure TableRow where
  /-- The bits that are fixed. -/
  mask : Byte
  /-- Their values. -/
  value : Byte
  /-- The bytes that fit but belong to another row. -/
  exclude : List Byte
  deriving DecidableEq, Repr

/-- A byte is one of the row's. -/
def TableRow.fits (row : TableRow) (b : Byte) : Bool := b &&& row.mask == row.value && !row.exclude.contains b

/-- The rows as the table prints them. -/
def rowOf : Instr → TableRow
  | .line _ => ⟨0x00, 0x00, []⟩
  | .rep _ => ⟨0x80, 0x00, []⟩
  | .lit _ => ⟨0x80, 0x80, [0x80]⟩
  | .blank => ⟨0xFF, 0x80, []⟩

/-- A well-formed record's head byte is one of its own row's, and a byte of that row, read in the record's context, is no
other record's than the row's. -/
def Statement (i : Instr) : Prop :=
  i.wellFormed = true →
    (rowOf i).fits (encodeHead i) = true ∧
      ∀ b, (rowOf i).fits b = true → rowOf (decodeHead i.context b) = rowOf i

theorem line (r : BitVec 8) : Statement (.line r) := by
  intro _
  refine ⟨?_, fun _ _ => rfl⟩
  simp [rowOf, TableRow.fits]

theorem rep (m : BitVec 7) : Statement (.rep m) := by
  intro _
  refine ⟨?_, ?_⟩
  · revert m; decide
  · show ∀ b, (⟨0x80, 0x00, []⟩ : TableRow).fits b = true → rowOf (decodeControl b) = ⟨0x80, 0x00, []⟩
    decide

theorem lit (m : BitVec 7) : Statement (.lit m) := by
  intro h
  refine ⟨?_, ?_⟩
  · revert h; revert m; decide
  · show ∀ b, (⟨0x80, 0x80, [0x80]⟩ : TableRow).fits b = true → rowOf (decodeControl b) = ⟨0x80, 0x80, [0x80]⟩
    decide

theorem blank : Statement .blank := by
  intro _
  refine ⟨by decide, ?_⟩
  show ∀ b, (⟨0xFF, 0x80, []⟩ : TableRow).fits b = true → rowOf (decodeControl b) = ⟨0xFF, 0x80, []⟩
  decide

end Sys2Proof.Laws.FitsRow
end

