-- ==== Sys2Proof/Laws/Step.lean ====
section
/-! SUPPORT. What one transaction of the block, and one step of the machine, can do: the rows of 40_decode_session.md R105
read off the definitions once, so that no later proof unfolds them. -/

namespace Sys2Proof.Machine

/-- The state after the byte at the cursor is consumed. -/
abbrev State.consumed (s : State) : State := { s with cursor := s.cursor + 1 }

/-- R125: emission exactly if the line is complete; nothing but the phase and `emit_left` changes. -/
theorem afterRun_spec (q : State) :
    (q.pos = q.width → (afterRun q).phase = .emit ∧ (afterRun q).emitLeft = q.lineRepeat) ∧
    (q.pos ≠ q.width → (afterRun q).phase = .runHeader ∧ (afterRun q).emitLeft = q.emitLeft) ∧
    afterRun q = { q with phase := (afterRun q).phase, emitLeft := (afterRun q).emitLeft } := by
  unfold afterRun State.lineComplete
  by_cases hq : q.pos = q.width
  · rw [if_pos (by simpa using hq)]
    exact ⟨fun _ => ⟨rfl, rfl⟩, fun h => absurd hq h, rfl⟩
  · rw [if_neg (by simpa using hq)]
    exact ⟨fun h => absurd h hq, fun _ => ⟨rfl, rfl⟩, rfl⟩

/-- The same frame with the buffer left open, the form the rows state it in. -/
theorem afterRun_frame (q : State) : afterRun q = { q with
    linebuf := (afterRun q).linebuf, phase := (afterRun q).phase, emitLeft := (afterRun q).emitLeft } := by
  unfold afterRun; split <;> rfl

@[simp] theorem afterRun_linebuf (q : State) : (afterRun q).linebuf = q.linebuf := by
  unfold afterRun; split <;> rfl

/-- The next phase of row T11: the line's end comes before the run's. -/
theorem afterLitPixel_spec (q : State) :
    (q.pos = q.width → (afterLitPixel q).phase = .emit ∧ (afterLitPixel q).emitLeft = q.lineRepeat) ∧
    (q.pos ≠ q.width → q.runLeft = 0 → (afterLitPixel q).phase = .runHeader ∧ (afterLitPixel q).emitLeft = q.emitLeft) ∧
    (q.pos ≠ q.width → q.runLeft ≠ 0 → (afterLitPixel q).phase = q.phase ∧ (afterLitPixel q).emitLeft = q.emitLeft) ∧
    afterLitPixel q = { q with phase := (afterLitPixel q).phase, emitLeft := (afterLitPixel q).emitLeft } := by
  unfold afterLitPixel State.lineComplete
  by_cases hq : q.pos = q.width
  · rw [if_pos (by simpa using hq)]
    exact ⟨fun _ => ⟨rfl, rfl⟩, fun h => absurd hq h, fun h => absurd hq h, rfl⟩
  · rw [if_neg (by simpa using hq)]
    by_cases hr : q.runLeft = 0
    · rw [if_pos hr]
      exact ⟨fun h => absurd h hq, fun _ _ => ⟨rfl, rfl⟩, fun _ h => absurd hr h, rfl⟩
    · rw [if_neg hr]
      exact ⟨fun h => absurd h hq, fun _ h => absurd h hr, fun _ _ => ⟨rfl, rfl⟩, rfl⟩

theorem afterLitPixel_frame (q : State) : afterLitPixel q = { q with
    linebuf := (afterLitPixel q).linebuf, phase := (afterLitPixel q).phase, emitLeft := (afterLitPixel q).emitLeft } := by
  unfold afterLitPixel; split
  · rfl
  · split <;> rfl

@[simp] theorem afterLitPixel_linebuf (q : State) : (afterLitPixel q).linebuf = q.linebuf := by
  unfold afterLitPixel; split
  · rfl
  · split <;> rfl

/-- The next phase of row T13: the page's end comes before the line's; nothing but the phase changes. -/
theorem afterEmission_spec (q : State) :
    (q.currentLine = q.height → (afterEmission q).phase = .done) ∧
    (q.currentLine ≠ q.height → q.emitLeft = 0 → (afterEmission q).phase = .lineHeader) ∧
    (q.currentLine ≠ q.height → q.emitLeft ≠ 0 → (afterEmission q).phase = q.phase) ∧
    afterEmission q = { q with phase := (afterEmission q).phase } := by
  unfold afterEmission State.pageComplete
  by_cases hq : q.currentLine = q.height
  · rw [if_pos (by simpa using hq)]
    exact ⟨fun _ => rfl, fun h => absurd hq h, fun h => absurd hq h, rfl⟩
  · rw [if_neg (by simpa using hq)]
    by_cases hr : q.emitLeft = 0
    · rw [if_pos hr]
      exact ⟨fun h => absurd h hq, fun _ _ => rfl, fun _ h => absurd hr h, rfl⟩
    · rw [if_neg hr]
      exact ⟨fun h => absurd h hq, fun _ h => absurd h hr, fun _ _ => rfl, rfl⟩

/-- The rows of R105: every way a transaction leads from `s` to a next state. -/
inductive Row (s : State) : State → Prop
  /-- No event but START: the block waits. -/
  | wait (hp : s.phase = .idle ∨ s.phase = .done ∨ s.phase = .failed ∨ s.phase = .endedShort) : Row s s
  /-- T1. -/
  | line (b : Byte) (hp : s.phase = .lineHeader) (hb : s.stream[s.cursor]? = some b) :
      Row s { s.consumed with lineRepeat := repeatCount b, pos := 0, phase := .runHeader }
  /-- T2. -/
  | lineEofError (hp : s.phase = .lineHeader) (hb : s.stream[s.cursor]? = none)
      (hc : s.build.eofAtLineBoundaryIsError = true) : Row s (raiseTruncated s.currentLine 0 .repeatByte s)
  /-- T3. -/
  | lineEofShort (hp : s.phase = .lineHeader) (hb : s.stream[s.cursor]? = none)
      (hc : s.build.eofAtLineBoundaryIsError = false) : Row s (endShort s)
  /-- T4. -/
  | blank (b : Byte) (hp : s.phase = .runHeader) (hb : s.stream[s.cursor]? = some b) (hd : decodeControl b = .blank)
      (hc : s.canStore s.pos.toNat = true) :
      Row s (beginEmission { s.consumed with
        code := encodeHead .blank, pos := s.width,
        linebuf := Memory.fill s.build.blankByte s.linebuf (s.pixelAddress s.pos.toNat) (s.lineBytes - s.pixelAddress s.pos.toNat) })
  /-- T5. -/
  | repHead (b : Byte) (m : BitVec 7) (hp : s.phase = .runHeader) (hb : s.stream[s.cursor]? = some b)
      (hd : decodeControl b = .rep m) :
      Row s { s.consumed with code := encodeHead (.rep m), runLeft := repLength m, pxIdx := 0, phase := .repFetch }
  /-- T6. -/
  | litHead (b : Byte) (m : BitVec 7) (hp : s.phase = .runHeader) (hb : s.stream[s.cursor]? = some b)
      (hd : decodeControl b = .lit m) (hm : m ≠ 0) :
      Row s { s.consumed with code := encodeHead (.lit m), runLeft := litLength m, pxIdx := 0, phase := .litFetch }
  /-- T7. -/
  | runEof (hp : s.phase = .runHeader) (hb : s.stream[s.cursor]? = none) :
      Row s (raiseTruncated s.currentLine s.pos .controlByte s)
  /-- T8, T10. -/
  | midPixel (b : Byte) (hp : s.phase = .repFetch ∨ s.phase = .litFetch) (hb : s.stream[s.cursor]? = some b)
      (hm : s.pxIdx.toNat + 1 < s.pixelBytes) : Row s (receiveMidPixel b s.consumed)
  /-- T9. -/
  | repPixel (b : Byte) (t : State) (k : Nat) (hp : s.phase = .repFetch) (hb : s.stream[s.cursor]? = some b)
      (hi : s.pxIdx.toNat + 1 = s.pixelBytes) (hr : 0 < s.runLeft.toNat) (hpos : s.pos.toNat < s.width.toNat)
      (hcap : s.lineBytes ≤ s.build.lineBufBytes) (hk : k = s.clamp s.runLeft.toNat)
      (hwf : Memory.wf s.linebuf → Memory.wf t.linebuf)
      (hst : RunStored (receivePixelByte b s.consumed) t s.pos.toNat k)
      (hfull : s.posPlus k = s.width → t.phase = .emit ∧ t.emitLeft = s.lineRepeat)
      (hroom : s.posPlus k ≠ s.width → t.phase = .runHeader ∧ t.emitLeft = s.emitLeft)
      (ht : t = { receivePixelByte b s.consumed with
        linebuf := t.linebuf, pos := s.posPlus k, runLeft := 0, phase := t.phase, emitLeft := t.emitLeft }) : Row s t
  /-- T11. -/
  | litPixel (b : Byte) (t : State) (hp : s.phase = .litFetch) (hb : s.stream[s.cursor]? = some b)
      (hi : s.pxIdx.toNat + 1 = s.pixelBytes) (hr : 0 < s.runLeft.toNat) (hpos : s.pos.toNat < s.width.toNat)
      (hcap : s.lineBytes ≤ s.build.lineBufBytes) (hwf : Memory.wf s.linebuf → Memory.wf t.linebuf)
      (hst : RunStored (receivePixelByte b s.consumed) t s.pos.toNat 1)
      (hfull : s.posPlus 1 = s.width → t.phase = .emit ∧ t.emitLeft = s.lineRepeat)
      (hover : s.posPlus 1 ≠ s.width → s.runLeft - 1 = 0 → t.phase = .runHeader ∧ t.emitLeft = s.emitLeft)
      (hmore : s.posPlus 1 ≠ s.width → s.runLeft - 1 ≠ 0 → t.phase = .litFetch ∧ t.emitLeft = s.emitLeft)
      (ht : t = { receivePixelByte b s.consumed with
        linebuf := t.linebuf, pos := s.posPlus 1, runLeft := s.runLeft - 1, pxIdx := 0, phase := t.phase,
        emitLeft := t.emitLeft }) : Row s t
  /-- T12. -/
  | payloadEof (hp : s.phase = .repFetch ∨ s.phase = .litFetch) (hb : s.stream[s.cursor]? = none) :
      Row s (raiseTruncated s.currentLine s.pos .pixelPayload s)
  /-- T13. -/
  | emission (bytes : List Byte) (t : State) (hp : s.phase = .emit) (hl : 0 < s.emitLeft.toNat)
      (hh : s.currentLine.toNat < s.height.toNat) (hb : Memory.readBytes s.linebuf 0 s.lineBytes = some bytes)
      (hdone : s.currentLine + 1 = s.height → t.phase = .done)
      (hover : s.currentLine + 1 ≠ s.height → s.emitLeft - 1 = 0 → t.phase = .lineHeader)
      (hmore : s.currentLine + 1 ≠ s.height → s.emitLeft - 1 ≠ 0 → t.phase = .emit)
      (ht : t = { s with
        trace := s.trace ++ [⟨s.currentLine, bytes⟩], currentLine := s.currentLine + 1, emitLeft := s.emitLeft - 1,
        phase := t.phase }) : Row s t

theorem lastOfPixel_iff {s : State} : s.lastOfPixel = true ↔
    s.pxIdx.toNat + 1 = s.pixelBytes ∧ 0 < s.runLeft.toNat ∧ s.pos.toNat < s.width.toNat := by
  simp [State.lastOfPixel, and_assoc]

theorem emissionDue_iff {s : State} : s.emissionDue = true ↔
    0 < s.emitLeft.toNat ∧ s.currentLine.toNat < s.height.toNat := by
  simp [State.emissionDue]

/-- A control byte with no run field is never a `LIT` (R83). -/
theorem decodeControl_lit_ne_zero {b : Byte} {m : BitVec 7} (h : decodeControl b = .lit m) : m ≠ 0 := by
  revert h; revert m; revert b; decide

/-- The whole of a `REP`'s last payload byte, when the registers are in range. -/
theorem finishRep_spec {s : State} (hpos : s.pos.toNat < s.width.toNat) (hcap : s.lineBytes ≤ s.build.lineBufBytes) :
    ∃ lb, (Memory.wf s.linebuf → Memory.wf lb) ∧
      RunStored s { s with linebuf := lb } s.pos.toNat (s.clamp s.runLeft.toNat) ∧
      finishRep s = .next (afterRun { s with
        linebuf := lb, pos := s.posPlus (s.clamp s.runLeft.toNat), runLeft := 0 }) := by
  have hm : s.pos.toNat + s.clamp s.runLeft.toNat ≤ s.width.toNat := by simp only [State.clamp]; omega
  obtain ⟨t, ht, hframe, hwf, hst⟩ := storeRun_spec hm hcap
  refine ⟨t.linebuf, hwf, hframe ▸ hst, ?_⟩
  simp only [finishRep]
  rw [ht, andThen_next, hframe]

theorem finishLitPixel_spec {s : State} (hpos : s.pos.toNat < s.width.toNat)
    (hcap : s.lineBytes ≤ s.build.lineBufBytes) :
    ∃ lb, (Memory.wf s.linebuf → Memory.wf lb) ∧ RunStored s { s with linebuf := lb } s.pos.toNat 1 ∧
      finishLitPixel s = .next (afterLitPixel { s with
        linebuf := lb, pos := s.posPlus 1, runLeft := s.runLeft - 1, pxIdx := 0 }) := by
  obtain ⟨t, ht, hframe, hwf, hst⟩ := storeRun_spec (m := 1) (p := s.pos.toNat) (s := s) (by omega) hcap
  have h1 : storePixel s.pos.toNat s = .next t := by
    simp only [storeRun] at ht
    obtain ⟨u, hu, hu2⟩ := andThen_eq_next.mp ht
    rw [hu]; exact hu2
  refine ⟨t.linebuf, hwf, hframe ▸ hst, ?_⟩
  simp only [finishLitPixel]
  rw [h1, andThen_next, hframe]

/-- The stores of both finishes fault exactly when the line is longer than the buffer. -/
theorem finishRep_cap {s t : State} (hpos : s.pos.toNat < s.width.toNat) (hr : 0 < s.runLeft.toNat)
    (h : finishRep s = .next t) : s.lineBytes ≤ s.build.lineBufBytes := by
  simp only [finishRep] at h
  obtain ⟨u, hu, -⟩ := andThen_eq_next.mp h
  exact (storeRun_eq_next_bound hu (by simp only [State.clamp]; omega)).2

theorem finishLitPixel_cap {s t : State} (h : finishLitPixel s = .next t) :
    s.lineBytes ≤ s.build.lineBufBytes := by
  simp only [finishLitPixel] at h
  obtain ⟨u, hu, -⟩ := andThen_eq_next.mp h
  exact (canStore_iff.mp (storePixel_eq_next.mp hu).1).2

/-- What a run stored depends on the buffer alone. -/
theorem RunStored.congr {s t u : State} {p m : Nat} (h : RunStored s t p m) (e : u.linebuf = t.linebuf) :
    RunStored s u p m := by
  have hr : ∀ a, u.bufRead a = t.bufRead a := fun a => by rw [State.bufRead, State.bufRead, e]
  exact ⟨fun i j hi hj => (hr _).trans (h.1 i j hi hj), fun a ha => (hr a).trans (h.2 a ha)⟩

theorem repFetch_row {s t : State} (hp : s.phase = .repFetch) (h : repFetch s = .next t) : Row s t := by
  simp only [repFetch, fetchPayload] at h
  cases hb : s.stream[s.cursor]? with
  | none =>
    rw [streamRead_of_none hb] at h
    injection h with h; subst h
    exact .payloadEof (.inl hp) hb
  | some b =>
    rw [streamRead_of_some hb] at h
    simp only at h
    split at h
    · rename_i hm
      injection h with h; subst h
      exact .midPixel b (.inl hp) hb (by simpa [State.midPixel] using hm)
    · split at h
      · rename_i hl
        obtain ⟨hi, hr, hpos⟩ := lastOfPixel_iff.mp hl
        have hcap := finishRep_cap (s := receivePixelByte b s.consumed) hpos hr h
        obtain ⟨lb, hwf, hst, heq⟩ := finishRep_spec (s := receivePixelByte b s.consumed) hpos hcap
        rw [heq] at h
        injection h with h; subst h
        obtain ⟨h1, h2, -⟩ := afterRun_spec { receivePixelByte b s.consumed with
          linebuf := lb, pos := s.posPlus (s.clamp s.runLeft.toNat), runLeft := 0 }
        exact .repPixel b _ _ hp hb hi hr hpos hcap rfl
          (fun hw => (afterRun_linebuf _).symm ▸ hwf hw) (hst.congr (afterRun_linebuf _)) h1 h2 (afterRun_frame _)
      · cases h

theorem litFetch_row {s t : State} (hp : s.phase = .litFetch) (h : litFetch s = .next t) : Row s t := by
  simp only [litFetch, fetchPayload] at h
  cases hb : s.stream[s.cursor]? with
  | none =>
    rw [streamRead_of_none hb] at h
    injection h with h; subst h
    exact .payloadEof (.inr hp) hb
  | some b =>
    rw [streamRead_of_some hb] at h
    simp only at h
    split at h
    · rename_i hm
      injection h with h; subst h
      exact .midPixel b (.inr hp) hb (by simpa [State.midPixel] using hm)
    · split at h
      · rename_i hl
        obtain ⟨hi, hr, hpos⟩ := lastOfPixel_iff.mp hl
        have hcap := finishLitPixel_cap (s := receivePixelByte b s.consumed) h
        obtain ⟨lb, hwf, hst, heq⟩ := finishLitPixel_spec (s := receivePixelByte b s.consumed) hpos hcap
        rw [heq] at h
        injection h with h; subst h
        obtain ⟨h1, h2, h3, -⟩ := afterLitPixel_spec { receivePixelByte b s.consumed with
          linebuf := lb, pos := s.posPlus 1, runLeft := s.runLeft - 1, pxIdx := 0 }
        exact .litPixel b _ hp hb hi hr hpos hcap
          (fun hw => (afterLitPixel_linebuf _).symm ▸ hwf hw) (hst.congr (afterLitPixel_linebuf _)) h1 h2
          (fun x y => ⟨(h3 x y).1.trans hp, (h3 x y).2⟩) (afterLitPixel_frame _)
      · cases h

/-- Every transaction that answers a next state is a row of R105. -/
theorem transaction_row {s t : State} (h : transaction s = .next t) : Row s t := by
  unfold transaction at h
  split at h
  · rename_i hp
    simp only [headTransaction] at h
    cases hb : s.stream[s.cursor]? with
    | none =>
      rw [fetchHead_of_none hb] at h
      injection h with h; subst h
      unfold endAtLineBoundary
      split
      · exact .lineEofError hp hb ‹_›
      · exact .lineEofShort hp hb (Bool.eq_false_iff.mpr ‹_›)
    | some b =>
      rw [fetchHead_of_some hb] at h
      simp only [decodeHead, decodeRepeat, exec, execLine, hp] at h
      injection h with h; subst h
      exact .line b hp hb
  · rename_i hp
    simp only [headTransaction] at h
    cases hb : s.stream[s.cursor]? with
    | none =>
      rw [fetchHead_of_none hb] at h
      injection h with h; subst h
      exact .runEof hp hb
    | some b =>
      rw [fetchHead_of_some hb] at h
      simp only [decodeHead] at h
      cases hd : decodeControl b with
      | line r => simp [hd, exec, execLine, hp] at h
      | rep m =>
        simp only [hd, exec, execRep, hp] at h
        injection h with h; subst h
        exact .repHead b m hp hb hd
      | lit m =>
        have hm := decodeControl_lit_ne_zero hd
        simp only [hd, exec, execLit, hm, if_false, hp] at h
        injection h with h; subst h
        exact .litHead b m hp hb hd hm
      | blank =>
        simp only [hd, exec, execBlank, hp] at h
        obtain ⟨u, hu, hu2⟩ := andThen_eq_next.mp h
        obtain ⟨hc, rfl⟩ := blankFill_eq_next.mp hu
        injection hu2 with hu2; subst hu2
        exact .blank b hp hb hd hc
  · rename_i hp; exact repFetch_row hp h
  · rename_i hp; exact litFetch_row hp h
  · rename_i hp
    simp only [emitLine] at h
    split at h
    · rename_i hdue
      obtain ⟨hl, hh⟩ := emissionDue_iff.mp hdue
      obtain ⟨u, hu, hu2⟩ := andThen_eq_next.mp h
      obtain ⟨bytes, hb, rfl⟩ := sinkAccept_eq_next.mp hu
      injection hu2 with hu2; subst hu2
      obtain ⟨h1, h2, h3, h4⟩ := afterEmission_spec { s with
        trace := s.trace ++ [⟨s.currentLine, bytes⟩], currentLine := s.currentLine + 1, emitLeft := s.emitLeft - 1 }
      exact .emission bytes _ hp hl hh hb h1 h2 (fun x y => (h3 x y).trans hp) h4
    · cases h
  all_goals
    rename_i hp
    injection h with h; subst h
    exact .wait (by simp [hp])

/-- The host's part of a step: some of its acts are dropped, then START, reset, or one transaction. -/
theorem step_cases {s t : State} (h : step s = .next t) :
    (∃ c rest, ∃ u : State, u = { s with host := rest } ∧ start c u = .next t) ∨
      (∃ rest, t = hardwareReset { s with host := rest }) ∨
      (∃ rest, transaction { s with host := rest } = .next t) := by
  unfold step at h
  generalize s.host = acts at h
  induction acts with
  | nil => exact .inr (.inr ⟨[], h⟩)
  | cons act rest ih =>
    cases act with
    | serve => exact .inr (.inr ⟨rest, h⟩)
    | await =>
      simp only [hostTurn] at h
      split at h
      · exact .inr (.inr ⟨_, h⟩)
      · exact ih h
    | start c => exact .inl ⟨c, rest, _, rfl, h⟩
    | reset =>
      injection h with h
      exact .inr (.inl ⟨rest, h.symm⟩)

/-- The input constraints, one by one (R10). -/
theorem Page.legal_iff {c : Page} {cap : Nat} : c.legal cap = true ↔
    1 ≤ c.width.toNat ∧ 1 ≤ c.height.toNat ∧ 8 ≤ c.bitsPerPixel.toNat ∧ c.bitsPerPixel.toNat % 8 = 0 ∧
      c.width.toNat * (c.bitsPerPixel.toNat / 8) ≤ cap := by
  unfold Page.legal Page.pixelBytes
  simp only [Bool.and_eq_true, decide_eq_true_eq, and_assoc]

/-- START in full (R101). -/
theorem start_eq_next {c : Page} {s t : State} :
    start c s = .next t ↔
      s.phase.busy = false ∧ c.legal s.build.lineBufBytes = true ∧ t = openSession c s := by
  unfold start
  split
  · rename_i hb
    exact ⟨fun e => (by cases e), fun e => (by rw [e.1] at hb; cases hb)⟩
  · rename_i hb
    split
    · rename_i hl
      exact ⟨fun e => ⟨by simpa using hb, hl, (by injection e with e; exact e.symm)⟩, fun e => (by rw [e.2.2])⟩
    · rename_i hl
      exact ⟨fun e => (by cases e), fun e => absurd e.2.1 hl⟩

/-- Two states whose `host` fields are both the given one are the same update. -/
theorem State.with_host_self {s : State} {acts : List HostAct} (h : s.host = acts) : { s with host := acts } = s := by
  subst h; rfl

/-- With no act of the host pending, a step is a transaction. -/
theorem step_no_acts {s : State} (h : s.host = []) : step s = transaction s := by
  unfold step
  rw [h]
  simp only [hostTurn]
  rw [State.with_host_self h]

/-- Forward form of the head rows: the byte at the cursor is decoded in its context and run. -/
theorem transaction_lineHeader {s : State} {b : Byte} (hp : s.phase = .lineHeader)
    (hb : s.stream[s.cursor]? = some b) : transaction s = exec (.line b) s.consumed := by
  unfold transaction
  rw [hp]
  simp only [headTransaction, fetchHead_of_some hb, decodeHead, decodeRepeat]

theorem transaction_runHeader {s : State} {b : Byte} (hp : s.phase = .runHeader)
    (hb : s.stream[s.cursor]? = some b) : transaction s = exec (decodeControl b) s.consumed := by
  unfold transaction
  rw [hp]
  simp only [headTransaction, fetchHead_of_some hb, decodeHead]

theorem transaction_lineHeader_eof {s : State} (hp : s.phase = .lineHeader)
    (hb : s.stream[s.cursor]? = none) : transaction s = .next (endAtLineBoundary s) := by
  simp only [transaction, hp, headTransaction, fetchHead_of_none hb]

theorem transaction_runHeader_eof {s : State} (hp : s.phase = .runHeader)
    (hb : s.stream[s.cursor]? = none) : transaction s = .next (endAtControlByte s) := by
  simp only [transaction, hp, headTransaction, fetchHead_of_none hb]

theorem transaction_repFetch {s : State} (hp : s.phase = .repFetch) : transaction s = repFetch s := by
  simp only [transaction, hp]

theorem transaction_litFetch {s : State} (hp : s.phase = .litFetch) : transaction s = litFetch s := by
  simp only [transaction, hp]

theorem transaction_emit {s : State} (hp : s.phase = .emit) : transaction s = emitLine s := by
  simp only [transaction, hp]

/-- Forward forms of the payload rows. -/
theorem fetchPayload_eof {finish : State → Result} {s : State} (hb : s.stream[s.cursor]? = none) :
    fetchPayload finish s = .next (endInPayload s) := by
  simp only [fetchPayload, streamRead_of_none hb]

theorem fetchPayload_mid {finish : State → Result} {s : State} {b : Byte} (hb : s.stream[s.cursor]? = some b)
    (hm : s.pxIdx.toNat + 1 < s.pixelBytes) :
    fetchPayload finish s = .next (receiveMidPixel b s.consumed) := by
  simp only [fetchPayload, streamRead_of_some hb]
  rw [if_pos (by simpa [State.midPixel] using hm)]

theorem fetchPayload_last {finish : State → Result} {s : State} {b : Byte} (hb : s.stream[s.cursor]? = some b)
    (hi : s.pxIdx.toNat + 1 = s.pixelBytes) (hr : 0 < s.runLeft.toNat) (hpos : s.pos.toNat < s.width.toNat) :
    fetchPayload finish s = finish (receivePixelByte b s.consumed) := by
  simp only [fetchPayload, streamRead_of_some hb]
  rw [if_neg (by simp [State.midPixel]; omega), if_pos (lastOfPixel_iff.mpr ⟨hi, hr, hpos⟩)]

end Sys2Proof.Machine
end

