-- ==== Sys2Proof/Laws/Runs.lean ====
section
/-! SUPPORT. The registers' arithmetic and the byte addresses of a stored pixel in the rows of 40_decode_session.md R105
(20_memory.md R52), and the records' meanings in the phases they stand in. -/

namespace Sys2Proof.Machine

/-- A payload byte lands at its index of `px` and nowhere else (rows T8 to T11). -/
theorem px_received (s : State) (b : Byte) (h : s.pxIdx.toNat < 31) :
    (s.px.setIfInBounds s.pxIdx.toNat b)[s.pxIdx.toNat]? = some b ∧
      ∀ j : Nat, j ≠ s.pxIdx.toNat → (s.px.setIfInBounds s.pxIdx.toNat b)[j]? = s.px[j]? := by
  constructor
  · rw [Vector.getElem?_setIfInBounds]; simp [h]
  · intro j hj
    rw [Vector.getElem?_setIfInBounds]; simp [hj.symm]

/-- `pos` does not wrap inside the line (R127). -/
theorem posPlus_toNat {s : State} {k : Nat} (h : s.pos.toNat + k ≤ s.width.toNat) :
    (s.posPlus k).toNat = s.pos.toNat + k := by
  have := s.width.isLt
  simp [State.posPlus]; omega

/-- The clamp stays in the line (R124). -/
theorem clamp_le {s : State} (h : s.pos.toNat ≤ s.width.toNat) (n : Nat) :
    s.pos.toNat + s.clamp n ≤ s.width.toNat := by
  simp only [State.clamp]; omega

/-- A byte of a pixel lies in the pixel's slot (R51, R52). -/
theorem byteAddress_in_slot (s : State) (p : Nat) {j : Nat} (hj : j < s.pixelBytes) :
    s.pixelAddress p ≤ s.byteAddress p j ∧ s.byteAddress p j < s.pixelAddress p + s.pixelBytes := by
  simp only [State.byteAddress]; split <;> omega

/-- What a stored run reads back as: byte `j` of the pixel at every position of the run (R52). -/
theorem RunStored.bufRead_byte {s t : State} {p m : Nat} (h : RunStored s t p m) {i j : Nat} (hi : i < m)
    (hj : j < s.pixelBytes) : t.bufRead (s.byteAddress (p + i) j) = s.px[j]? := by
  have := h.1 i (if s.build.pixelByteReverse then s.pixelBytes - 1 - j else j) hi (by split <;> omega)
  rw [State.byteAddress, this, pixelSlot_get s hj]

/-! The meanings in the phases their records stand in. -/

theorem execRep_runHeader {s : State} (hp : s.phase = .runHeader) (m : BitVec 7) : exec (.rep m) s =
    .next { s with code := encodeHead (.rep m), runLeft := repLength m, pxIdx := 0, phase := .repFetch } := by
  unfold exec execRep; rw [hp]

theorem execRep_repFetch {s : State} (hp : s.phase = .repFetch) (m : BitVec 7) : exec (.rep m) s = repFetch s := by
  unfold exec execRep; rw [hp]

theorem execLit_runHeader {s : State} (hp : s.phase = .runHeader) {m : BitVec 7} (hm : m ≠ 0) : exec (.lit m) s =
    .next { s with code := encodeHead (.lit m), runLeft := litLength m, pxIdx := 0, phase := .litFetch } := by
  show execLit m s = _
  unfold execLit; rw [if_neg hm, hp]

theorem execLit_litFetch {s : State} (hp : s.phase = .litFetch) {m : BitVec 7} (hm : m ≠ 0) :
    exec (.lit m) s = litFetch s := by
  show execLit m s = _
  unfold execLit; rw [if_neg hm, hp]

theorem execBlank_runHeader {s : State} (hp : s.phase = .runHeader) : exec .blank s =
    andThen (blankFill s.pos.toNat { s with code := encodeHead .blank }) fun s' =>
      .next (beginEmission { s' with pos := s.width }) := by
  unfold exec execBlank; rw [hp]

/-- The host's part of a step does not depend on what the field `host` holds beside the acts it is given. -/
theorem hostTurn_with_host (run : State → Result) (acts rest : List HostAct) (s : State) :
    hostTurn run acts { s with host := rest } = hostTurn run acts s := by
  induction acts with
  | nil => rfl
  | cons act acts ih =>
    cases act with
    | await => simp only [hostTurn, ih]
    | serve => rfl
    | start c => rfl
    | reset => rfl

end Sys2Proof.Machine
end

