-- ==== Sys2Proof/Laws/Session.lean ====
section
/-! SUPPORT. Several steps of the machine in a row, and what a pixel's bytes do together in the payload phases
(rows T8 to T12 of 40_decode_session.md R105). -/

namespace Sys2Proof.Machine

/-- `k` steps, one by one. -/
@[simp] theorem runSteps_zero (s : State) : runSteps 0 s = .next s := rfl

theorem runSteps_succ (k : Nat) (s : State) : runSteps (k+1) s = andThen (step s) (runSteps k) := by
  show Host.Core.run core (k+1) s = _
  simp only [Host.Core.run]
  cases h : step s <;> (have h' : core.step s = _ := h; simp only [h']; rfl)

/-- `j + k` steps are `j` steps and then `k`. -/
theorem runSteps_add (j k : Nat) (s : State) : runSteps (j+k) s = andThen (runSteps j s) (runSteps k) := by
  induction j generalizing s with
  | zero => simp
  | succ j ih =>
    rw [show j + 1 + k = (j+k)+1 by omega, runSteps_succ, runSteps_succ]
    cases step s with
    | next t => simp [ih]
    | fault f => rfl
    | refused x => rfl

/-- A control byte is never a `LINE` (R81, R83). -/
theorem decodeControl_ne_line (b : Byte) (r : BitVec 8) : decodeControl b ≠ .line r := by
  unfold decodeControl; split
  · nofun
  · split <;> nofun

/-- The three classes of R83 with the run lengths of R84. -/
theorem decodeControl_cases (b : Byte) : (s8 b = -128 ∧ decodeControl b = .blank ∧ b = 0x80) ∨
    (s8 b ≠ -128 ∧ 0 ≤ s8 b ∧ ∃ m, decodeControl b = .rep m ∧ (repLength m).toNat = (s8 b + 1).toNat ∧
        encodeHead (.rep m) = b) ∨
    (s8 b ≠ -128 ∧ ¬ 0 ≤ s8 b ∧ ∃ m, decodeControl b = .lit m ∧ m ≠ 0 ∧ (litLength m).toNat = (-s8 b + 1).toNat ∧
        encodeHead (.lit m) = b) := by
  revert b; decide

/-- A byte of a pixel that is not its last, in either payload phase (rows T8, T10). -/
theorem step_midPixel {s : State} {b : Byte} (hh : s.host = []) (hf : s.phase.fetching = true)
    (hb : s.stream[s.cursor]? = some b) (hm : s.pxIdx.toNat + 1 < s.pixelBytes) :
    step s = .next (receiveMidPixel b s.consumed) := by
  rw [step_no_acts hh]
  cases hp : s.phase with
  | repFetch => rw [transaction_repFetch hp]; exact fetchPayload_mid hb hm
  | litFetch => rw [transaction_litFetch hp]; exact fetchPayload_mid hb hm
  | _ => rw [hp] at hf; cases hf

/-- End of stream in either payload phase (row T12). -/
theorem step_payloadEof {s : State} (hh : s.host = []) (hf : s.phase.fetching = true)
    (hb : s.stream[s.cursor]? = none) :
    step s = .next (endInPayload s) := by
  rw [step_no_acts hh]
  cases hp : s.phase with
  | repFetch => rw [transaction_repFetch hp]; exact fetchPayload_eof hb
  | litFetch => rw [transaction_litFetch hp]; exact fetchPayload_eof hb
  | _ => rw [hp] at hf; cases hf

/-- `j` bytes of a pixel, none of them its last. -/
theorem runSteps_midPixels : ∀ (j : Nat) (s : State), s.host = [] → s.phase.fetching = true →
    s.pxIdx.toNat + j < s.pixelBytes → s.cursor + j ≤ s.stream.length →
    ∃ t, runSteps j s = .next t ∧ t = { s with cursor := s.cursor + j, px := t.px, pxIdx := t.pxIdx } ∧
        t.pxIdx.toNat = s.pxIdx.toNat + j ∧
      ∀ i : Nat, t.px[i]? = if s.pxIdx.toNat ≤ i ∧
          i < s.pxIdx.toNat + j then s.stream[s.cursor + (i - s.pxIdx.toNat)]? else s.px[i]? := by
  intro j
  induction j with
  | zero => intro s hh hf h1 h2; exact ⟨s, rfl, rfl, rfl, fun i => by rw [if_neg (by omega)]⟩
  | succ j ih =>
    intro s hh hf h1 h2
    have h31 := pixelBytes_le s
    obtain ⟨b, hb⟩ : ∃ b, s.stream[s.cursor]? = some b := ⟨_, List.getElem?_eq_getElem (by omega)⟩
    have h3 := step_midPixel hh hf hb (by omega)
    have hx : (s.pxIdx + 1).toNat = s.pxIdx.toNat + 1 := by simp [BitVec.toNat_add]; omega
    obtain ⟨t, h4, h5, h6, h7⟩ :=
      ih (receiveMidPixel b s.consumed) hh hf (by show (s.pxIdx + 1).toNat + j < s.pixelBytes; omega)
            (by show s.cursor + 1 + j ≤ s.stream.length; omega)
    refine ⟨t, by rw [runSteps_succ, h3]; exact h4, ?_, ?_, ?_⟩
    · rw [h5]; simp only [receiveMidPixel, receivePixelByte]; rw [show s.cursor + 1 + j = s.cursor + (j + 1) by omega]
    · rw [h6]; show (s.pxIdx + 1).toNat + j = _; omega
    · intro i
      rw [h7]
      show (if (s.pxIdx + 1).toNat ≤ i ∧
          i < (s.pxIdx + 1).toNat + j then s.stream[s.cursor + 1 + (i - (s.pxIdx + 1).toNat)]? else (s.px.setIfInBounds s.pxIdx.toNat b)[i]?) = _
      rw [hx]
      by_cases e : i = s.pxIdx.toNat
      · subst e
        rw [if_neg (by omega), if_pos (by omega), (px_received s b (by omega)).1, Nat.sub_self, Nat.add_zero, hb]
      · rw [(px_received s b (by omega)).2 i e]
        by_cases h : s.pxIdx.toNat + 1 ≤ i ∧ i < s.pxIdx.toNat + 1 + j
        · rw [if_pos h, if_pos (by omega)]; congr 1; omega
        · rw [if_neg h, if_neg (by omega)]

/-- A whole pixel: its bytes are in `px`, and what is left is what the record does with it. -/
theorem runSteps_pixel (s : State) (hh : s.host = []) (hf : s.phase.fetching = true) (hx : s.pxIdx = 0)
    (hpb : 1 ≤ s.pixelBytes) (hc : s.cursor + s.pixelBytes ≤ s.stream.length)
    (hr : 0 < s.runLeft.toNat) (hpos : s.pos.toNat < s.width.toNat) :
    ∃ u, u = { s with cursor := s.cursor + s.pixelBytes, px := u.px, pxIdx := u.pxIdx } ∧ (∀ j, j < s.pixelBytes →
        u.px[j]? = s.stream[s.cursor + j]?) ∧
      (s.phase = .repFetch → runSteps s.pixelBytes s = finishRep u) ∧ (s.phase = .litFetch →
          runSteps s.pixelBytes s = finishLitPixel u) := by
  have hx0 : s.pxIdx.toNat = 0 := by rw [hx]; rfl
  have h31 := pixelBytes_le s
  obtain ⟨t, h1, h2, h3, h4⟩ := runSteps_midPixels (s.pixelBytes - 1) s hh hf (by omega) (by omega)
  have htc : t.cursor = s.cursor + (s.pixelBytes - 1) := by rw [h2]
  have hts : t.stream = s.stream := by rw [h2]
  have htpb : t.pixelBytes = s.pixelBytes := by rw [h2]; rfl
  have htr : t.runLeft = s.runLeft := by rw [h2]
  have htp : t.pos = s.pos := by rw [h2]
  have htw : t.width = s.width := by rw [h2]
  have hth : t.host = [] := by rw [h2]; exact hh
  have htph : t.phase = s.phase := by rw [h2]
  obtain ⟨b, hb⟩ : ∃ b, s.stream[s.cursor + (s.pixelBytes - 1)]? = some b := ⟨_, List.getElem?_eq_getElem (by omega)⟩
  have hb' : t.stream[t.cursor]? = some b := by rw [hts, htc, hb]
  refine ⟨receivePixelByte b t.consumed, ?_, ?_, ?_, ?_⟩
  · have e : s.cursor + s.pixelBytes = s.cursor + (s.pixelBytes - 1) + 1 := by omega
    rw [e]
    clear h3 h4 htc hts htpb htr htp htw hth htph hb' h1
    revert h2
    generalize t.px = a
    generalize t.pxIdx = c
    intro h2; subst h2; rfl
  · intro j hj
    show (t.px.setIfInBounds t.pxIdx.toNat b)[j]? = _
    by_cases e : j = t.pxIdx.toNat
    · subst e; rw [(px_received t b (by omega)).1, ← hb]; congr 1; omega
    · rw [(px_received t b (by omega)).2 j e, h4, if_pos (by omega)]; congr 1; omega
  · intro hp
    rw [show s.pixelBytes = (s.pixelBytes - 1) + 1 by omega, runSteps_add, h1, andThen_next]
    rw [runSteps_succ, step_no_acts hth, transaction_repFetch (htph.trans hp), repFetch,
        fetchPayload_last hb' (by omega) (by rw [htr]; exact hr) (by rw [htp, htw]; exact hpos)]
    cases finishRep (receivePixelByte b t.consumed) <;> rfl
  · intro hp
    rw [show s.pixelBytes = (s.pixelBytes - 1) + 1 by omega, runSteps_add, h1, andThen_next]
    rw [runSteps_succ, step_no_acts hth, transaction_litFetch (htph.trans hp), litFetch,
        fetchPayload_last hb' (by omega) (by rw [htr]; exact hr) (by rw [htp, htw]; exact hpos)]
    cases finishLitPixel (receivePixelByte b t.consumed) <;> rfl

/-- A pixel that the stream cuts off. -/
theorem runSteps_cutPixel (s : State) (hh : s.host = []) (hf : s.phase.fetching = true) (hx : s.pxIdx = 0)
    (hc0 : s.cursor ≤ s.stream.length) (hc : s.stream.length < s.cursor + s.pixelBytes) :
    ∃ u, u = { s with cursor := s.stream.length, px := u.px, pxIdx := u.pxIdx } ∧
        runSteps (s.stream.length - s.cursor + 1) s = .next (endInPayload u) := by
  have hx0 : s.pxIdx.toNat = 0 := by rw [hx]; rfl
  obtain ⟨t, h1, h2, h3, h4⟩ := runSteps_midPixels (s.stream.length - s.cursor) s hh hf (by omega) (by omega)
  have htc : t.cursor = s.stream.length := by rw [h2]; show s.cursor + (s.stream.length - s.cursor) = _; omega
  have hts : t.stream = s.stream := by rw [h2]
  have hth : t.host = [] := by rw [h2]; exact hh
  have htph : t.phase = s.phase := by rw [h2]
  refine ⟨t, ?_, ?_⟩
  · rw [← htc]; conv_lhs => rw [h2]
    rw [htc]; congr 1; omega
  · rw [runSteps_add, h1, andThen_next, runSteps_succ, step_payloadEof hth (by rw [htph]; exact hf)
      (by rw [hts, htc]; simp)]
    rfl

/-- Where a pixel's byte lies depends on the byte order and the pixel size alone. -/
theorem byteAddress_congr {s u : State} (hb : u.build = s.build) (hp : u.bpp = s.bpp)
    (p j : Nat) : u.byteAddress p j = s.byteAddress p j := by
  simp only [State.byteAddress, State.pixelAddress, State.pixelBytes, hb, hp]

theorem storePixel_inLine {p : Nat} {s : State} (hp : p < s.width.toNat) (hcap : s.lineBytes ≤ s.build.lineBufBytes) :
    storePixel p s = .next { s with linebuf := Memory.writeBytes s.linebuf (p * s.pixelBytes) s.pixelSlot } :=
  storePixel_eq_next.mpr ⟨canStore_iff.mpr ⟨hp, hcap⟩, rfl⟩

/-- One turn of the store loops of R122 and R123, inside the line. -/
theorem storeHere_inLine {s : State} (hp : s.pos.toNat < s.width.toNat) (hcap : s.lineBytes ≤ s.build.lineBufBytes) :
    storeHere s = .go { s with
      linebuf := Memory.writeBytes s.linebuf (s.pos.toNat * s.pixelBytes) s.pixelSlot
      pos := s.posPlus 1 } := by
  simp only [storeHere, storePixel_inLine hp hcap, Flow.ofResult, Flow.bind]; rfl

end Sys2Proof.Machine
end

