-- ==== Sys2Proof/Tests/Slice0.lean ====
section
/-! SUPPORT. Tests on fixed values, their expected results from spec/95_test_vectors.md or worked out by hand from the rule
named, and for every obligation with hypotheses a witness that meets them. -/

namespace Sys2Proof.Tests

open Sys2Proof.Machine

/-! ## Small states -/

/-- A session of 3 by 2 pixels of one byte, a repeat byte due. -/
def atLine (bytes : List Byte) : State :=
  { State.reset with
    width := 3, height := 2, bpp := 8, phase := .lineHeader, stream := bytes }

/-- The same with the line's `LINE x1` done and `p` pixels of the line stored. -/
def atRun (p : Nat) (bytes : List Byte) : State :=
  { State.reset with
    width := 3, height := 2, bpp := 8, phase := .runHeader, stream := bytes, lineRepeat := 1,
    pos := BitVec.ofNat 32 p, linebuf := Memory.fill 0x01 [] 0 p }

/-- A session of 3 by 2 pixels of two bytes, in a `REP` with `n` copies to store at position `p`, byte `i` of the pixel due. -/
def inRep (n p i : Nat) (bytes : List Byte) : State :=
  { State.reset with
    width := 3, height := 2, bpp := 16, phase := .repFetch, stream := bytes, lineRepeat := 1, code := BitVec.ofNat 8 (n - 1),
    runLeft := BitVec.ofNat 8 n, pos := BitVec.ofNat 32 p, pxIdx := BitVec.ofNat 5 i, px := Vector.replicate 31 0x11,
    linebuf := Memory.fill 0x01 [] 0 (2 * p) }

/-- The same in a `LIT`. -/
def inLit (n p i : Nat) (bytes : List Byte) : State :=
  { inRep n p i bytes with
    phase := .litFetch, code := BitVec.ofNat 8 (257 - n) }

/-- A complete line `01 01 01` with `e` of its emissions left and `c` lines of the page's 2 delivered. -/
def atEmit (e c : Nat) : State :=
  { atRun 3 [] with
    phase := .emit, emitLeft := BitVec.ofNat 9 e, lineRepeat := BitVec.ofNat 9 e, currentLine := BitVec.ofNat 32 c,
    trace := (List.range c).map fun i => ⟨BitVec.ofNat 32 i, [0x01, 0x01, 0x01]⟩ }

/-- The same state with other acts of the host pending. -/
def withHost (acts : List HostAct) (s : State) : State := { s with host := acts }

/-- The same state in another phase. -/
def inPhase (p : Phase) (s : State) : State := { s with phase := p }

/-- The state after reset of a machine with a buffer of `n` bytes. -/
def smallBuffer (n : Nat) : State :=
  { State.reset with
    build := { Config.Build.default with lineBufBytes := n } }

/-- The answer is a next state with the property. -/
def nextHas (r : Result) (p : State → Bool) : Bool :=
  match r with
  | .next s => p s
  | .fault _ => false
  | .refused _ => false

/-! ## States that meet the invariants -/

theorem inv_atLine (bytes : List Byte) : Inv (atLine bytes) := by
  constructor <;>
    simp [atLine, State.reset, State.resetOf, State.configLegal, State.lineBytes, State.pixelBytes, State.bufRead, State.errorsAre,
      Memory.read, Config.Build.default, Phase.inLine, Phase.holdsLine, Phase.fetching]

theorem inv_reset_default : Inv State.reset := by
  constructor <;>
    simp [State.reset, State.resetOf, State.bufRead, Memory.read, State.errorsAre, Config.Build.default, Phase.inLine,
      Phase.holdsLine, Phase.fetching]

theorem inv_atRun (b : Byte) : Inv (atRun 0 [b]) := by
  constructor <;>
    simp [atRun, State.reset, State.resetOf, State.configLegal, State.lineBytes, State.pixelBytes, State.bufRead, State.errorsAre,
      State.pixelAddress, Memory.read, Memory.fill, Config.Build.default, Phase.inLine, Phase.holdsLine, Phase.fetching]

theorem inv_atEmit : Inv (atEmit 2 0) := by
  constructor
  case written =>
    intro _ a ha
    rw [show (atEmit 2 0).pixelAddress (atEmit 2 0).pos.toNat = 3 by decide] at ha
    have : a = 0 ∨ a = 1 ∨ a = 2 := by omega
    rcases this with rfl | rfl | rfl <;> decide
  case bufferFits =>
    intro a ha
    have h1 : (2 ^ 32 - 1) * 31 ≤ a := ha
    show Memory.read [(0, 0x01), (1, 0x01), (2, 0x01)] a = none
    simp only [Memory.read]
    rw [if_neg (by omega), if_neg (by omega), if_neg (by omega)]
  all_goals
    simp [atEmit, atRun, State.reset, State.resetOf, State.configLegal, State.lineBytes, State.pixelBytes, State.errorsAre,
      Config.Build.default, Phase.inLine, Phase.holdsLine, Phase.fetching, Memory.fill, Memory.write]

/-- Two states that agree on all that is live and differ in registers that are not. -/
theorem agree_dead_registers : AgreeOnLive (atLine [0x00]) { atLine [0x00] with pos := 7, code := 0x55, emitLeft := 3 } := by
  constructor <;> simp [atLine, State.reset, State.resetOf, State.errorsAre, Phase.holdsLine, Phase.inLine, Phase.fetching]

/-! ## WellFormed -/

/-- R83: `LIT` with `m = 0` would be the byte of `BLANK`. -/
theorem test_lit_zero_ill_formed : (Instr.lit 0).wellFormed = false := by decide

/-- R82, R83: everything else is a record. -/
theorem test_well_formed :
    (Instr.line 0xFF).wellFormed && (Instr.rep 0).wellFormed && (Instr.lit 1).wellFormed && Instr.blank.wellFormed = true := by
  decide

/-! ## Decoding and encoding: words written out bit by bit from R82 and R83 -/

theorem test_decode_line_bits : decode .lineHeader [0b10000001#8, 0x55] = .ok (.line 0b10000001#8, [0x55]) := by decide
theorem test_decode_rep_bits : decode .runHeader [0b00000101#8] = .ok (.rep 0b0000101#7, []) := by decide
theorem test_decode_lit_bits : decode .runHeader [0b11111101#8] = .ok (.lit 0b1111101#7, []) := by decide
theorem test_decode_blank_bits : decode .runHeader [0b10000000#8] = .ok (.blank, []) := by decide
theorem test_decode_nothing : decode .runHeader [] = .error .endOfStream := by decide
theorem test_encode_bits :
    encode (.line 0b10000001#8) = [0b10000001#8] ∧ encode (.rep 0b0000101#7) = [0b00000101#8] ∧
      encode (.lit 0b1111101#7) = [0b11111101#8] ∧ encode .blank = [0b10000000#8] := by decide

/-- The rows' words as the host numbers them; the row `LINE` has no word of its own (log 9). -/
theorem test_decode_table_words :
    decodeTableWord 8 0x05 = some (.rep 5) ∧ decodeTableWord 8 0x81 = some (.lit 1) ∧
      decodeTableWord 8 0x80 = some .blank ∧ decodeTableWord 0 0 = none := by decide

/-- P1 of 95_test_vectors.md: the records and their 20 bytes. -/
def bodyP1 : List LineRecord :=
  [⟨1, [repX 2 [0xFF, 0x00, 0x00], litX 2 [[0x00, 0xFF, 0x00], [0x00, 0x00, 0xFF]]]⟩,
   ⟨0, [repX 1 [0x10, 0x20, 0x30], .blank]⟩,
   ⟨0, [.blank]⟩]

theorem test_P1_bytes :
    encodeBody bodyP1 =
      [0x01, 0x01, 0xFF, 0x00, 0x00, 0xFF, 0x00, 0xFF, 0x00, 0x00, 0x00, 0xFF, 0x00, 0x00, 0x10, 0x20, 0x30, 0x80, 0x00,
        0x80] := by decide

/-- P1's output trace. -/
theorem test_P1_rows :
    renderBody Config.Build.default 4 3 4 bodyP1 =
      [[0xFF, 0x00, 0x00, 0xFF, 0x00, 0x00, 0x00, 0xFF, 0x00, 0x00, 0x00, 0xFF],
       [0xFF, 0x00, 0x00, 0xFF, 0x00, 0x00, 0x00, 0xFF, 0x00, 0x00, 0x00, 0xFF],
       [0x10, 0x20, 0x30, 0xFF, 0xFF, 0xFF, 0xFF, 0xFF, 0xFF, 0xFF, 0xFF, 0xFF],
       [0xFF, 0xFF, 0xFF, 0xFF, 0xFF, 0xFF, 0xFF, 0xFF, 0xFF, 0xFF, 0xFF, 0xFF]] := by decide

/-- The worked instance of 95_test_vectors.md section 4. -/
theorem test_round_trip_instance_bytes :
    encodeBody [⟨1, [repX 3 [0x01], litX 2 [[0x02], [0x03]], .blank]⟩, ⟨0, [litX 2 [[0x09], [0x08]], repX 4 [0x07], repX 1 [0x06]]⟩] =
      [0x01, 0x02, 0x01, 0xFF, 0x02, 0x03, 0x80, 0x00, 0xFF, 0x09, 0x08, 0x03, 0x07, 0x00, 0x06] := by decide

/-! ## One step -/

/-- V-LINE-1: `0xFF` is 256 repeats. -/
theorem test_line_unsigned :
    nextHas (step (atLine [0xFF, 0x00, 0xAA])) (fun t => t.lineRepeat == 256 && t.phase == .runHeader && t.cursor == 1) = true := by
  decide

/-- V-LINE-4, V-LINE-5: an empty stream under both policies. -/
theorem test_line_eof :
    nextHas (step (atLine [])) (fun t => t.phase == .failed && t.errWhere == .repeatByte && t.errKind == .truncatedStream) &&
      nextHas (step { atLine [] with
          build := { Config.Build.default with eofAtLineBoundaryIsError := false } })
        (fun t => t.phase == .endedShort && t.errWhere == .repeatByte && t.errKind == .none) = true := by
  decide

/-- V-REP-5: a reversed copy of a multi-byte pixel; V-REP-3: the clamp (bytes worked out for two-byte pixels by R52). -/
theorem test_rep_reversed_and_clamped :
    nextHas (step { inRep 128 1 1 [0x22] with
        build := { Config.Build.default with pixelByteReverse := true } })
      (fun t => t.linebuf == [(0, 0x01), (1, 0x01), (2, 0x22), (3, 0x11), (4, 0x22), (5, 0x11)] && t.phase == .emit && t.pos == 3)
      = true := by
  decide

/-- P2, step 2. -/
theorem test_rep_head :
    nextHas (step (atRun 0 [0x00, 0x01])) (fun t => t.phase == .repFetch && t.runLeft == 1 && t.code == 0x00 && t.pxIdx == 0)
      = true := by
  decide

/-- P2, steps 4 and 6: the head of a literal run of 4, and the pixel with which the line is full before the run is over. -/
theorem test_lit_head :
    nextHas (step (atRun 1 [0xFD, 0x02])) (fun t => t.phase == .litFetch && t.runLeft == 4 && t.code == 0xFD) = true := by
  decide

theorem test_lit_clamped :
    nextHas (step { atRun 2 [0x03] with
        phase := .litFetch, code := 0xFD, runLeft := 3 })
      (fun t => t.linebuf == [(0, 0x01), (1, 0x01), (2, 0x03)] && t.phase == .emit && t.runLeft == 2 && t.emitLeft == 1) = true := by
  decide

/-- V-BLANK-1's fill from `pos = 1`, one pixel shorter. -/
theorem test_blank_fills :
    nextHas (step (atRun 1 [0x80])) (fun t => t.linebuf == [(0, 0x01), (1, 0xFF), (2, 0xFF)] && t.phase == .emit && t.pos == 3)
      = true := by
  decide

/-- P2, steps 11 and 12. -/
theorem test_emit :
    nextHas (step (atEmit 200 0)) (fun t => t.phase == .emit && t.emitLeft == 199 && t.trace == [⟨0, [0x01, 0x01, 0x01]⟩]) &&
      nextHas (step (atEmit 199 1)) (fun t => t.phase == .done && t.emitLeft == 198 && t.currentLine == 2) = true := by
  decide

/-- V-START-1, V-START-5. -/
theorem test_start :
    nextHas (step (withHost [.start ⟨2, 1, 8, [0x00]⟩] State.reset)) (fun t => t.phase == .lineHeader && t.currentLine == 0) &&
      nextHas (step (withHost [.start ⟨2, 1, 8, [0x00]⟩] { inPhase .failed (atLine []) with errKind := .truncatedStream }))
        (fun t => t.phase == .lineHeader && t.errKind == .none) = true := by
  decide

/-- V-START-2, V-START-3. -/
theorem test_start_refused :
    step (withHost [.start ⟨0, 1, 8, []⟩] State.reset) = .refused .illegalConfiguration ∧
      step (withHost [.start ⟨2, 0, 8, []⟩] State.reset) = .refused .illegalConfiguration ∧
      step (withHost [.start ⟨2, 1, 0, []⟩] State.reset) = .refused .illegalConfiguration ∧
      step (withHost [.start ⟨2, 1, 12, []⟩] State.reset) = .refused .illegalConfiguration ∧
      step (withHost [.start ⟨2, 1, 8, []⟩] (atRun 0 [])) = .refused .startWhileBusy := by
  exact ⟨rfl, rfl, rfl, rfl, rfl⟩

/-- V-START-4, and a line that just fits. -/
theorem test_start_capacity :
    step (withHost [.start ⟨2, 1, 24, []⟩] (smallBuffer 5)) = .refused .illegalConfiguration ∧
      nextHas (step (withHost [.start ⟨2, 1, 24, []⟩] (smallBuffer 6))) (fun t => t.phase == .lineHeader) = true := by
  exact ⟨rfl, by decide⟩

/-- The first step after reset runs the record of a placed word (log 8). -/
theorem test_with_fetch_word :
    nextHas (step (State.reset.withFetchWord 8 0x81)) (fun t => t.phase == .litFetch && t.runLeft == 128) &&
      nextHas (step (State.reset.withFetchWord 8 0x05)) (fun t => t.phase == .repFetch && t.runLeft == 6) &&
      nextHas (step (State.reset.withFetchWord 8 0x80)) (fun t => t.phase == .emit && t.pos == 128) = true := by
  decide

/-! ## Witnesses: for each obligation with hypotheses, a state and operands that meet them, clause by clause -/

theorem witness_RepeatByteIsUnsigned :
    (atLine [0xFF]).host = [] ∧ (atLine [0xFF]).phase = .lineHeader ∧
      (atLine [0xFF]).stream[(atLine [0xFF]).cursor]? = some 0xFF := by decide

theorem witness_ControlByteClasses :
    s8 0x80 = -128 ∧ s8 0x00 = 0 ∧ s8 0x7F = 127 ∧ s8 0x81 = -127 ∧ s8 0xFF = -1 := by decide

theorem witness_DecodeOfEncode :
    (Instr.line 0x80).wellFormed = true ∧ (Instr.rep 127).wellFormed = true ∧ (Instr.lit 1).wellFormed = true ∧
      (Instr.lit 127).wellFormed = true ∧ Instr.blank.wellFormed = true := by decide

/-- The last line record overshoots the page, the `LIT` overshoots its line, and the page may be empty. -/
theorem witness_ParseOfEncodedBody :
    bodyFills 4 3 4 0 bodyP1 = true ∧ bodyFills 2 1 1 0 [⟨0xFF, [.lit 1 [[0x01], [0x02]]]⟩] = true ∧
      bodyFills 4 3 0 0 [] = true := by decide

theorem witness_ParsedBodyIsEncoded :
    parseBody 2 1 1 [0x00, 0x01, 0xAA, 0x77] = some ([⟨0x00, [.rep 1 [0xAA]]⟩], [0x77]) := by decide

theorem witness_RunRecordLength :
    (RunRecord.rep 5 [0x11, 0x22]).fits 3 2 0 = true ∧ (RunRecord.lit 127 [[0x01], [0x02]]).fits 3 1 1 = true ∧
      (RunRecord.lit 1 [[0x01]]).fits 3 1 2 = true ∧ RunRecord.blank.fits 3 1 2 = true := by decide

theorem witness_HardwareResetState : (withHost [.reset, .serve] (atRun 1 [0x00])).host = .reset :: [.serve] := by decide

/-- A configuration at the lower bounds of R10, and each phase START opens a session from. -/
theorem witness_StartOpensSession :
    (∀ p, p = Phase.idle ∨ p = .done ∨ p = .failed ∨ p = .endedShort →
      (withHost [.start ⟨1, 1, 8, []⟩] (inPhase p (atLine []))).host = .start ⟨1, 1, 8, []⟩ :: [] ∧
        (inPhase p (atLine [])).phase = p) ∧
      1 ≤ (1 : BitVec 32).toNat ∧ 8 ≤ (8 : BitVec 8).toNat ∧ (8 : BitVec 8).toNat % 8 = 0 ∧
      (1 : BitVec 32).toNat * ((8 : BitVec 8).toNat / 8) ≤ (atLine []).build.lineBufBytes :=
  ⟨fun _ _ => ⟨rfl, rfl⟩, by decide⟩

theorem witness_StartRefused :
    (withHost [.start ⟨2, 1, 8, []⟩] (atRun 0 [])).host = .start ⟨2, 1, 8, []⟩ :: [] ∧
      (atRun 0 []).phase.busy = true ∧ State.reset.phase.busy = false ∧ (12 : BitVec 8).toNat % 8 ≠ 0 ∧
      (7 : BitVec 8).toNat < 8 ∧ (smallBuffer 5).phase.busy = false ∧
      (smallBuffer 5).build.lineBufBytes < (2 : BitVec 32).toNat * ((24 : BitVec 8).toNat / 8) := by decide

theorem witness_LineBeginsLineRecord : (atLine [0x00]).phase = .lineHeader := by decide

theorem witness_EndOfStreamAtLineBoundary :
    (atLine []).host = [] ∧ (atLine []).phase = .lineHeader ∧ (atLine []).stream[(atLine []).cursor]? = none ∧
      (atLine []).build.eofAtLineBoundaryIsError = true ∧
      ({ (atLine []).build with eofAtLineBoundaryIsError := false } : Config.Build).eofAtLineBoundaryIsError = false := by
  decide

/-- The end of the stream; and each class of control byte at its bounds, on the last free position of the line. -/
theorem witness_ControlByteDispatch :
    (atRun 0 []).host = [] ∧ (atRun 0 []).phase = .runHeader ∧ (atRun 0 []).stream[(atRun 0 []).cursor]? = none ∧
      (∀ b : Byte, (atRun 2 [b]).host = [] ∧ (atRun 2 [b]).phase = .runHeader ∧
        (atRun 2 [b]).stream[(atRun 2 [b]).cursor]? = some b ∧ (atRun 2 [b]).pos.toNat < (atRun 2 [b]).width.toNat ∧
        (atRun 2 [b]).lineBytes ≤ (atRun 2 [b]).build.lineBufBytes) ∧
      s8 0x80 = -128 ∧ 0 ≤ s8 0x00 ∧ 0 ≤ s8 0x7F ∧ -127 ≤ s8 0x81 ∧ s8 0xFF ≤ -1 :=
  ⟨rfl, rfl, rfl, fun _ => ⟨rfl, rfl, rfl, show 2 < 3 by decide, show 3 * (8 / 8) ≤ (2 ^ 32 - 1) * 31 by decide⟩, by decide⟩

theorem witness_RepHeadLoadsRun : (atRun 0 []).phase = .runHeader := by decide

theorem witness_LitHeadLoadsRun : (1 : BitVec 7) ≠ 0 ∧ (atRun 0 []).phase = .runHeader := by decide

theorem witness_PixelByteReceived :
    (inRep 3 1 0 [0x22]).stream[(inRep 3 1 0 [0x22]).cursor]? = some 0x22 ∧
      (inRep 3 1 0 [0x22]).pxIdx.toNat + 1 < (inRep 3 1 0 [0x22]).pixelBytes ∧ (inRep 3 1 0 [0x22]).phase = .repFetch ∧
      (inLit 3 1 0 [0x22]).stream[(inLit 3 1 0 [0x22]).cursor]? = some 0x22 ∧
      (inLit 3 1 0 [0x22]).pxIdx.toNat + 1 < (inLit 3 1 0 [0x22]).pixelBytes ∧ (inLit 3 1 0 [0x22]).phase = .litFetch := by
  decide

/-- The run ends before the line, at its end, and past it. -/
theorem witness_RepStoresPixelCopies :
    ∀ n : Nat, n = 1 ∨ n = 2 ∨ n = 128 →
      (inRep n 1 1 [0x22]).phase = .repFetch ∧ (inRep n 1 1 [0x22]).stream[(inRep n 1 1 [0x22]).cursor]? = some 0x22 ∧
        (inRep n 1 1 [0x22]).pxIdx.toNat + 1 = (inRep n 1 1 [0x22]).pixelBytes ∧ 0 < (inRep n 1 1 [0x22]).runLeft.toNat ∧
        (inRep n 1 1 [0x22]).pos.toNat < (inRep n 1 1 [0x22]).width.toNat ∧
        (inRep n 1 1 [0x22]).lineBytes ≤ (inRep n 1 1 [0x22]).build.lineBufBytes := by
  rintro n (rfl | rfl | rfl) <;> decide

/-- The line's last pixel; the run's last; neither. -/
theorem witness_LitStoresPixel :
    ∀ n p : Nat, n = 3 ∧ p = 2 ∨ n = 1 ∧ p = 1 ∨ n = 3 ∧ p = 1 →
      (inLit n p 1 [0x22]).phase = .litFetch ∧ (inLit n p 1 [0x22]).stream[(inLit n p 1 [0x22]).cursor]? = some 0x22 ∧
        (inLit n p 1 [0x22]).pxIdx.toNat + 1 = (inLit n p 1 [0x22]).pixelBytes ∧ 0 < (inLit n p 1 [0x22]).runLeft.toNat ∧
        (inLit n p 1 [0x22]).pos.toNat < (inLit n p 1 [0x22]).width.toNat ∧
        (inLit n p 1 [0x22]).lineBytes ≤ (inLit n p 1 [0x22]).build.lineBufBytes := by
  rintro n p (⟨rfl, rfl⟩ | ⟨rfl, rfl⟩ | ⟨rfl, rfl⟩) <;> decide

/-- The clauses on the phase that follows, each reached. -/
theorem witness_LitStoresPixel_phases :
    nextHas (exec (.lit 1) (inLit 3 2 1 [0x22])) (fun t => t.pos == t.width) &&
      nextHas (exec (.lit 1) (inLit 1 1 1 [0x22])) (fun t => t.pos != t.width && t.runLeft == 0) &&
      nextHas (exec (.lit 1) (inLit 3 1 1 [0x22])) (fun t => t.pos != t.width && t.runLeft != 0) = true := by decide

theorem witness_BlankFillsRestOfLine :
    (atRun 2 [0x80]).phase = .runHeader ∧ (atRun 2 [0x80]).pos.toNat < (atRun 2 [0x80]).width.toNat ∧
      (atRun 2 [0x80]).lineBytes ≤ (atRun 2 [0x80]).build.lineBufBytes := by decide

theorem witness_BlankHasNoPayload :
    (atRun 0 [0x80]).host = [] ∧ (atRun 0 [0x80]).stream[(atRun 0 [0x80]).cursor]? = some 0x80 ∧
      (atRun 0 [0x80]).phase = .runHeader ∧ (atRun 0 [0x80]).pos.toNat < (atRun 0 [0x80]).width.toNat ∧
      (atRun 0 [0x80]).lineBytes ≤ (atRun 0 [0x80]).build.lineBufBytes := by decide

theorem witness_EndOfStreamInPixel :
    (inRep 3 1 1 []).stream[(inRep 3 1 1 []).cursor]? = none ∧ (inRep 3 1 1 []).phase = .repFetch ∧
      (inLit 3 1 1 []).stream[(inLit 3 1 1 []).cursor]? = none ∧ (inLit 3 1 1 []).phase = .litFetch := by decide

theorem witness_RecordStopsOutOfContext :
    (atRun 0 []).phase ≠ .lineHeader ∧ (atLine []).phase ≠ .runHeader ∧ (atLine []).phase ≠ .repFetch ∧
      (atLine []).phase ≠ .litFetch ∧ (atRun 3 []).phase = .runHeader ∧ (atRun 3 []).width.toNat ≤ (atRun 3 []).pos.toNat := by
  decide

/-- The registers no row covers: `px_idx` past the pixel, no run left, no room left, in a `REP` and in a `LIT`. -/
theorem witness_RecordStopsOutOfContext_registers :
    (inRep 1 1 2 [0x22]).stream[(inRep 1 1 2 [0x22]).cursor]? = some 0x22 ∧ (inRep 1 1 2 [0x22]).phase = .repFetch ∧
      (inRep 1 1 2 [0x22]).pixelBytes ≤ (inRep 1 1 2 [0x22]).pxIdx.toNat ∧
      (inRep 0 1 1 [0x22]).pxIdx.toNat + 1 = (inRep 0 1 1 [0x22]).pixelBytes ∧ (inRep 0 1 1 [0x22]).runLeft = 0 ∧
      (inLit 2 3 1 [0x22]).stream[(inLit 2 3 1 [0x22]).cursor]? = some 0x22 ∧ (inLit 2 3 1 [0x22]).phase = .litFetch ∧
      (inLit 2 3 1 [0x22]).pxIdx.toNat + 1 = (inLit 2 3 1 [0x22]).pixelBytes ∧
      (inLit 2 3 1 [0x22]).width.toNat ≤ (inLit 2 3 1 [0x22]).pos.toNat := by
  decide

/-- The same state of a machine with a buffer of `n` bytes. -/
def withBuffer (n : Nat) (s : State) : State :=
  { s with
    build := { s.build with lineBufBytes := n } }

/-- A line one byte longer than the buffer, with all else in order, in each of the three records. -/
theorem witness_RecordStopsOutOfContext_buffer :
    (∀ s : State, s = withBuffer 5 (inRep 1 1 1 [0x22]) ∨ s = withBuffer 5 (inLit 2 1 1 [0x22]) →
      s.stream[s.cursor]? = some 0x22 ∧ s.pxIdx.toNat + 1 = s.pixelBytes ∧ 0 < s.runLeft.toNat ∧
        s.pos.toNat < s.width.toNat ∧ s.build.lineBufBytes < s.lineBytes) ∧
      (withBuffer 5 (inRep 1 1 1 [0x22])).phase = .repFetch ∧ (withBuffer 5 (inLit 2 1 1 [0x22])).phase = .litFetch ∧
      (withBuffer 2 (atRun 1 [])).phase = .runHeader ∧
      (withBuffer 2 (atRun 1 [])).build.lineBufBytes < (withBuffer 2 (atRun 1 [])).lineBytes := by
  refine ⟨?_, by decide⟩
  rintro s (rfl | rfl) <;> decide

/-- A page of two-byte pixels, a control byte and its payload ahead. -/
def atRunTwoBytes (bytes : List Byte) : State := { atRun 1 bytes with bpp := 16 }

/-- The pixel is there; the stream ends inside it. -/
theorem witness_RepRecordWhole :
    (∀ bs : List Byte, bs = [0x7F, 0x11, 0x22] ∨ bs = [0x00, 0x11] →
      (atRunTwoBytes bs).host = [] ∧ (atRunTwoBytes bs).phase = .runHeader ∧
        (atRunTwoBytes bs).pos.toNat < (atRunTwoBytes bs).width.toNat ∧
        (atRunTwoBytes bs).lineBytes ≤ (atRunTwoBytes bs).build.lineBufBytes ∧ 1 ≤ (atRunTwoBytes bs).pixelBytes) ∧
      0 ≤ s8 0x7F ∧ 0 ≤ s8 0x00 ∧ 0 + 1 + 2 ≤ [(0x7F : Byte), 0x11, 0x22].length ∧ [(0x00 : Byte), 0x11].length < 0 + 1 + 2 := by
  refine ⟨?_, by decide⟩
  rintro bs (rfl | rfl) <;> decide

/-- A run the line clamps to its two free positions, all there; the stream ends in the second pixel. -/
theorem witness_LitRecordWhole :
    (∀ bs : List Byte, bs = [0x81, 0x11, 0x22, 0x33, 0x44] ∨ bs = [0x81, 0x11, 0x22, 0x33] →
      (atRunTwoBytes bs).host = [] ∧ (atRunTwoBytes bs).phase = .runHeader ∧
        (atRunTwoBytes bs).stream[(atRunTwoBytes bs).cursor]? = some 0x81 ∧
        ((2 : Nat) : Int) = min (-s8 0x81 + 1) ((atRunTwoBytes bs).width.toNat - (atRunTwoBytes bs).pos.toNat) ∧
        (atRunTwoBytes bs).pos.toNat < (atRunTwoBytes bs).width.toNat ∧
        (atRunTwoBytes bs).lineBytes ≤ (atRunTwoBytes bs).build.lineBufBytes ∧ 1 ≤ (atRunTwoBytes bs).pixelBytes) ∧
      -127 ≤ s8 0x81 ∧ s8 0x81 ≤ -1 ∧ 0 + 1 + 2 * 2 ≤ [(0x81 : Byte), 0x11, 0x22, 0x33, 0x44].length ∧
      [(0x81 : Byte), 0x11, 0x22, 0x33].length < 0 + 1 + 2 * 2 := by
  refine ⟨?_, by decide⟩
  rintro bs (rfl | rfl) <;> decide

/-- The page's last emission, the line's last, and one in between. -/
theorem witness_EmissionHandsScanline :
    (∀ e c : Nat, e = 2 ∧ c = 1 ∨ e = 1 ∧ c = 0 ∨ e = 2 ∧ c = 0 →
      (atEmit e c).host = [] ∧ (atEmit e c).phase = .emit ∧ 0 < (atEmit e c).emitLeft.toNat ∧
        (atEmit e c).currentLine.toNat < (atEmit e c).height.toNat) ∧
      ∀ a, a < (atEmit 2 0).lineBytes → ((atEmit 2 0).bufRead a).isSome = true := by
  refine ⟨?_, ?_⟩
  · rintro e c (⟨rfl, rfl⟩ | ⟨rfl, rfl⟩ | ⟨rfl, rfl⟩) <;> decide
  · decide

theorem witness_LineEmittedRepeatedly :
    Inv (atEmit 2 0) ∧ (atEmit 2 0).host = [] ∧ (atEmit 2 0).phase = .emit ∧
      2 = min (atEmit 2 0).emitLeft.toNat ((atEmit 2 0).height.toNat - (atEmit 2 0).currentLine.toNat) :=
  ⟨inv_atEmit, by decide⟩

theorem witness_StepRunsDecodedHead :
    (atLine [0x05]).host = [] ∧ (atLine [0x05]).phase = .lineHeader ∧
      decode .lineHeader (atLine [0x05]).ahead = .ok (.line 5, []) ∧ (atRun 0 [0x05]).host = [] ∧
      (atRun 0 [0x05]).phase = .runHeader ∧ decode .runHeader (atRun 0 [0x05]).ahead = .ok (.rep 5, []) := by decide

theorem witness_StepRunsRecordUnderWay :
    (inRep 1 0 0 []).host = [] ∧ (inRep 1 0 0 []).phase = .repFetch ∧ (inLit 2 0 0 []).host = [] ∧
      (inLit 2 0 0 []).phase = .litFetch := by decide

theorem witness_HostServesBlock :
    (atLine []).host = [] ∧ (withHost [.serve] (atLine [])).host = .serve :: [] ∧
      (withHost [.await] (atLine [])).host = .await :: [] ∧ (atLine []).phase.busy = true ∧
      (inPhase .done (withHost [.await] (atLine []))).phase.busy = false := by decide

theorem witness_BlockWaitsForStart :
    State.reset.host = [] ∧ State.reset.phase = .idle ∧ (inPhase .done State.reset).phase = .done ∧
      (inPhase .failed State.reset).phase = .failed ∧ (inPhase .endedShort State.reset).phase = .endedShort := by decide

theorem witness_RecordFrame :
    (∃ t, exec (.line 0) (atLine [0x00]) = .next t) ∧ (∃ t, exec (.rep 0) (atRun 0 [0x00]) = .next t) ∧
      (∃ t, exec (.rep 0) (inRep 3 1 1 [0x22]) = .next t) ∧ (∃ t, exec (.lit 1) (inLit 3 1 1 [0x22]) = .next t) ∧
      ∃ t, exec .blank (atRun 0 [0x80]) = .next t := ⟨⟨_, rfl⟩, ⟨_, rfl⟩, ⟨_, rfl⟩, ⟨_, rfl⟩, ⟨_, rfl⟩⟩

/-- For ConfigurationIsImmutable, CursorCountsBytesRead, CurrentLineCountsSinkCalls, PhaseFollowsTable, WritesStayInLine,
PolicyOnlyClassifies: a transaction of every kind of row. -/
theorem witness_transactions :
    (∃ t, transaction (atLine [0x00]) = .next t) ∧ (∃ t, transaction (atLine []) = .next t) ∧
      (∃ t, transaction (atRun 1 [0x80]) = .next t) ∧ (∃ t, transaction (inRep 3 1 1 [0x22]) = .next t) ∧
      (∃ t, transaction (inLit 3 1 0 [0x22]) = .next t) ∧ (∃ t, transaction (atEmit 2 0) = .next t) ∧
      ∃ t, transaction State.reset = .next t :=
  ⟨⟨_, rfl⟩, ⟨_, rfl⟩, ⟨_, rfl⟩, ⟨_, rfl⟩, ⟨_, rfl⟩, ⟨_, rfl⟩, ⟨_, rfl⟩⟩

theorem witness_CursorCountsBytesRead : ∃ t, start ⟨2, 1, 8, [0x00]⟩ State.reset = .next t := ⟨_, rfl⟩

theorem witness_DeliveredLinesStay :
    (∃ t, step (atEmit 2 0) = .next t) ∧ nextHas (step (atRun 0 [])) (fun t => t.phase == .failed) = true :=
  ⟨⟨_, rfl⟩, by decide⟩

/-- The three reads that can fail. -/
theorem witness_FailureIsPrecise :
    nextHas (transaction (atLine [])) (fun t => t.phase == .failed) && nextHas (transaction (atRun 1 [])) (fun t => t.phase == .failed) &&
      nextHas (transaction (inRep 3 1 1 [])) (fun t => t.phase == .failed) = true := by decide

/-- START and reset behind an `await`, and waiting: each answers a next state out of `FAILED`. -/
theorem witness_FailedSessionIsOver :
    (inPhase .failed State.reset).phase = .failed ∧
      (∃ t, step (withHost [.await, .start ⟨2, 1, 8, []⟩] (inPhase .failed State.reset)) = .next t ∧ t.phase = .lineHeader) ∧
      (∃ t, step (withHost [.await, .reset] (inPhase .failed State.reset)) = .next t ∧ t.phase = .idle) ∧
      ∃ t, step (withHost [.await, .serve] (inPhase .failed State.reset)) = .next t ∧ t.phase = .failed :=
  ⟨rfl, ⟨_, rfl, rfl⟩, ⟨_, rfl, rfl⟩, ⟨_, rfl, rfl⟩⟩

theorem witness_BufferStaysCanonical : (∃ t, step (atRun 1 [0x80]) = .next t) ∧ Memory.wf (atRun 1 [0x80]).linebuf :=
  ⟨⟨_, rfl⟩, by decide⟩

theorem witness_OnlyRunsWriteBuffer :
    nextHas (transaction (atRun 1 [0x80])) (fun t => t.linebuf != (atRun 1 [0x80]).linebuf) &&
      nextHas (transaction (inRep 3 1 1 [0x22])) (fun t => t.linebuf != (inRep 3 1 1 [0x22]).linebuf) = true := by decide

/-- The smallest buffer R11 admits. -/
theorem witness_ResetMeetsInvariants : 1 ≤ ({ Config.Build.default with lineBufBytes := 1 } : Config.Build).lineBufBytes := by
  decide

theorem witness_StepKeepsInvariants :
    Inv (atEmit 2 0) ∧ (∃ t, step (atEmit 2 0) = .next t) ∧ Inv (atRun 0 [0x80]) ∧ ∃ t, step (atRun 0 [0x80]) = .next t :=
  ⟨inv_atEmit, ⟨_, rfl⟩, inv_atRun _, ⟨_, rfl⟩⟩

/-- The states of the invariants in which a START is refused. -/
theorem witness_NoStepFaults :
    Inv (atRun 0 [0x80]) ∧ step (withHost [.start ⟨2, 1, 8, []⟩] (atRun 0 [0x80])) = .refused .startWhileBusy :=
  ⟨inv_atRun _, rfl⟩

theorem witness_DoneMeansWholePage :
    Inv (atLine []) ∧ Inv State.reset ∧ State.reset.host = [] ∧
      (∃ t, start ⟨1, 1, 8, [0x00, 0x80]⟩ State.reset = .next t ∧
        nextHas (runSteps 3 t) (fun u => u.phase == .done) = true ∧ nextHas (runSteps 2 t) (fun u => u.phase != .done) = true) :=
  ⟨inv_atLine _, inv_reset_default, rfl, _, rfl, by decide, by decide⟩

theorem witness_SessionEndsInTime : Inv (atLine [0x00]) ∧ (atLine [0x00]).host = [] ∧ (atLine [0x00]).phase.busy = true :=
  ⟨inv_atLine _, by decide⟩

theorem witness_StepsAgreeWithDecodePage :
    Inv (atLine [0x00, 0x80]) ∧ (atLine [0x00, 0x80]).host = [] ∧ (atLine [0x00, 0x80]).phase = .lineHeader :=
  ⟨inv_atLine _, by decide⟩

/-- Both clauses: a whole page and a stream that is too short. -/
theorem witness_SessionReadsTheParsedPage :
    Inv (atLine [0x01, 0x80, 0x77]) ∧ (atLine [0x01, 0x80, 0x77]).currentLine = 0 ∧
      parseBody 3 1 2 (atLine [0x01, 0x80, 0x77]).ahead = some ([⟨0x01, [.blank]⟩], [0x77]) ∧
      parseBody 3 1 2 (atLine [0x00, 0x80]).ahead = none :=
  ⟨inv_atLine _, by decide⟩

theorem witness_SessionRendersThePage :
    Inv (atLine [0x01, 0x80, 0x77]) ∧ (atLine [0x01, 0x80, 0x77]).host = [] ∧
      (atLine [0x01, 0x80, 0x77]).phase = .lineHeader ∧ (atLine [0x01, 0x80, 0x77]).currentLine = 0 ∧
      bodyFills (atLine [0x01, 0x80, 0x77]).width.toNat (atLine [0x01, 0x80, 0x77]).pixelBytes
        (atLine [0x01, 0x80, 0x77]).height.toNat 0 [⟨0x01, [.blank]⟩] = true ∧
      (atLine [0x01, 0x80, 0x77]).ahead = encodeBody [⟨0x01, [.blank]⟩] ++ [0x77] :=
  ⟨inv_atLine _, by decide⟩

theorem witness_StepReadsLiveStateOnly :
    Inv (atLine [0x00]) ∧ AgreeOnLive (atLine [0x00]) { atLine [0x00] with pos := 7, code := 0x55, emitLeft := 3 } ∧
      Inv { atLine [0x00] with pos := 7, code := 0x55, emitLeft := 3 } := by
  refine ⟨inv_atLine _, agree_dead_registers, ?_⟩
  constructor <;>
    simp [atLine, State.reset, State.resetOf, State.configLegal, State.lineBytes, State.pixelBytes, State.bufRead, State.errorsAre,
      Memory.read, Config.Build.default, Phase.inLine, Phase.holdsLine, Phase.fetching]

/-- One state after reset, the other with another line's bytes in the buffer and other registers. -/
theorem witness_SessionsAreIndependent :
    Inv (inPhase .done { atEmit 2 2 with currentLine := 2 }) ∧ (atEmit 2 2).build = State.reset.build ∧
      (atEmit 2 2).host = [] ∧
      ∃ t1 t2, start ⟨2, 1, 8, [0x00, 0x80]⟩ State.reset = .next t1 ∧
        start ⟨2, 1, 8, [0x00, 0x80]⟩ (inPhase .done { atEmit 2 2 with currentLine := 2 }) = .next t2 ∧
        nextHas (runSteps 3 t1) (fun u => u.phase == .done) = true := by
  refine ⟨?_, rfl, rfl, _, _, rfl, rfl, by decide⟩
  constructor
  case bufferFits =>
    intro a ha
    have h1 : (2 ^ 32 - 1) * 31 ≤ a := ha
    show Memory.read [(0, 0x01), (1, 0x01), (2, 0x01)] a = none
    simp only [Memory.read]
    rw [if_neg (by omega), if_neg (by omega), if_neg (by omega)]
  case traceEntries =>
    intro i e he
    match i, he with
    | 0, he => obtain rfl := Option.some.inj he; decide
    | 1, he => obtain rfl := Option.some.inj he; decide
    | n + 2, he => cases he
  all_goals
    simp [inPhase, atEmit, atRun, State.reset, State.resetOf, State.configLegal, State.lineBytes, State.pixelBytes, State.errorsAre,
      Config.Build.default, Phase.inLine, Phase.holdsLine, Phase.fetching, Memory.fill, Memory.write]

/-- All three terminal phases, and the error at each of the two kinds of column. -/
theorem witness_ReportOfTerminalPhase :
    Inv (inPhase .done { atEmit 2 2 with currentLine := 2 }) ∧ Inv (raiseTruncated 0 0 .repeatByte (atLine [])) ∧
      Inv (raiseTruncated 0 2 .controlByte { atRun 0 [] with pos := 2 }) ∧
      Inv (endShort { atLine [] with
        build := { Config.Build.default with eofAtLineBoundaryIsError := false } }) := by
  refine ⟨witness_SessionsAreIndependent.1, ?_, ?_, ?_⟩ <;> constructor <;>
    simp [raiseTruncated, endShort, atLine, atRun, State.reset, State.resetOf, State.configLegal, State.lineBytes,
      State.pixelBytes, State.bufRead, State.errorsAre, Memory.read, Memory.fill, Config.Build.default, Phase.inLine,
      Phase.holdsLine, Phase.fetching]

end Sys2Proof.Tests
end

/-! PROOF. The stream cursor (10_state.md R30): what a transaction does to it, row by row of 40_decode_session.md R105. -/

namespace Sys2Proof.Machine

/-- The phases in which a byte of the stream is due: a head byte or a payload byte (rows T1 to T12 of R105). -/
def Phase.readsStream (p : Phase) : Bool := p == .lineHeader || p.inLine

theorem Phase.readsStream_iff {p : Phase} : p.readsStream = true ↔
    p = .lineHeader ∨ p = .runHeader ∨ p = .repFetch ∨ p = .litFetch := by
  cases p <;> decide

theorem Phase.readsStream_eq_false_iff {p : Phase} : p.readsStream = false ↔
    p = .idle ∨ p = .emit ∨ p = .done ∨ p = .failed ∨ p = .endedShort := by
  cases p <;> decide

/-- One byte was read: the source had it, a read was due, and the cursor counts it. -/
def ByteRead (s t : State) : Prop :=
  t.cursor = s.cursor + 1 ∧ s.cursor < s.stream.length ∧ s.phase.readsStream = true

/-- No byte was read: the stream was at its end, or no read was due. -/
def NothingRead (s t : State) : Prop :=
  t.cursor = s.cursor ∧ (s.stream.length ≤ s.cursor ∨ s.phase.readsStream = false)

theorem byteRead_of_some {s t : State} {b : Byte} (hp : s.phase.readsStream = true)
    (hb : s.stream[s.cursor]? = some b) (ht : t.cursor = s.cursor + 1) : ByteRead s t :=
  ⟨ht, (List.getElem?_eq_some_iff.mp hb).1, hp⟩

theorem nothingRead_of_none {s t : State} (hb : s.stream[s.cursor]? = none) (ht : t.cursor = s.cursor) :
    NothingRead s t :=
  ⟨ht, .inl (List.getElem?_eq_none_iff.mp hb)⟩

/-- Every row of R105 reads one byte (T1, T4 to T6, T8 to T11) or none (T2, T3, T7, T12 at the stream's end, T13 and
waiting without a read). -/
theorem Row.byteRead_or_nothingRead {s t : State} (h : Row s t) : ByteRead s t ∨ NothingRead s t := by
  cases h with
  | line b hp hb | blank b hp hb | repHead b m hp hb | litHead b m hp hb =>
    exact .inl (byteRead_of_some (by rw [hp]; decide) hb rfl)
  | midPixel b hp hb => exact .inl (byteRead_of_some (Phase.readsStream_iff.mpr (.inr (.inr hp))) hb rfl)
  | repPixel b _ k hp hb hi hr hpos hcap hk hwf hst hfull hroom ht =>
    exact .inl (byteRead_of_some (by rw [hp]; decide) hb (by rw [ht]; rfl))
  | litPixel b _ hp hb hi hr hpos hcap hwf hst hfull hover hmore ht =>
    exact .inl (byteRead_of_some (by rw [hp]; decide) hb (by rw [ht]; rfl))
  | lineEofError hp hb | lineEofShort hp hb | runEof hp hb | payloadEof hp hb =>
    exact .inr (nothingRead_of_none hb rfl)
  | wait hp =>
    have hquiet : s.phase.readsStream = false := by rcases hp with hp | hp | hp | hp <;> rw [hp] <;> decide
    exact .inr ⟨rfl, .inr hquiet⟩
  | emission bytes _ hp hl hh hb hdone hover hmore ht =>
    exact .inr ⟨by rw [ht], .inr (by rw [hp]; decide)⟩

/-- Settles O35: START opens the session with the cursor at 0, and the rows of R105 divide into those that read one
byte and those that read none. -/
theorem cursorCountsBytesRead : Obligations.CursorCountsBytesRead := by
  unfold Obligations.CursorCountsBytesRead
  constructor
  · intro c s t h
    obtain ⟨-, -, rfl⟩ := start_eq_next.mp h
    exact openSession_cursor s c
  · intro s t h
    rcases (transaction_row h).byteRead_or_nothingRead with ⟨hcursor, hmore, hphase⟩ | ⟨hcursor, hwhy⟩
    · exact .inl ⟨hcursor, hmore, Phase.readsStream_iff.mp hphase⟩
    · exact .inr ⟨hcursor, hwhy.imp_right Phase.readsStream_eq_false_iff.mp⟩

end Sys2Proof.Machine

/-! PROOF. The head bytes of 30_encoding.md: the repeat byte's count (R82), and `BLANK`, which is its head byte alone and
ends its line (R89). -/

namespace Sys2Proof.Machine

/-- The count of a repeat byte never wraps: 9 bits hold 256, which an 8-bit count would read as 0 (R82). -/
theorem repeatCount_toNat (b : Byte) : (repeatCount b).toNat = b.toNat + 1 := by
  have hb : b.toNat < 256 := b.isLt
  have hfits : b.toNat + 1 < 2 ^ 9 := by omega
  exact (BitVec.toNat_ofNat _ _).trans (Nat.mod_eq_of_lt hfits)

/-- `LINE` in the phase it stands in (row T1 of R105). -/
theorem execLine_lineHeader {s : State} (hp : s.phase = .lineHeader) (r : BitVec 8) : exec (.line r) s =
    .next { s with lineRepeat := repeatCount r, pos := 0, phase := .runHeader } := by
  unfold exec execLine; rw [hp]

/-- A blank fill from a position in the line of a legal configuration succeeds, and changes the buffer alone (R53). -/
theorem blankFill_inLine {p : Nat} {s : State} (hp : p < s.width.toNat) (hcap : s.lineBytes ≤ s.build.lineBufBytes) :
    blankFill p s = .next { s with
      linebuf := Memory.fill s.build.blankByte s.linebuf (s.pixelAddress p) (s.lineBytes - s.pixelAddress p) } :=
  blankFill_eq_next.mpr ⟨canStore_iff.mpr ⟨hp, hcap⟩, rfl⟩

/-- `BLANK` where the line has room, in full (row T4 of R105): it reads no byte and goes to emission. -/
theorem execBlank_inLine {s : State} (hp : s.phase = .runHeader) (hpos : s.pos.toNat < s.width.toNat)
    (hcap : s.lineBytes ≤ s.build.lineBufBytes) : exec .blank s = .next (beginEmission { s with
      code := encodeHead .blank, pos := s.width
      linebuf := Memory.fill s.build.blankByte s.linebuf (s.pixelAddress s.pos.toNat)
        (s.lineBytes - s.pixelAddress s.pos.toNat) }) := by
  rw [execBlank_runHeader hp, blankFill_inLine (s := { s with code := encodeHead .blank }) hpos hcap]
  rfl

/-- Settles O2: the count fits its register, so it is the byte plus one, and the step in `LINE_HEADER` is row T1, which
loads it. -/
theorem repeatByteIsUnsigned : Obligations.RepeatByteIsUnsigned := by
  unfold Obligations.RepeatByteIsUnsigned
  constructor
  · intro b
    have hb : b.toNat < 256 := b.isLt
    have hcount := repeatCount_toNat b
    exact ⟨rfl, hcount, by omega, by omega⟩
  · intro s b hhost hphase hbyte
    rw [step_no_acts hhost, transaction_lineHeader hphase hbyte, execLine_lineHeader (s := s.consumed) hphase]
    exact ⟨_, rfl, repeatCount_toNat b⟩

/-- Settles O22: the head byte 0x80 is the whole record, and its one step, row T4, goes to emission. -/
theorem blankHasNoPayload : Obligations.BlankHasNoPayload := by
  unfold Obligations.BlankHasNoPayload
  refine ⟨rfl, ?_⟩
  intro s hhost hphase hbyte hpos hcap
  have hdecode : decodeControl 0x80 = .blank := rfl
  rw [step_no_acts hhost, transaction_runHeader hphase hbyte, hdecode,
    execBlank_inLine (s := s.consumed) hphase hpos hcap]
  exact ⟨_, rfl, rfl, rfl⟩

end Sys2Proof.Machine

/-! PROOF. The control byte of 42_pixel_runs.md: its dispatch by signed value (R120), and the `REP` record whole, its head
and its one pixel together (R122, R86). -/

namespace Sys2Proof.Machine

/-! ## The control byte and its fields -/

/-- The run length of a `REP` fits its register, which counts to 255 (R84, R127). -/
theorem repLength_toNat (m : BitVec 7) : (repLength m).toNat = m.toNat + 1 := by
  have hm : m.toNat < 128 := m.isLt
  exact (BitVec.toNat_ofNat _ _).trans (Nat.mod_eq_of_lt (by omega))

/-- The run length of a `LIT` fits its register (R84, R127). -/
theorem litLength_toNat (m : BitVec 7) : (litLength m).toNat = 129 - m.toNat :=
  (BitVec.toNat_ofNat _ _).trans (Nat.mod_eq_of_lt (by omega))

theorem decodeControl_of_eq_neg128 {b : Byte} (h : s8 b = -128) : decodeControl b = .blank := by
  obtain ⟨-, hd, -⟩ | ⟨hne, -⟩ | ⟨hne, -⟩ := decodeControl_cases b
  · exact hd
  · exact absurd h hne
  · exact absurd h hne

/-- The field of a `REP` is the control byte's value (R83). -/
theorem decodeControl_of_nonneg {b : Byte} (h : 0 ≤ s8 b) :
    ∃ m : BitVec 7, decodeControl b = .rep m ∧ (m.toNat : Int) = s8 b := by
  obtain ⟨hblank, -⟩ | ⟨-, -, m, hd, hlen, -⟩ | ⟨-, hneg, -⟩ := decodeControl_cases b
  · omega
  · rw [repLength_toNat] at hlen
    exact ⟨m, hd, by omega⟩
  · exact absurd h hneg

/-- The field of a `LIT` is the control byte's value without its sign bit (R83). -/
theorem decodeControl_of_neg {b : Byte} (hlo : -127 ≤ s8 b) (hhi : s8 b ≤ -1) :
    ∃ m : BitVec 7, decodeControl b = .lit m ∧ m ≠ 0 ∧ (m.toNat : Int) = 128 + s8 b := by
  obtain ⟨hblank, -⟩ | ⟨-, hpos, -⟩ | ⟨-, -, m, hd, hm, hlen, -⟩ := decodeControl_cases b
  · omega
  · omega
  · have hlt : m.toNat < 128 := m.isLt
    rw [litLength_toNat] at hlen
    exact ⟨m, hd, hm, by omega⟩

/-- No bit of a control byte is dropped (R83). -/
theorem encodeHead_decodeControl (b : Byte) : encodeHead (decodeControl b) = b := by
  obtain ⟨-, hd, hb⟩ | ⟨-, -, m, hd, -, hb⟩ | ⟨-, -, m, hd, -, -, hb⟩ := decodeControl_cases b
  · rw [hd, hb]; rfl
  · rw [hd, hb]
  · rw [hd, hb]

/-! ## The dispatch -/

/-- The step in `RUN_HEADER` consumes the control byte and runs the record it heads. -/
theorem step_runHeader {s : State} {b : Byte} (hh : s.host = []) (hp : s.phase = .runHeader)
    (hb : s.stream[s.cursor]? = some b) : step s = exec (decodeControl b) s.consumed := by
  rw [step_no_acts hh, transaction_runHeader hp hb]

/-- Whatever record runs in `RUN_HEADER`, it keeps its head byte in `code` (rows T4 to T6 of R105). -/
theorem exec_runHeader_code {i : Instr} {s t : State} (hp : s.phase = .runHeader) (h : exec i s = .next t) :
    t.code = encodeHead i := by
  cases i with
  | line r => simp [exec, execLine, hp] at h
  | rep m =>
    rw [execRep_runHeader hp] at h
    injection h with h; rw [← h]
  | lit m =>
    by_cases hm : m = 0
    · simp [exec, execLit, hm] at h
    · rw [execLit_runHeader hp hm] at h
      injection h with h; rw [← h]
  | blank =>
    rw [execBlank_runHeader hp] at h
    obtain ⟨u, hu, ht⟩ := andThen_eq_next.mp h
    obtain ⟨-, rfl⟩ := blankFill_eq_next.mp hu
    injection ht with ht; rw [← ht]; rfl

/-- The record a control byte heads always has a next state where the line is open and fits the buffer, and it reads no
further byte there (rows T4 to T6 of R105). -/
theorem exec_decodeControl_inLine (b : Byte) {s : State} (hp : s.phase = .runHeader)
    (hpos : s.pos.toNat < s.width.toNat) (hcap : s.lineBytes ≤ s.build.lineBufBytes) :
    ∃ t, exec (decodeControl b) s = .next t ∧ t.cursor = s.cursor := by
  cases hd : decodeControl b with
  | line r => exact absurd hd (decodeControl_ne_line b r)
  | rep m => exact ⟨_, execRep_runHeader hp m, rfl⟩
  | lit m => exact ⟨_, execLit_runHeader hp (decodeControl_lit_ne_zero hd), rfl⟩
  | blank => exact ⟨_, execBlank_inLine hp hpos hcap, rfl⟩

/-- Settles O15: the step runs the record that the byte decodes to, the three classes of R83 name it, and each of the rows
T4 to T6 keeps the byte in `code`. -/
theorem controlByteDispatch : Obligations.ControlByteDispatch := by
  unfold Obligations.ControlByteDispatch
  intro s hhost hphase
  constructor
  · intro heof
    rw [step_no_acts hhost, transaction_runHeader_eof hphase heof]
    rfl
  · intro b hbyte
    have hstep := step_runHeader hhost hphase hbyte
    have hcode : ∀ t, step s = .next t → t.code = b := fun t ht =>
      (exec_runHeader_code (s := s.consumed) hphase (hstep ▸ ht)).trans (encodeHead_decodeControl b)
    refine ⟨?blank, ?rep, ?lit, hcode, ?total⟩
    case blank =>
      intro h
      rw [hstep, decodeControl_of_eq_neg128 h]
    case rep =>
      intro h
      obtain ⟨m, hd, hm⟩ := decodeControl_of_nonneg h
      exact ⟨m, hm, by rw [hstep, hd]⟩
    case lit =>
      intro hlo hhi
      obtain ⟨m, hd, hne, hm⟩ := decodeControl_of_neg hlo hhi
      exact ⟨m, hne, hm, by rw [hstep, hd]⟩
    case total =>
      intro hpos hcap
      obtain ⟨t, ht, hcursor⟩ := exec_decodeControl_inLine b (s := s.consumed) hphase hpos hcap
      exact ⟨t, hstep.trans ht, hcode t (hstep.trans ht), hcursor⟩

/-! ## The end of a run record leaves alone all but the phase and `emit_left` (R125) -/

@[simp] theorem afterRun_cursor (q : State) : (afterRun q).cursor = q.cursor := by rw [afterRun_frame]
@[simp] theorem afterRun_px (q : State) : (afterRun q).px = q.px := by rw [afterRun_frame]
@[simp] theorem afterRun_pos (q : State) : (afterRun q).pos = q.pos := by rw [afterRun_frame]
@[simp] theorem afterRun_currentLine (q : State) : (afterRun q).currentLine = q.currentLine := by rw [afterRun_frame]
@[simp] theorem afterRun_trace (q : State) : (afterRun q).trace = q.trace := by rw [afterRun_frame]

theorem afterRun_errors (q : State) : (afterRun q).errorsAre q.errKind q.errWhere q.errRow q.errCol := by
  rw [afterRun_frame]; exact ⟨rfl, rfl, rfl, rfl⟩

/-! ## `REP` whole -/

/-- The state a `REP`'s head leaves, its control byte consumed (row T5 of R105). -/
abbrev State.repOpened (s : State) (m : BitVec 7) : State :=
  { s.consumed with code := encodeHead (.rep m), runLeft := repLength m, pxIdx := 0, phase := .repFetch }

/-- A control byte that is not negative opens a `REP`. -/
theorem step_repHead {s : State} {b : Byte} (hh : s.host = []) (hp : s.phase = .runHeader)
    (hb : s.stream[s.cursor]? = some b) (hs : 0 ≤ s8 b) :
    ∃ m : BitVec 7, (m.toNat : Int) = s8 b ∧ step s = .next (s.repOpened m) := by
  obtain ⟨m, hd, hm⟩ := decodeControl_of_nonneg hs
  exact ⟨m, hm, by rw [step_runHeader hh hp hb, hd, execRep_runHeader (s := s.consumed) hp]⟩

/-- The state with one more pixel consumed and in `px`. -/
abbrev State.pixelRead (s : State) (px : Vector Byte 31) (pxIdx : BitVec 5) : State :=
  { s with cursor := s.cursor + s.pixelBytes, px := px, pxIdx := pxIdx }

/-- The state after the stores of a `REP` (row T9 of R105), the buffer's new contents given. -/
abbrev State.repStored (s : State) (linebuf : Memory) : State :=
  { s with linebuf := linebuf, pos := s.posPlus (s.clamp s.runLeft.toNat), runLeft := 0 }

/-- The payload of a `REP` from its first byte on, the stream holding it: one pixel is read and stored as often as the run
asks and the line has room (R122, R124). -/
theorem runSteps_repPayload {s : State} (hh : s.host = []) (hp : s.phase = .repFetch) (hx : s.pxIdx = 0)
    (hpb : 1 ≤ s.pixelBytes) (hc : s.cursor + s.pixelBytes ≤ s.stream.length) (hr : 0 < s.runLeft.toNat)
    (hpos : s.pos.toNat < s.width.toNat) (hcap : s.lineBytes ≤ s.build.lineBufBytes) :
    ∃ px pxIdx lb, (∀ j, j < s.pixelBytes → px[j]? = s.stream[s.cursor + j]?) ∧
      RunStored (s.pixelRead px pxIdx) ((s.pixelRead px pxIdx).repStored lb) s.pos.toNat (s.clamp s.runLeft.toNat) ∧
      runSteps s.pixelBytes s = .next (afterRun ((s.pixelRead px pxIdx).repStored lb)) := by
  have hfetch : s.phase.fetching = true := by rw [hp]; rfl
  obtain ⟨u, hu, hpx, hrun, -⟩ := runSteps_pixel s hh hfetch hx hpb hc hr hpos
  generalize u.px = px at hu hpx
  generalize u.pxIdx = pxIdx at hu
  subst hu
  obtain ⟨lb, -, hstored, hfinish⟩ := finishRep_spec (s := s.pixelRead px pxIdx) hpos hcap
  exact ⟨px, pxIdx, lb, hpx, hstored.congr rfl, (hrun hp).trans hfinish⟩

/-- The payload of a `REP` that the stream cuts off: nothing is stored and the session ends (row T12 of R105). -/
theorem runSteps_repCut {s : State} (hh : s.host = []) (hp : s.phase = .repFetch) (hx : s.pxIdx = 0)
    (hc0 : s.cursor ≤ s.stream.length) (hc : s.stream.length < s.cursor + s.pixelBytes) :
    ∃ px pxIdx, runSteps (s.stream.length - s.cursor + 1) s =
      .next (endInPayload { s with cursor := s.stream.length, px := px, pxIdx := pxIdx }) := by
  have hfetch : s.phase.fetching = true := by rw [hp]; rfl
  obtain ⟨u, hu, hrun⟩ := runSteps_cutPixel s hh hfetch hx hc0 hc
  exact ⟨u.px, u.pxIdx, by rw [hrun, ← hu]⟩

/-- Settles O25: row T5 opens the record; then the payload's rows read its one pixel and store the clamped run, or meet the
stream's end inside the pixel. -/
theorem repRecordWhole : Obligations.RepRecordWhole := by
  unfold Obligations.RepRecordWhole
  intro s b hhost hphase hbyte hsign hpos hcap hpb
  obtain ⟨m, hm, hhead⟩ := step_repHead hhost hphase hbyte hsign
  have hrun : ∀ n, runSteps (1 + n) s = runSteps n (s.repOpened m) := fun n => by
    rw [Nat.add_comm, runSteps_succ, hhead, andThen_next]
  have hlen : (s.repOpened m).runLeft.toNat = m.toNat + 1 := repLength_toNat m
  constructor
  · intro hwhole
    obtain ⟨px, pxIdx, lb, hpx, hstored, hsteps⟩ :=
      runSteps_repPayload (s := s.repOpened m) hhost rfl rfl hpb hwhole (by omega) hpos hcap
    rw [hlen] at hstored
    have hclamp : (s.clamp (m.toNat + 1) : Int) = min (s8 b + 1) (s.width.toNat - s.pos.toNat) := by
      simp only [State.clamp]; omega
    have hlast := hstored.congr (afterRun_linebuf _)
    obtain ⟨hfull, hroom, -⟩ := afterRun_spec (((s.repOpened m).pixelRead px pxIdx).repStored lb)
    refine ⟨_, s.clamp (m.toNat + 1), hclamp, (hrun _).trans hsteps, afterRun_cursor _, ?px, ?copies, hlast.2, ?pos,
      ?full, ?room, afterRun_currentLine _, afterRun_trace _, afterRun_errors _⟩
    case px =>
      intro j hj
      rw [afterRun_px]
      exact hpx j hj
    case copies =>
      intro i j hi hj
      exact (hlast.bufRead_byte hi hj).trans (hpx j hj)
    case pos =>
      rw [afterRun_pos]
      simp only [hlen]
      exact posPlus_toNat (s := s) (clamp_le hpos.le _)
    case full =>
      intro h
      exact hfull ((afterRun_pos _).symm.trans h)
    case room =>
      intro h
      exact (hroom fun h' => h ((afterRun_pos _).trans h')).1
  · intro hcut
    have hread : s.cursor < s.stream.length := (List.getElem?_eq_some_iff.mp hbyte).1
    obtain ⟨px, pxIdx, hsteps⟩ := runSteps_repCut (s := s.repOpened m) hhost rfl rfl hread hcut
    rw [Nat.add_assoc, hrun]
    exact ⟨_, hsteps, rfl, ⟨rfl, rfl, rfl, rfl⟩, rfl, rfl, rfl, rfl, rfl⟩

end Sys2Proof.Machine

/-! PROOF. No head byte is invalid (60_exceptions.md R163): what the two decoders of 30_encoding.md give is a record of
their own context, and well-formed. -/

namespace Sys2Proof.Machine

/-- A control byte heads a run record (R81): never a `LINE`, and never the `LIT` with no pixels (R83). -/
theorem decodeControl_wellFormed_context (b : Byte) :
    (decodeControl b).wellFormed = true ∧ (decodeControl b).context = .runHeader := by
  cases hd : decodeControl b with
  | line r => exact absurd hd (decodeControl_ne_line b r)
  | rep m | blank => exact ⟨rfl, rfl⟩
  | lit m => exact ⟨bne_iff_ne.mpr (decodeControl_lit_ne_zero hd), rfl⟩

theorem decodeHead_wellFormed_context (c : Context) (b : Byte) :
    (decodeHead c b).wellFormed = true ∧ (decodeHead c b).context = c := by
  cases c with
  | lineHeader => exact ⟨rfl, rfl⟩
  | runHeader => exact decodeControl_wellFormed_context b

/-- Settles O4: the decoder of heads is total, and what it gives is well-formed and of the context it was read in. -/
theorem everyHeadByteDecodes : Obligations.EveryHeadByteDecodes := by
  unfold Obligations.EveryHeadByteDecodes
  intro c b rest
  exact ⟨decodeHead c b, rfl, decodeHead_wellFormed_context c b⟩

end Sys2Proof.Machine

/-! PROOF. What the sink was handed (60_exceptions.md R166): the calls of this session and of the earlier ones, which only
row T13 of 40_decode_session.md R105 adds to. -/

namespace Sys2Proof.Machine

/-- Every sink call so far, those of earlier sessions first. -/
abbrev State.delivered (s : State) : List Emission := s.earlier ++ s.trace

/-- One line was handed over: the block was emitting, and it did not fail by it. -/
def LineDelivered (s t : State) : Prop :=
  s.phase = .emit ∧ t.phase ≠ .failed ∧ ∃ e, t.delivered = s.delivered ++ [e]

/-- Every row of R105 but T13 hands nothing over; T13 hands over one line and goes to one of the three phases of R141 and
R143. -/
theorem Row.delivered_eq_or_lineDelivered {s t : State} (h : Row s t) :
    t.delivered = s.delivered ∨ LineDelivered s t := by
  cases h with
  | wait | line | lineEofError | lineEofShort | blank | repHead | litHead | runEof | midPixel | payloadEof =>
    exact .inl rfl
  | repPixel b _ k hp hb hi hr hpos hcap hk hwf hst hfull hroom ht => exact .inl (by rw [ht]; rfl)
  | litPixel b _ hp hb hi hr hpos hcap hwf hst hfull hover hmore ht => exact .inl (by rw [ht]; rfl)
  | emission bytes _ hp hl hh hb hdone hover hmore ht =>
    have hphase : t.phase ≠ .failed := by
      by_cases hpage : s.currentLine + 1 = s.height
      · rw [hdone hpage]; decide
      · by_cases hline : s.emitLeft - 1 = 0
        · rw [hover hpage hline]; decide
        · rw [hmore hpage hline]; decide
    exact .inr ⟨hp, hphase, ⟨s.currentLine, bytes⟩, by rw [ht]; exact (List.append_assoc ..).symm⟩

/-- START and hardware reset move the session's calls to the earlier ones; a transaction is a row of R105. -/
theorem step_delivered_eq_or_lineDelivered {s t : State} (h : step s = .next t) :
    t.delivered = s.delivered ∨ LineDelivered s t := by
  rcases step_cases h with ⟨c, rest, u, rfl, hstart⟩ | ⟨rest, rfl⟩ | ⟨rest, hrun⟩
  · obtain ⟨-, -, rfl⟩ := start_eq_next.mp hstart
    exact .inl (List.append_nil _)
  · exact .inl (List.append_nil _)
  · exact (transaction_row hrun).delivered_eq_or_lineDelivered

/-- Settles O37: a step hands over nothing, or one line after all the others, in `EMIT`, where the invariants have the line
complete. -/
theorem deliveredLinesStay : Obligations.DeliveredLinesStay := by
  unfold Obligations.DeliveredLinesStay
  intro s t h
  rcases step_delivered_eq_or_lineDelivered h with hsame | ⟨hemit, hphase, e, happend⟩
  · exact ⟨⟨[], (List.append_nil _).trans hsame.symm⟩, fun _ => hsame, fun hne => absurd hsame hne⟩
  · have hcomplete : Inv s → s.pos = s.width := fun hinv => hinv.posAtEnd (.inl hemit)
    exact ⟨⟨[e], happend.symm⟩, fun hfailed => absurd hfailed hphase, fun _ => ⟨hemit, hcomplete⟩⟩

end Sys2Proof.Machine

/-! PROOF. Independence of sessions (70_reset_and_hazards.md R191): a transaction of one state is matched by every state
that agrees with it on the live part, and two states after the same START agree on it. One rule per state operation says
that the operation keeps the agreement; a transaction is then matched row by row of 40_decode_session.md R105. -/

namespace Sys2Proof.Machine

theorem Phase.ne_idle_of_holdsLine {p : Phase} (h : p.holdsLine = true) : p ≠ .idle := by
  rintro rfl; cases h

theorem Phase.holdsLine_of_fetching {p : Phase} (h : p.fetching = true) : p.holdsLine = true := by
  revert h; cases p <;> decide

theorem Phase.fetching_of_payload {p : Phase} (h : p = .repFetch ∨ p = .litFetch) : p.fetching = true := by
  rcases h with rfl | rfl <;> rfl

section
variable {s t : State}

/-! ## What agreeing states have in common -/

theorem AgreeOnLive.byteAtCursor (h : AgreeOnLive s t) : t.stream[t.cursor]? = s.stream[s.cursor]? := by
  obtain ⟨hstream, hcursor⟩ := h.source
  rw [hstream, hcursor]

/-- The sizes of a pixel and of a line. -/
theorem AgreeOnLive.sizes (h : AgreeOnLive s t) (hne : s.phase ≠ .idle) :
    s.pixelBytes = t.pixelBytes ∧ s.lineBytes = t.lineBytes := by
  obtain ⟨hwidth, -, hbpp⟩ := h.config hne
  simp only [State.lineBytes, State.pixelBytes, hwidth, hbpp, and_self]

theorem AgreeOnLive.lineComplete (h : AgreeOnLive s t) (hl : s.phase.holdsLine = true) :
    s.lineComplete = t.lineComplete := by
  obtain ⟨hwidth, -, -⟩ := h.config (Phase.ne_idle_of_holdsLine hl)
  obtain ⟨hpos, -, -⟩ := h.line hl
  rw [State.lineComplete, State.lineComplete, hpos, hwidth]

/-- The line has room for a pixel at `pos`, and the buffer for the line, in both or in neither. -/
theorem AgreeOnLive.canStoreHere (h : AgreeOnLive s t) (hl : s.phase.holdsLine = true) :
    s.canStore s.pos.toNat = t.canStore t.pos.toNat := by
  have hne := Phase.ne_idle_of_holdsLine hl
  obtain ⟨hpos, -, -⟩ := h.line hl
  obtain ⟨hwidth, -, -⟩ := h.config hne
  obtain ⟨-, hline⟩ := h.sizes hne
  rw [State.canStore, State.canStore, hpos, hwidth, hline, h.build]

theorem AgreeOnLive.midPixelDue (h : AgreeOnLive s t) (hf : s.phase.fetching = true)
    (hm : s.pxIdx.toNat + 1 < s.pixelBytes) : t.pxIdx.toNat + 1 < t.pixelBytes := by
  obtain ⟨-, hidx, -⟩ := h.run hf
  obtain ⟨hpb, -⟩ := h.sizes (Phase.ne_idle_of_holdsLine (Phase.holdsLine_of_fetching hf))
  rw [← hidx, ← hpb]; exact hm

/-! ## The updates that end a record or the session -/

theorem AgreeOnLive.consumed (h : AgreeOnLive s t) : AgreeOnLive s.consumed t.consumed :=
  { h with source := ⟨h.source.1, congrArg (· + 1) h.source.2⟩ }

theorem AgreeOnLive.raiseTruncated (h : AgreeOnLive s t) (hne : s.phase ≠ .idle) (row col : BitVec 32)
    (at_ : ErrWhere) : AgreeOnLive (raiseTruncated row col at_ s) (raiseTruncated row col at_ t) :=
  { h with
    phase := rfl, errors := ⟨rfl, rfl, rfl, rfl⟩, config := fun _ => h.config hne
    line := nofun, run := nofun, emission := nofun }

theorem AgreeOnLive.endShort (h : AgreeOnLive s t) (hne : s.phase ≠ .idle) :
    AgreeOnLive (endShort s) (endShort t) :=
  { h with
    phase := rfl, errors := ⟨rfl, rfl, h.currentLine.symm, rfl⟩, config := fun _ => h.config hne
    line := nofun, run := nofun, emission := nofun }

theorem AgreeOnLive.endAtLineBoundary (h : AgreeOnLive s t) (hne : s.phase ≠ .idle) :
    AgreeOnLive (endAtLineBoundary s) (endAtLineBoundary t) := by
  unfold Machine.endAtLineBoundary
  rw [← h.build, ← h.currentLine]
  split
  · exact h.raiseTruncated hne _ _ _
  · exact h.endShort hne

theorem AgreeOnLive.endAtControlByte (h : AgreeOnLive s t) (hl : s.phase.holdsLine = true) :
    AgreeOnLive (endAtControlByte s) (endAtControlByte t) := by
  obtain ⟨hpos, -, -⟩ := h.line hl
  rw [Machine.endAtControlByte, Machine.endAtControlByte, ← h.currentLine, ← hpos]
  exact h.raiseTruncated (Phase.ne_idle_of_holdsLine hl) _ _ _

theorem AgreeOnLive.endInPayload (h : AgreeOnLive s t) (hl : s.phase.holdsLine = true) :
    AgreeOnLive (endInPayload s) (endInPayload t) := by
  obtain ⟨hpos, -, -⟩ := h.line hl
  rw [Machine.endInPayload, Machine.endInPayload, ← h.currentLine, ← hpos]
  exact h.raiseTruncated (Phase.ne_idle_of_holdsLine hl) _ _ _

theorem AgreeOnLive.nextRun (h : AgreeOnLive s t) (hl : s.phase.holdsLine = true) :
    AgreeOnLive { s with phase := .runHeader } { t with phase := .runHeader } :=
  { h with
    phase := rfl, config := fun _ => h.config (Phase.ne_idle_of_holdsLine hl), line := fun _ => h.line hl
    run := nofun, emission := nofun }

theorem AgreeOnLive.beginEmission (h : AgreeOnLive s t) (hl : s.phase.holdsLine = true) :
    AgreeOnLive (beginEmission s) (beginEmission t) := by
  obtain ⟨hpos, hrepeat, hbuf⟩ := h.line hl
  exact { h with
    phase := rfl, config := fun _ => h.config (Phase.ne_idle_of_holdsLine hl)
    line := fun _ => ⟨hpos, hrepeat, hbuf⟩, run := nofun, emission := fun _ => hrepeat }

theorem AgreeOnLive.afterRun (h : AgreeOnLive s t) (hl : s.phase.holdsLine = true) :
    AgreeOnLive (afterRun s) (afterRun t) := by
  unfold Machine.afterRun
  rw [← h.lineComplete hl]
  split
  · exact h.beginEmission hl
  · exact h.nextRun hl

theorem AgreeOnLive.afterLitPixel (h : AgreeOnLive s t) (hf : s.phase.fetching = true) :
    AgreeOnLive (afterLitPixel s) (afterLitPixel t) := by
  have hl := Phase.holdsLine_of_fetching hf
  obtain ⟨hrun, -, -⟩ := h.run hf
  unfold Machine.afterLitPixel
  rw [← h.lineComplete hl]
  split
  · exact h.beginEmission hl
  · by_cases hover : s.runLeft = 0
    · rw [if_pos hover, if_pos (hrun ▸ hover)]
      exact h.nextRun hl
    · rw [if_neg hover, if_neg (hrun ▸ hover)]
      exact h

/-! ## Head bytes -/

/-- Row T1: the record writes all that is live in its line, and the buffer holds none of it yet. -/
theorem AgreeOnLive.lineBegun (h : AgreeOnLive s t) (hne : s.phase ≠ .idle) (n : BitVec 9) :
    AgreeOnLive { s with lineRepeat := n, pos := 0, phase := .runHeader }
      { t with lineRepeat := n, pos := 0, phase := .runHeader } :=
  { h with
    phase := rfl, config := fun _ => h.config hne
    line := fun _ => ⟨rfl, rfl, fun a ha => absurd ha (by simp [State.pixelAddress])⟩
    run := nofun, emission := nofun }

/-- Rows T5 and T6: the head writes all that is live in its run, and no byte of a pixel has arrived yet. -/
theorem AgreeOnLive.runBegun (h : AgreeOnLive s t) (hl : s.phase.holdsLine = true) (code : Byte) (n : BitVec 8)
    {p : Phase} (hp : p.fetching = true) :
    AgreeOnLive { s with code := code, runLeft := n, pxIdx := 0, phase := p }
      { t with code := code, runLeft := n, pxIdx := 0, phase := p } :=
  { h with
    phase := rfl, config := fun _ => h.config (Phase.ne_idle_of_holdsLine hl), line := fun _ => h.line hl
    run := fun _ => ⟨rfl, rfl, fun j hj => absurd hj (Nat.not_lt_zero j)⟩
    emission := by rintro rfl; cases hp }

/-- The state whose line `BLANK` has filled up (row T4 of R105). -/
abbrev State.blanked (s : State) : State :=
  { s with
    code := encodeHead .blank, pos := s.width
    linebuf := Memory.fill s.build.blankByte s.linebuf (s.pixelAddress s.pos.toNat)
      (s.lineBytes - s.pixelAddress s.pos.toNat) }

theorem bufRead_blanked (s : State) {a : Nat} (ha : a < s.lineBytes) :
    s.blanked.bufRead a =
      if s.pixelAddress s.pos.toNat ≤ a then some s.build.blankByte else s.bufRead a := by
  refine (Memory.read_fill ..).trans (if_congr ?_ rfl rfl)
  omega

/-- The bytes below the old position agreed, and the others are blank in both. -/
theorem AgreeOnLive.blanked (h : AgreeOnLive s t) (hp : s.phase = .runHeader) :
    AgreeOnLive s.blanked t.blanked := by
  have hl : s.phase.holdsLine = true := by rw [hp]; rfl
  have hne := Phase.ne_idle_of_holdsLine hl
  obtain ⟨hpos, hrepeat, hbuf⟩ := h.line hl
  obtain ⟨hwidth, -, -⟩ := h.config hne
  obtain ⟨hpb, hline⟩ := h.sizes hne
  refine { h with line := fun _ => ⟨hwidth, hrepeat, fun a (ha : a < s.lineBytes) => ?_⟩ }
  have haddr : t.pixelAddress t.pos.toNat = s.pixelAddress s.pos.toNat := by
    rw [State.pixelAddress, State.pixelAddress, hpos, hpb]
  rw [bufRead_blanked s ha, bufRead_blanked t (hline ▸ ha), haddr, ← h.build]
  split
  · rfl
  · exact hbuf a (by omega)

/-! ## Payload bytes -/

/-- Once a payload byte has come in, `px` agrees up to it. -/
theorem AgreeOnLive.px_received (h : AgreeOnLive s t) (hf : s.phase.fetching = true) (b : Byte) :
    ∀ j, j < s.pxIdx.toNat + 1 → (receivePixelByte b s).px[j]? = (receivePixelByte b t).px[j]? := by
  intro j hj
  obtain ⟨-, hidx, hpx⟩ := h.run hf
  simp only [receivePixelByte_px, Vector.getElem?_setIfInBounds, ← hidx]
  split
  · rfl
  · exact hpx j (by omega)

theorem AgreeOnLive.receivePixelByte (h : AgreeOnLive s t) (hf : s.phase.fetching = true) (b : Byte) :
    AgreeOnLive (receivePixelByte b s) (receivePixelByte b t) := by
  obtain ⟨hrun, hidx, -⟩ := h.run hf
  exact { h with run := fun _ => ⟨hrun, hidx, fun j hj => h.px_received hf b j (Nat.lt_succ_of_lt hj)⟩ }

theorem AgreeOnLive.receiveMidPixel (h : AgreeOnLive s t) (hf : s.phase.fetching = true)
    (hm : s.pxIdx.toNat + 1 < s.pixelBytes) (b : Byte) :
    AgreeOnLive (receiveMidPixel b s) (receiveMidPixel b t) := by
  obtain ⟨hrun, hidx, -⟩ := h.run hf
  have h31 := pixelBytes_le s
  have hnext : (s.pxIdx + 1).toNat = s.pxIdx.toNat + 1 :=
    (BitVec.toNat_add ..).trans (Nat.mod_eq_of_lt (show s.pxIdx.toNat + 1 < 2 ^ 5 by omega))
  exact { h with
    run := fun _ => ⟨hrun, congrArg (· + 1) hidx, fun j hj => h.px_received hf b j (hnext ▸ hj)⟩ }

/-- Whole pixels that agree are stored alike. -/
theorem pixelSlot_congr (hbuild : s.build = t.build) (hpb : s.pixelBytes = t.pixelBytes)
    (hpx : ∀ j, j < s.pixelBytes → s.px[j]? = t.px[j]?) : s.pixelSlot = t.pixelSlot := by
  have htake : s.px.toList.take s.pixelBytes = t.px.toList.take t.pixelBytes := by
    refine List.ext_getElem? fun j => ?_
    rw [List.getElem?_take, List.getElem?_take, ← hpb]
    split
    · rw [Vector.getElem?_toList, Vector.getElem?_toList]; exact hpx j ‹_›
    · rfl
  rw [State.pixelSlot, State.pixelSlot, htake, hbuild]

/-- An address inside `m` pixels from position `p` on, as a byte of one of them. -/
theorem exists_pixel_of_address {p m a : Nat} (hlo : s.pixelAddress p ≤ a) (hhi : a < s.pixelAddress (p + m)) :
    ∃ i j, i < m ∧ j < s.pixelBytes ∧ a = s.pixelAddress (p + i) + j := by
  simp only [State.pixelAddress] at hlo hhi ⊢
  have hpb : 0 < s.pixelBytes := Nat.pos_of_ne_zero fun h0 => by simp [h0] at hhi
  have hfirst : p ≤ a / s.pixelBytes := (Nat.le_div_iff_mul_le hpb).mpr hlo
  have hlast : a / s.pixelBytes < p + m := (Nat.div_lt_iff_lt_mul hpb).mpr hhi
  refine ⟨a / s.pixelBytes - p, a % s.pixelBytes, by omega, Nat.mod_lt _ hpb, ?_⟩
  rw [Nat.add_sub_cancel' hfirst, Nat.div_add_mod']

/-- The same run stored in two buffers that agree below it. -/
theorem RunStored.agree {s' t' : State} {p m : Nat} (hs : RunStored s s' p m) (ht : RunStored t t' p m)
    (hpb : s.pixelBytes = t.pixelBytes) (hslot : s.pixelSlot = t.pixelSlot)
    (hbuf : ∀ a, a < s.pixelAddress p → s.bufRead a = t.bufRead a) :
    ∀ a, a < s.pixelAddress (p + m) → s'.bufRead a = t'.bufRead a := by
  intro a ha
  have haddr : ∀ q, t.pixelAddress q = s.pixelAddress q := fun q => by rw [State.pixelAddress, ← hpb]; rfl
  obtain ⟨hsIn, hsOut⟩ := hs
  obtain ⟨htIn, htOut⟩ := ht
  by_cases hlo : a < s.pixelAddress p
  · rw [hsOut a (.inl hlo), htOut a (.inl (haddr p ▸ hlo)), hbuf a hlo]
  · obtain ⟨i, j, hi, hj, rfl⟩ := exists_pixel_of_address (Nat.le_of_not_lt hlo) ha
    rw [hsIn i j hi hj, ← haddr, htIn i j hi (hpb ▸ hj), hslot]

/-- The state after the store of a `LIT`'s pixel (row T11 of R105), the buffer's new contents given. -/
abbrev State.litStored (s : State) (m : Memory) : State :=
  { s with linebuf := m, pos := s.posPlus 1, runLeft := s.runLeft - 1, pxIdx := 0 }

/-- What a line holds after `k` copies of the pixel in `px`: the part of the agreement that is the same for `REP` and
`LIT`. -/
theorem AgreeOnLive.line_of_runStored (h : AgreeOnLive s t) (hl : s.phase.holdsLine = true)
    (hslot : s.pixelSlot = t.pixelSlot) {k : Nat} (hk : s.pos.toNat + k ≤ s.width.toNat) {s' t' : State}
    (hs : RunStored s s' s.pos.toNat k) (ht : RunStored t t' t.pos.toNat k) :
    s.posPlus k = t.posPlus k ∧ s.lineRepeat = t.lineRepeat ∧
      ∀ a, a < s.pixelAddress (s.posPlus k).toNat → s'.bufRead a = t'.bufRead a := by
  obtain ⟨hpos, hrepeat, hbuf⟩ := h.line hl
  obtain ⟨hpb, -⟩ := h.sizes (Phase.ne_idle_of_holdsLine hl)
  rw [← hpos] at ht
  rw [posPlus_toNat hk]
  exact ⟨by rw [State.posPlus, State.posPlus, hpos], hrepeat, hs.agree ht hpb hslot hbuf⟩

theorem AgreeOnLive.repStored (h : AgreeOnLive s t) (hf : s.phase.fetching = true)
    (hslot : s.pixelSlot = t.pixelSlot) (hroom : s.pos.toNat < s.width.toNat) {m m' : Memory}
    (hs : RunStored s { s with linebuf := m } s.pos.toNat (s.clamp s.runLeft.toNat))
    (ht : RunStored t { t with linebuf := m' } t.pos.toNat (t.clamp t.runLeft.toNat)) :
    AgreeOnLive (s.repStored m) (t.repStored m') := by
  have hl := Phase.holdsLine_of_fetching hf
  obtain ⟨hrun, hidx, hpx⟩ := h.run hf
  have hclamp : t.clamp t.runLeft.toNat = s.clamp s.runLeft.toNat := by
    obtain ⟨hpos, -, -⟩ := h.line hl
    obtain ⟨hwidth, -, -⟩ := h.config (Phase.ne_idle_of_holdsLine hl)
    rw [State.clamp, State.clamp, hrun, hpos, hwidth]
  obtain ⟨hpos, hrepeat, hbuf⟩ := h.line_of_runStored hl hslot (clamp_le hroom.le _) hs (hclamp ▸ ht)
  exact { h with
    line := fun _ => ⟨hpos.trans (congrArg t.posPlus hclamp.symm), hrepeat, hbuf⟩
    run := fun _ => ⟨rfl, hidx, hpx⟩ }

theorem AgreeOnLive.litStored (h : AgreeOnLive s t) (hf : s.phase.fetching = true)
    (hslot : s.pixelSlot = t.pixelSlot) (hroom : s.pos.toNat < s.width.toNat) {m m' : Memory}
    (hs : RunStored s { s with linebuf := m } s.pos.toNat 1)
    (ht : RunStored t { t with linebuf := m' } t.pos.toNat 1) :
    AgreeOnLive (s.litStored m) (t.litStored m') := by
  obtain ⟨hrun, -, -⟩ := h.run hf
  exact { h with
    line := fun _ => h.line_of_runStored (Phase.holdsLine_of_fetching hf) hslot hroom hs ht
    run := fun _ => ⟨congrArg (· - 1) hrun, rfl, fun j hj => absurd hj (Nat.not_lt_zero j)⟩ }

/-! ## Emission -/

/-- The state after one sink call with `bytes` (row T13 of R105). -/
abbrev State.lineHanded (s : State) (bytes : List Byte) : State :=
  { s with
    trace := s.trace ++ [⟨s.currentLine, bytes⟩], currentLine := s.currentLine + 1, emitLeft := s.emitLeft - 1 }

theorem AgreeOnLive.lineHanded (h : AgreeOnLive s t) (hp : s.phase = .emit) (bytes : List Byte) :
    AgreeOnLive (s.lineHanded bytes) (t.lineHanded bytes) :=
  { h with
    currentLine := congrArg (· + 1) h.currentLine
    sink := by simp only [h.sink, h.currentLine]
    emission := fun _ => congrArg (· - 1) (h.emission hp) }

theorem AgreeOnLive.afterEmission (h : AgreeOnLive s t) (hp : s.phase = .emit) :
    AgreeOnLive (afterEmission s) (afterEmission t) := by
  have hne : s.phase ≠ .idle := by rw [hp]; decide
  have hconfig := h.config hne
  have hpage : s.pageComplete = t.pageComplete := by
    obtain ⟨-, hheight, -⟩ := hconfig
    rw [State.pageComplete, State.pageComplete, h.currentLine, hheight]
  unfold Machine.afterEmission
  rw [← hpage, ← h.emission hp]
  split
  · exact { h with phase := rfl, config := fun _ => hconfig, line := nofun, run := nofun, emission := nofun }
  · split
    · exact { h with phase := rfl, config := fun _ => hconfig, line := nofun, run := nofun, emission := nofun }
    · exact h

/-! ## The rows of R105 as equations, where the laws of the model give none -/

theorem transaction_wait (hp : s.phase = .idle ∨ s.phase = .done ∨ s.phase = .failed ∨ s.phase = .endedShort) :
    transaction s = .next s := by
  rcases hp with hp | hp | hp | hp <;> simp only [transaction, hp]

theorem transaction_fetching (hp : s.phase = .repFetch ∨ s.phase = .litFetch) :
    ∃ finish, transaction s = fetchPayload finish s := by
  rcases hp with hp | hp
  · exact ⟨finishRep, transaction_repFetch hp⟩
  · exact ⟨finishLitPixel, transaction_litFetch hp⟩

/-- The last byte of a pixel, `b`, is the next of the stream, and the line has room for the pixel (rows T9, T11). -/
structure LastByteDue (s : State) (b : Byte) : Prop where
  byte : s.stream[s.cursor]? = some b
  index : s.pxIdx.toNat + 1 = s.pixelBytes
  run : 0 < s.runLeft.toNat
  room : s.pos.toNat < s.width.toNat
  fits : s.lineBytes ≤ s.build.lineBufBytes

/-- Row T9. -/
theorem transaction_repPixel {b : Byte} (hp : s.phase = .repFetch) (hd : LastByteDue s b) :
    ∃ m, RunStored (receivePixelByte b s.consumed) { receivePixelByte b s.consumed with linebuf := m } s.pos.toNat
        (s.clamp s.runLeft.toNat) ∧
      transaction s = .next (afterRun ((receivePixelByte b s.consumed).repStored m)) := by
  obtain ⟨m, -, hst, hfinish⟩ := finishRep_spec (s := receivePixelByte b s.consumed) hd.room hd.fits
  exact ⟨m, hst, by
    rw [transaction_repFetch hp, repFetch, fetchPayload_last hd.byte hd.index hd.run hd.room, hfinish]⟩

/-- Row T11. -/
theorem transaction_litPixel {b : Byte} (hp : s.phase = .litFetch) (hd : LastByteDue s b) :
    ∃ m, RunStored (receivePixelByte b s.consumed) { receivePixelByte b s.consumed with linebuf := m } s.pos.toNat 1 ∧
      transaction s = .next (afterLitPixel ((receivePixelByte b s.consumed).litStored m)) := by
  obtain ⟨m, -, hst, hfinish⟩ := finishLitPixel_spec (s := receivePixelByte b s.consumed) hd.room hd.fits
  exact ⟨m, hst, by
    rw [transaction_litFetch hp, litFetch, fetchPayload_last hd.byte hd.index hd.run hd.room, hfinish]⟩

/-- Row T13. -/
theorem transaction_emission {bytes : List Byte} (hp : s.phase = .emit) (hl : 0 < s.emitLeft.toNat)
    (hh : s.currentLine.toNat < s.height.toNat) (hb : Memory.readBytes s.linebuf 0 s.lineBytes = some bytes) :
    transaction s = .next (afterEmission (s.lineHanded bytes)) := by
  rw [transaction_emit hp, emitLine, if_pos (emissionDue_iff.mpr ⟨hl, hh⟩), sinkAccept_eq_next.mpr ⟨bytes, hb, rfl⟩,
    andThen_next]

/-! ## A transaction is matched -/

theorem AgreeOnLive.lastByteDue (h : AgreeOnLive s t) (hf : s.phase.fetching = true) {b : Byte}
    (hd : LastByteDue s b) : LastByteDue t b := by
  have hl := Phase.holdsLine_of_fetching hf
  have hne := Phase.ne_idle_of_holdsLine hl
  obtain ⟨hrun, hidx, -⟩ := h.run hf
  obtain ⟨hpos, -, -⟩ := h.line hl
  obtain ⟨hwidth, -, -⟩ := h.config hne
  obtain ⟨hpb, hline⟩ := h.sizes hne
  exact ⟨h.byteAtCursor.trans hd.byte, hidx ▸ hpb ▸ hd.index, hrun ▸ hd.run, hpos ▸ hwidth ▸ hd.room,
    hline ▸ h.build ▸ hd.fits⟩

/-- With its last byte the pixel in `px` is whole, and the buffer is to take the same bytes. -/
theorem AgreeOnLive.pixelSlot_received (h : AgreeOnLive s t) (hf : s.phase.fetching = true) {b : Byte}
    (hi : s.pxIdx.toNat + 1 = s.pixelBytes) :
    (Machine.receivePixelByte b s).pixelSlot = (Machine.receivePixelByte b t).pixelSlot := by
  obtain ⟨hpb, -⟩ := h.sizes (Phase.ne_idle_of_holdsLine (Phase.holdsLine_of_fetching hf))
  refine pixelSlot_congr h.build hpb fun j hj => h.px_received hf b j ?_
  rw [hi]; exact hj

theorem AgreeOnLive.exists_repPixel (h : AgreeOnLive s t) (hp : s.phase = .repFetch) {b : Byte}
    (hd : LastByteDue s b) {s' : State} (hs : transaction s = .next s') :
    ∃ t', transaction t = .next t' ∧ AgreeOnLive s' t' := by
  have hf : s.phase.fetching = true := by rw [hp]; rfl
  obtain ⟨m, hstored, hnext⟩ := transaction_repPixel hp hd
  obtain ⟨m', hstored', hnext'⟩ := transaction_repPixel (h.phase ▸ hp) (h.lastByteDue hf hd)
  obtain rfl := Host.Outcome.next.inj (hs.symm.trans hnext)
  have hagree := (h.consumed.receivePixelByte hf b).repStored hf (h.consumed.pixelSlot_received hf hd.index) hd.room
    hstored hstored'
  exact ⟨_, hnext', hagree.afterRun (Phase.holdsLine_of_fetching hf)⟩

theorem AgreeOnLive.exists_litPixel (h : AgreeOnLive s t) (hp : s.phase = .litFetch) {b : Byte}
    (hd : LastByteDue s b) {s' : State} (hs : transaction s = .next s') :
    ∃ t', transaction t = .next t' ∧ AgreeOnLive s' t' := by
  have hf : s.phase.fetching = true := by rw [hp]; rfl
  obtain ⟨m, hstored, hnext⟩ := transaction_litPixel hp hd
  obtain ⟨m', hstored', hnext'⟩ := transaction_litPixel (h.phase ▸ hp) (h.lastByteDue hf hd)
  obtain rfl := Host.Outcome.next.inj (hs.symm.trans hnext)
  have hagree := (h.consumed.receivePixelByte hf b).litStored hf (h.consumed.pixelSlot_received hf hd.index) hd.room
    hstored hstored'
  exact ⟨_, hnext', hagree.afterLitPixel hf⟩

/-- A complete line is handed over alike: all of it lies below `pos`, where the buffers agree. -/
theorem AgreeOnLive.exists_emission (h : AgreeOnLive s t) (hp : s.phase = .emit) (hfull : s.pos = s.width)
    {bytes : List Byte} (hl : 0 < s.emitLeft.toNat) (hh : s.currentLine.toNat < s.height.toNat)
    (hb : Memory.readBytes s.linebuf 0 s.lineBytes = some bytes) {s' : State} (hs : transaction s = .next s') :
    ∃ t', transaction t = .next t' ∧ AgreeOnLive s' t' := by
  have hne : s.phase ≠ .idle := by rw [hp]; decide
  obtain ⟨-, -, hbuf⟩ := h.line (by rw [hp]; rfl)
  obtain ⟨-, hheight, -⟩ := h.config hne
  obtain ⟨-, hline⟩ := h.sizes hne
  rw [hfull] at hbuf
  have hb' : Memory.readBytes t.linebuf 0 t.lineBytes = some bytes := by
    rw [← hline, ← hb]
    exact (Memory.readBytes_congr fun a ha => hbuf _ ((Nat.zero_add a).symm ▸ ha)).symm
  obtain rfl := Host.Outcome.next.inj (hs.symm.trans (transaction_emission hp hl hh hb))
  refine ⟨_, transaction_emission (h.phase ▸ hp) (h.emission hp ▸ hl) ?_ hb',
    (h.lineHanded hp bytes).afterEmission hp⟩
  rw [← h.currentLine, ← hheight]; exact hh

/-- R66: whatever a transaction answers, a state that agrees on the live part answers it too, and agrees again. The one
invariant this rests on is that a line is complete while it is emitted (R33 item 2). -/
theorem AgreeOnLive.exists_transaction (h : AgreeOnLive s t) (hfull : s.phase = .emit → s.pos = s.width) {s' : State}
    (hs : transaction s = .next s') : ∃ t', transaction t = .next t' ∧ AgreeOnLive s' t' := by
  have hbyte := h.byteAtCursor
  have hphase : ∀ {p}, s.phase = p → t.phase = p := fun hp => h.phase.symm.trans hp
  have hholds : ∀ {p}, s.phase = p → p.holdsLine = true → s.phase.holdsLine = true := fun hp hl => hp ▸ hl
  cases transaction_row hs with
  | wait hp => exact ⟨t, transaction_wait (h.phase ▸ hp), h⟩
  | line b hp hb =>
    have hnext : transaction t = _ := transaction_lineHeader (hphase hp) (hbyte.trans hb)
    rw [execLine_lineHeader (s := t.consumed) (hphase hp)] at hnext
    exact ⟨_, hnext, h.consumed.lineBegun (by rw [hp]; decide) _⟩
  | lineEofError hp hb hc | lineEofShort hp hb hc =>
    have hend := Host.Outcome.next.inj (hs.symm.trans (transaction_lineHeader_eof hp hb))
    rw [hend]
    exact ⟨_, transaction_lineHeader_eof (hphase hp) (hbyte.trans hb), h.endAtLineBoundary (by rw [hp]; decide)⟩
  | blank b hp hb hd hc =>
    have hl := hholds hp rfl
    obtain ⟨hroom, hfits⟩ := canStore_iff.mp ((h.canStoreHere hl).symm.trans hc)
    have hnext : transaction t = _ := transaction_runHeader (hphase hp) (hbyte.trans hb)
    rw [hd, execBlank_inLine (s := t.consumed) (hphase hp) hroom hfits] at hnext
    exact ⟨_, hnext, (h.consumed.blanked hp).beginEmission hl⟩
  | repHead b m hp hb hd =>
    have hnext : transaction t = _ := transaction_runHeader (hphase hp) (hbyte.trans hb)
    rw [hd, execRep_runHeader (s := t.consumed) (hphase hp)] at hnext
    exact ⟨_, hnext, h.consumed.runBegun (hholds hp rfl) _ _ rfl⟩
  | litHead b m hp hb hd hm =>
    have hnext : transaction t = _ := transaction_runHeader (hphase hp) (hbyte.trans hb)
    rw [hd, execLit_runHeader (s := t.consumed) (hphase hp) hm] at hnext
    exact ⟨_, hnext, h.consumed.runBegun (hholds hp rfl) _ _ rfl⟩
  | runEof hp hb =>
    exact ⟨_, transaction_runHeader_eof (hphase hp) (hbyte.trans hb), h.endAtControlByte (hholds hp rfl)⟩
  | midPixel b hp hb hm =>
    have hf := Phase.fetching_of_payload hp
    obtain ⟨finish, hfetch⟩ := transaction_fetching (h.phase ▸ hp)
    exact ⟨_, hfetch.trans (fetchPayload_mid (hbyte.trans hb) (h.midPixelDue hf hm)), h.consumed.receiveMidPixel hf hm b⟩
  | repPixel b _ k hp hb hi hr hpos hcap => exact h.exists_repPixel hp ⟨hb, hi, hr, hpos, hcap⟩ hs
  | litPixel b _ hp hb hi hr hpos hcap => exact h.exists_litPixel hp ⟨hb, hi, hr, hpos, hcap⟩ hs
  | payloadEof hp hb =>
    obtain ⟨finish, hfetch⟩ := transaction_fetching (h.phase ▸ hp)
    exact ⟨_, hfetch.trans (fetchPayload_eof (hbyte.trans hb)),
      h.endInPayload (Phase.holdsLine_of_fetching (Phase.fetching_of_payload hp))⟩
  | emission bytes _ hp hl hh hb => exact h.exists_emission hp (hfull hp) hl hh hb hs

/-! ## Along a session -/

theorem Row.host (h : Row s t) : t.host = s.host := by
  cases h with
  | wait | line | lineEofError | lineEofShort | blank | repHead | litHead | runEof | midPixel | payloadEof => rfl
  | repPixel b _ k hp hb hi hr hpos hcap hk hwf hst hfull hroom ht => rw [ht]; rfl
  | litPixel b _ hp hb hi hr hpos hcap hwf hst hfull hover hmore ht => rw [ht]; rfl
  | emission bytes _ hp hl hh hb hdone hover hmore ht => rw [ht]

/-- R33 item 2: only the end of the line leads to emission (R125), and an emission leaves `pos` alone. -/
theorem Row.lineComplete_of_emit (h : Row s t) (hfull : s.phase = .emit → s.pos = s.width) (ht : t.phase = .emit) :
    t.pos = t.width := by
  cases h with
  | wait hp => exact hfull ht
  | blank => rfl
  | line | lineEofError | lineEofShort | repHead | litHead | runEof | payloadEof => cases ht
  | midPixel b hp hb hm =>
    have hf := Phase.fetching_of_payload hp
    rw [show s.phase = .emit from ht] at hf; cases hf
  | repPixel b _ k hp hb hi hr hpos hcap hk hwf hst hend hroom hframe =>
    have hcomplete : s.posPlus k = s.width := by
      by_contra hne
      rw [(hroom hne).1] at ht; cases ht
    rw [hframe]; exact hcomplete
  | litPixel b _ hp hb hi hr hpos hcap hwf hst hend hover hmore hframe =>
    have hcomplete : s.posPlus 1 = s.width := by
      by_contra hne
      by_cases hlast : s.runLeft - 1 = 0
      · rw [(hover hne hlast).1] at ht; cases ht
      · rw [(hmore hne hlast).1] at ht; cases ht
    rw [hframe]; exact hcomplete
  | emission bytes _ hp hl hh hb hdone hover hmore hframe => rw [hframe]; exact hfull hp

/-- With no act of the host pending, agreeing states run alike for ever. -/
theorem AgreeOnLive.exists_runSteps (k : Nat) (h : AgreeOnLive s t) (hhost : s.host = [])
    (hfull : s.phase = .emit → s.pos = s.width) {u : State} (hu : runSteps k s = .next u) :
    ∃ v, runSteps k t = .next v ∧ AgreeOnLive u v := by
  induction k generalizing s t with
  | zero =>
    obtain rfl := Host.Outcome.next.inj hu
    exact ⟨t, rfl, h⟩
  | succ k ih =>
    rw [runSteps_succ] at hu ⊢
    obtain ⟨s', hs, hrun⟩ := andThen_eq_next.mp hu
    rw [step_no_acts hhost] at hs
    obtain ⟨t', ht, hagree⟩ := h.exists_transaction hfull hs
    have hrow := transaction_row hs
    rw [step_no_acts (h.host ▸ hhost), ht, andThen_next]
    exact ih hagree (hrow.host.trans hhost) (hrow.lineComplete_of_emit hfull) hrun

/-- START writes everything that is live in `LINE_HEADER` (R101), so what it is given matters by its parameters and its
host alone. -/
theorem agreeOnLive_openSession (c : Page) (hbuild : s.build = t.build) (hhost : s.host = t.host) :
    AgreeOnLive (openSession c s) (openSession c t) where
  build := hbuild
  phase := rfl
  currentLine := rfl
  errors := ⟨rfl, rfl, rfl, rfl⟩
  source := ⟨rfl, rfl⟩
  sink := rfl
  host := hhost
  config := fun _ => ⟨rfl, rfl, rfl⟩
  line := nofun
  run := nofun
  emission := nofun

end

/-- Settles O54: the states after START agree on the live part, and agreeing states run alike, so that the phase, the lines,
the cursor and the error registers, which are live in every phase, stay equal. -/
theorem sessionsAreIndependent : Obligations.SessionsAreIndependent := by
  unfold Obligations.SessionsAreIndependent
  intro c s1 s2 t1 t2 u1 k _ _ hbuild hhost1 hhost2 hstart1 hstart2 hrun
  obtain ⟨-, -, rfl⟩ := start_eq_next.mp hstart1
  obtain ⟨-, -, rfl⟩ := start_eq_next.mp hstart2
  have hopened := agreeOnLive_openSession c hbuild (hhost1.trans hhost2.symm)
  obtain ⟨u2, hrun2, hagree⟩ := hopened.exists_runSteps k hhost1 nofun hrun
  exact ⟨⟨rfl, rfl, rfl, rfl, rfl⟩, u2, hrun2, hagree.phase, hagree.sink, hagree.currentLine, hagree.source.2,
    hagree.errors⟩

end Sys2Proof.Machine

/-! PROOF. The head bytes both ways (30_encoding.md R82 to R84), and the raster body with its payloads, written and read
back (R80, R85 to R90). -/

namespace Sys2Proof.Machine

/-! ## Head bytes -/

/-- Reading back the head byte of a run record gives the record (R83). -/
theorem decodeControl_encodeHead {i : Instr} (hw : i.wellFormed = true) (hc : i.context = .runHeader) :
    decodeControl (encodeHead i) = i := by
  cases i with
  | line r => cases hc
  | rep m => clear hw hc; revert m; decide
  | lit m => clear hc; revert hw; revert m; decide
  | blank => rfl

theorem decodeHead_encodeHead {i : Instr} (hw : i.wellFormed = true) : decodeHead i.context (encodeHead i) = i := by
  cases hc : i.context with
  | lineHeader => cases i with
    | line r => rfl
    | rep m | lit m | blank => cases hc
  | runHeader => exact decodeControl_encodeHead hw hc

theorem decodeControl_eq_blank_iff {b : Byte} : decodeControl b = .blank ↔ s8 b = -128 := by
  refine ⟨fun h => ?_, decodeControl_of_eq_neg128⟩
  obtain ⟨hs, -⟩ | ⟨-, -, m, hd, -⟩ | ⟨-, -, m, hd, -⟩ := decodeControl_cases b
  · exact hs
  · rw [hd] at h; cases h
  · rw [hd] at h; cases h

/-- Settles O1: the table's values, computed. -/
theorem boundaryHeadBytesDecode : Obligations.BoundaryHeadBytesDecode := by
  unfold Obligations.BoundaryHeadBytesDecode
  decide

/-- Settles O3: the classes are those of the dispatch of R120, and the run lengths fit their register. -/
theorem controlByteClasses : Obligations.ControlByteClasses := by
  unfold Obligations.ControlByteClasses
  intro b
  refine ⟨decodeControl_eq_blank_iff, ?rep, ?lit⟩
  case rep =>
    intro h
    obtain ⟨m, hd, hm⟩ := decodeControl_of_nonneg h
    exact ⟨m, hd, by rw [repLength_toNat]; omega⟩
  case lit =>
    intro hlo hhi
    obtain ⟨m, hd, hne, hm⟩ := decodeControl_of_neg hlo hhi
    exact ⟨m, hd, hne, by rw [litLength_toNat]; omega⟩

/-- Settles O5. -/
theorem decodeOfEncode : Obligations.DecodeOfEncode := by
  unfold Obligations.DecodeOfEncode
  intro i rest hw
  show Except.ok (decodeHead i.context (encodeHead i), rest) = _
  rw [decodeHead_encodeHead hw]

/-- Settles O6. -/
theorem encodeOfDecode : Obligations.EncodeOfDecode := by
  unfold Obligations.EncodeOfDecode
  intro c b
  cases c with
  | lineHeader => rfl
  | runHeader => exact encodeHead_decodeControl b

/-! ## Pixels -/

theorem length_flatten_of_forall_length {pb : Nat} {ps : List (List Byte)} (h : ∀ p ∈ ps, p.length = pb) :
    ps.flatten.length = ps.length * pb := by
  rw [List.length_flatten, List.sum_eq_card_nsmul _ pb (by simpa using h), List.length_map, smul_eq_mul]

theorem takePixels_flatten {pb : Nat} {ps : List (List Byte)} (h : ∀ p ∈ ps, p.length = pb) (rest : List Byte) :
    takePixels pb ps.length (ps.flatten ++ rest) = some (ps, rest) := by
  induction ps with
  | nil => rfl
  | cons p ps ih =>
    obtain ⟨rfl, hps⟩ := List.forall_mem_cons.mp h
    simp [takePixels, ih hps]

theorem takePixels_eq_some {pb k : Nat} {bs rest : List Byte} {ps : List (List Byte)}
    (h : takePixels pb k bs = some (ps, rest)) :
    ps.length = k ∧ (∀ p ∈ ps, p.length = pb) ∧ ps.flatten ++ rest = bs := by
  induction k generalizing bs ps with
  | zero =>
    obtain ⟨rfl, rfl⟩ : [] = ps ∧ bs = rest := by simpa [takePixels] using h
    simp
  | succ k ih =>
    simp only [takePixels] at h
    split at h
    · cases h
    · next hlen =>
      split at h
      · next ps' rest' htail =>
        obtain ⟨rfl, rfl⟩ : bs.take pb :: ps' = ps ∧ rest' = rest := by simpa using h
        obtain ⟨hcount, hsizes, hbytes⟩ := ih htail
        refine ⟨by simp [hcount], List.forall_mem_cons.mpr ⟨by simp; omega, hsizes⟩, ?_⟩
        rw [List.flatten_cons, List.append_assoc, hbytes, List.take_append_drop]
      · cases h

/-! ## Run records -/

section
variable {width pb p : Nat}

theorem fits_lit_iff {m : BitVec 7} {ps : List (List Byte)} : (RunRecord.lit m ps).fits width pb p = true ↔
    m ≠ 0 ∧ ps.length = min (129 - m.toNat) (width - p) ∧ ∀ q ∈ ps, q.length = pb := by
  simp [RunRecord.fits, and_assoc]

theorem fits_rep_iff {m : BitVec 7} {px : List Byte} :
    (RunRecord.rep m px).fits width pb p = true ↔ px.length = pb := beq_iff_eq

/-- Each run record gives a pixel of an open line (R125). -/
theorem advance_pos (hp : p < width) (r : RunRecord) : 0 < r.advance width p := by
  cases r with
  | rep m px => simp only [RunRecord.advance]; omega
  | lit m ps => have := m.isLt; simp only [RunRecord.advance]; omega
  | blank => simp only [RunRecord.advance]; omega

/-- No run record passes the line's end (R124). -/
theorem advance_le (hp : p ≤ width) (r : RunRecord) : p + r.advance width p ≤ width := by
  cases r <;> simp only [RunRecord.advance] <;> omega

theorem parseRun_encode {r : RunRecord} (h : r.fits width pb p = true) (rest : List Byte) :
    parseRun width pb p (r.encode ++ rest) = some (r, rest) := by
  cases r with
  | blank => rfl
  | rep m px =>
    have hd : decodeControl (encodeHead (.rep m)) = .rep m := decodeControl_encodeHead rfl rfl
    obtain rfl := fits_rep_iff.mp h
    simp [RunRecord.encode, RunRecord.head, RunRecord.payload, parseRun, hd]
  | lit m ps =>
    obtain ⟨hm, hcount, hsizes⟩ := fits_lit_iff.mp h
    have hd : decodeControl (encodeHead (.lit m)) = .lit m := decodeControl_encodeHead (by simpa [Instr.wellFormed] using hm) rfl
    simp [RunRecord.encode, RunRecord.head, RunRecord.payload, parseRun, hd, ← hcount, takePixels_flatten hsizes]

theorem parseRun_eq_some {r : RunRecord} {bs rest : List Byte} (h : parseRun width pb p bs = some (r, rest)) :
    r.fits width pb p = true ∧ r.encode ++ rest = bs := by
  cases bs with
  | nil => cases h
  | cons b bs =>
    have hb := encodeHead_decodeControl b
    simp only [parseRun] at h
    split at h
    · next hd =>
      obtain ⟨rfl, rfl⟩ : RunRecord.blank = r ∧ bs = rest := by simpa using h
      exact ⟨rfl, by rw [← hb, hd]; rfl⟩
    · next m hd =>
      split at h
      · cases h
      · next hlen =>
        obtain ⟨rfl, rfl⟩ : RunRecord.rep m (bs.take pb) = r ∧ bs.drop pb = rest := by simpa using h
        refine ⟨fits_rep_iff.mpr (by simp; omega), ?_⟩
        rw [← hb, hd]
        exact congrArg _ (List.take_append_drop pb bs)
    · next m hd =>
      split at h
      · next ps rest' htake =>
        obtain ⟨rfl, rfl⟩ : RunRecord.lit m ps = r ∧ rest' = rest := by simpa using h
        obtain ⟨hcount, hsizes, hbytes⟩ := takePixels_eq_some htake
        refine ⟨fits_lit_iff.mpr ⟨decodeControl_lit_ne_zero hd, hcount, hsizes⟩, ?_⟩
        rw [← hb, hd]
        exact congrArg _ hbytes
      · cases h
    · cases h

/-- Settles O9: a `LIT` carries the pixels the line has room for, and no more (decision D7). -/
theorem runRecordLength : Obligations.RunRecordLength := by
  unfold Obligations.RunRecordLength
  intro width pb p r h
  cases r with
  | rep m px => rw [← fits_rep_iff.mp h]; exact Nat.add_comm ..
  | lit m ps =>
    obtain ⟨-, hcount, hsizes⟩ := fits_lit_iff.mp h
    show ps.flatten.length + 1 = 1 + min (129 - m.toNat) (width - p) * pb
    rw [← hcount, length_flatten_of_forall_length hsizes, Nat.add_comm]
  | blank => rfl

/-! ## Lines -/

theorem runsFill_cons_iff {r : RunRecord} {rs : List RunRecord} : runsFill width pb p (r :: rs) = true ↔
    p < width ∧ r.fits width pb p = true ∧ runsFill width pb (p + r.advance width p) rs = true := by
  simp [runsFill, and_assoc]

theorem parseRuns_encode {fuel : Nat} {rs : List RunRecord} (h : runsFill width pb p rs = true)
    (hfuel : width - p ≤ fuel) (rest : List Byte) :
    parseRuns width pb fuel p ((rs.map RunRecord.encode).flatten ++ rest) = some (rs, rest) := by
  induction rs generalizing p fuel with
  | nil =>
    obtain rfl : p = width := by simpa [runsFill] using h
    cases fuel <;> simp [parseRuns]
  | cons r rs ih =>
    obtain ⟨hp, hfits, hrest⟩ := runsFill_cons_iff.mp h
    have hadv := advance_pos hp r
    cases fuel with
    | zero => omega
    | succ fuel =>
      simp [parseRuns, hp, parseRun_encode hfits, ih hrest (fuel := fuel) (by omega)]

theorem parseRuns_eq_some {fuel : Nat} {bs rest : List Byte} {rs : List RunRecord} (hp : p ≤ width)
    (h : parseRuns width pb fuel p bs = some (rs, rest)) :
    runsFill width pb p rs = true ∧ (rs.map RunRecord.encode).flatten ++ rest = bs := by
  induction fuel generalizing p bs rs with
  | zero =>
    obtain ⟨hfull, rfl, rfl⟩ : width ≤ p ∧ [] = rs ∧ bs = rest := by simpa [parseRuns] using h
    exact ⟨by simp [runsFill]; omega, rfl⟩
  | succ fuel ih =>
    simp only [parseRuns] at h
    split at h
    · obtain ⟨rfl, rfl⟩ : [] = rs ∧ bs = rest := by simpa using h
      exact ⟨by simp [runsFill]; omega, rfl⟩
    · split at h
      · cases h
      · next r bs' hrun =>
        split at h
        · cases h
        · next rs' rest' hruns =>
          obtain ⟨rfl, rfl⟩ : r :: rs' = rs ∧ rest' = rest := by simpa using h
          obtain ⟨hfits, rfl⟩ := parseRun_eq_some hrun
          obtain ⟨hfill, rfl⟩ := ih (advance_le hp r) hruns
          exact ⟨runsFill_cons_iff.mpr ⟨by omega, hfits, hfill⟩, by simp⟩

/-! ## Pages -/

variable {height cur : Nat}

theorem bodyFills_cons_iff {l : LineRecord} {ls : List LineRecord} : bodyFills width pb height cur (l :: ls) = true ↔
    cur < height ∧ runsFill width pb 0 l.runs = true ∧
      bodyFills width pb height (cur + u8 l.repeatByte + 1) ls = true := by
  simp [bodyFills, and_assoc]

theorem bodyFills_nil_iff : bodyFills width pb height cur [] = true ↔ height ≤ cur := decide_eq_true_iff

theorem parseLines_encode {fuel : Nat} {ls : List LineRecord} (h : bodyFills width pb height cur ls = true)
    (hfuel : height - cur ≤ fuel) (rest : List Byte) :
    parseLines width pb height fuel cur (encodeBody ls ++ rest) = some (ls, rest) := by
  induction ls generalizing cur fuel with
  | nil =>
    have hfull := bodyFills_nil_iff.mp h
    cases fuel <;> simp [parseLines, hfull, encodeBody]
  | cons l ls ih =>
    obtain ⟨hcur, hruns, hrest⟩ := bodyFills_cons_iff.mp h
    cases fuel with
    | zero => omega
    | succ fuel =>
      have hbytes : encodeBody (l :: ls) ++ rest =
          l.repeatByte :: ((l.runs.map RunRecord.encode).flatten ++ (encodeBody ls ++ rest)) := by
        simp [encodeBody, LineRecord.encode, encodeHead]
      rw [hbytes]
      simp [parseLines, hcur, parseRuns_encode hruns (Nat.sub_le _ _), ih hrest (fuel := fuel) (by omega)]

theorem parseLines_eq_some {fuel : Nat} {bs rest : List Byte} {ls : List LineRecord}
    (h : parseLines width pb height fuel cur bs = some (ls, rest)) :
    bodyFills width pb height cur ls = true ∧ encodeBody ls ++ rest = bs := by
  induction fuel generalizing cur bs ls with
  | zero =>
    obtain ⟨hfull, rfl, rfl⟩ : height ≤ cur ∧ [] = ls ∧ bs = rest := by simpa [parseLines] using h
    exact ⟨bodyFills_nil_iff.mpr hfull, rfl⟩
  | succ fuel ih =>
    simp only [parseLines] at h
    split at h
    · next hfull =>
      obtain ⟨rfl, rfl⟩ : [] = ls ∧ bs = rest := by simpa using h
      exact ⟨bodyFills_nil_iff.mpr hfull, rfl⟩
    · next hopen =>
      cases bs with
      | nil => cases h
      | cons b bs =>
        simp only at h
        split at h
        · cases h
        · next rs bs' hruns =>
          split at h
          · cases h
          · next ls' rest' hlines =>
            obtain ⟨rfl, rfl⟩ : (⟨b, rs⟩ : LineRecord) :: ls' = ls ∧ rest' = rest := by simpa using h
            obtain ⟨hfill, rfl⟩ := parseRuns_eq_some (Nat.zero_le _) hruns
            obtain ⟨hbody, rfl⟩ := ih hlines
            exact ⟨bodyFills_cons_iff.mpr ⟨by omega, hfill, hbody⟩, by simp [encodeBody, LineRecord.encode, encodeHead]⟩

end

/-- Settles O7: records are self-delimiting, level by level: pixels, run records, lines, the page. -/
theorem parseOfEncodedBody : Obligations.ParseOfEncodedBody := by
  unfold Obligations.ParseOfEncodedBody
  intro width pb height ls rest h
  exact parseLines_encode h (Nat.sub_le _ _) rest

/-- Settles O8: the parser keeps every byte it takes. -/
theorem parsedBodyIsEncoded : Obligations.ParsedBodyIsEncoded := by
  unfold Obligations.ParsedBodyIsEncoded
  intro width pb height bs ls rest h
  exact parseLines_eq_some h

end Sys2Proof.Machine

/-! PROOF. The rows of 40_decode_session.md R105 one at a time: what a store writes, what each record does in the phases it
stands in, where its meaning stops, and how the host's acts let the block run. -/

namespace Sys2Proof.Machine

section
variable {s : State} {b : Byte}

/-! ## Stores -/

theorem storePixel_outOfRange {p : Nat} (h : ¬ s.canStore p = true) : storePixel p s = .fault .bufferOutOfRange :=
  if_neg h

/-- The first store of a run decides whether the line can be stored in at all. -/
theorem storeRun_outOfRange {p m : Nat} (hm : 0 < m) (h : ¬ s.canStore p = true) :
    storeRun p m s = .fault .bufferOutOfRange := by
  cases m with
  | zero => cases hm
  | succ m => rw [storeRun, storePixel_outOfRange h, andThen_fault]

theorem not_canStore_of_short {p : Nat} (h : s.build.lineBufBytes < s.lineBytes) : ¬ s.canStore p = true := fun hc =>
  absurd (canStore_iff.mp hc).2 (Nat.not_le_of_lt h)

/-- What the buffer reads where `BLANK` has filled it (R53). -/
theorem bufRead_blanked_of_lt (hpos : s.pos.toNat < s.width.toNat) (hcap : s.lineBytes ≤ s.build.lineBufBytes) (a : Nat) :
    s.blanked.bufRead a =
      if s.pixelAddress s.pos.toNat ≤ a ∧ a < s.lineBytes then some s.build.blankByte else s.bufRead a :=
  bufRead_blankFill (blankFill_inLine hpos hcap) a

/-! ## A pixel's bytes -/

/-- What a byte that is not the last of its pixel does (rows T8 and T10). -/
def PixelByteTaken (s : State) (b : Byte) (t : State) : Prop :=
  t.px[s.pxIdx.toNat]? = some b ∧ (∀ j : Nat, j ≠ s.pxIdx.toNat → t.px[j]? = s.px[j]?) ∧
    t.pxIdx.toNat = s.pxIdx.toNat + 1 ∧ t = { s with cursor := s.cursor + 1, px := t.px, pxIdx := t.pxIdx }

/-- `px_idx` does not wrap inside a pixel (R26). -/
theorem pxIdx_succ_toNat (hm : s.pxIdx.toNat + 1 < s.pixelBytes) : (s.pxIdx + 1).toNat = s.pxIdx.toNat + 1 := by
  have h31 := pixelBytes_le s
  exact (BitVec.toNat_add ..).trans (Nat.mod_eq_of_lt (show s.pxIdx.toNat + 1 < 2 ^ 5 by omega))

theorem pixelByteTaken (hm : s.pxIdx.toNat + 1 < s.pixelBytes) : PixelByteTaken s b (receiveMidPixel b s.consumed) := by
  have h31 := pixelBytes_le s
  obtain ⟨hat, hother⟩ := px_received s b (by omega)
  exact ⟨hat, hother, pxIdx_succ_toNat hm, rfl⟩

/-- Settles O18: both payload phases run the same row. -/
theorem pixelByteReceived : Obligations.PixelByteReceived := by
  unfold Obligations.PixelByteReceived
  intro s m b hbyte hmid
  constructor
  · intro hp
    exact ⟨_, (execRep_repFetch hp m).trans (fetchPayload_mid hbyte hmid), pixelByteTaken hmid⟩
  · intro hp hm
    exact ⟨_, (execLit_litFetch hp hm).trans (fetchPayload_mid hbyte hmid), pixelByteTaken hmid⟩

/-! ## The last byte of a pixel -/

@[simp] theorem afterLitPixel_px (q : State) : (afterLitPixel q).px = q.px := by rw [afterLitPixel_frame]
@[simp] theorem afterLitPixel_pxIdx (q : State) : (afterLitPixel q).pxIdx = q.pxIdx := by rw [afterLitPixel_frame]
@[simp] theorem afterLitPixel_pos (q : State) : (afterLitPixel q).pos = q.pos := by rw [afterLitPixel_frame]
@[simp] theorem afterLitPixel_runLeft (q : State) : (afterLitPixel q).runLeft = q.runLeft := by rw [afterLitPixel_frame]

/-- Settles O19: row T9, whose store is the clamped run of copies. -/
theorem repStoresPixelCopies : Obligations.RepStoresPixelCopies := by
  unfold Obligations.RepStoresPixelCopies
  intro s m b hphase hbyte hidx hrun hpos hcap
  have h31 := pixelBytes_le s
  obtain ⟨lb, -, hstored, hfinish⟩ := finishRep_spec (s := receivePixelByte b s.consumed) hpos hcap
  have hexec := (execRep_repFetch hphase m).trans ((fetchPayload_last hbyte hidx hrun hpos).trans hfinish)
  have hlast := hstored.congr (afterRun_linebuf ((receivePixelByte b s.consumed).repStored lb))
  obtain ⟨hfull, hroom, -⟩ := afterRun_spec ((receivePixelByte b s.consumed).repStored lb)
  refine ⟨_, s.clamp s.runLeft.toNat, rfl, hexec, ?px, ?copies, hlast.2, ?pos, ?left, ?full, ?room, ?frame⟩
  case px => rw [afterRun_px]; exact px_received s b (by omega)
  case copies =>
    intro i j hi hj
    rw [afterRun_px]
    exact hlast.bufRead_byte hi hj
  case pos => rw [afterRun_pos]; exact posPlus_toNat (clamp_le hpos.le _)
  case left => rw [afterRun_frame]
  case full => rw [afterRun_pos]; exact hfull
  case room => rw [afterRun_pos]; exact hroom
  case frame => conv_lhs => rw [afterRun_frame]
                rw [afterRun_px, afterRun_pos]; rfl

/-- A run that has a pixel left counts down without wrapping (R25). -/
theorem runLeft_pred_toNat (h : 0 < s.runLeft.toNat) : (s.runLeft - 1).toNat + 1 = s.runLeft.toNat := by
  have h1 : (1 : BitVec 8) ≤ s.runLeft := BitVec.le_def.mpr h
  rw [BitVec.toNat_sub_of_le h1]
  exact Nat.succ_pred_eq_of_pos h

/-- Settles O20: row T11, whose store is one pixel. -/
theorem litStoresPixel : Obligations.LitStoresPixel := by
  unfold Obligations.LitStoresPixel
  intro s m b hm hphase hbyte hidx hrun hpos hcap
  have h31 := pixelBytes_le s
  obtain ⟨lb, -, hstored, hfinish⟩ := finishLitPixel_spec (s := receivePixelByte b s.consumed) hpos hcap
  have hexec := (execLit_litFetch hphase hm).trans ((fetchPayload_last hbyte hidx hrun hpos).trans hfinish)
  have hlast := hstored.congr (afterLitPixel_linebuf ((receivePixelByte b s.consumed).litStored lb))
  obtain ⟨hfull, hover, hmore, -⟩ := afterLitPixel_spec ((receivePixelByte b s.consumed).litStored lb)
  refine ⟨_, hexec, ?px, ?pixel, hlast.2, ?pos, ?left, afterLitPixel_pxIdx _, ?full, ?runOver, ?more, ?frame⟩
  case px => rw [afterLitPixel_px]; exact px_received s b (by omega)
  case pixel =>
    intro j hj
    rw [afterLitPixel_px]
    exact hlast.bufRead_byte Nat.zero_lt_one hj
  case pos => rw [afterLitPixel_pos]; exact posPlus_toNat hpos
  case left => rw [afterLitPixel_runLeft]; exact runLeft_pred_toNat hrun
  case full => rw [afterLitPixel_pos]; exact hfull
  case runOver => rw [afterLitPixel_pos, afterLitPixel_runLeft]; exact hover
  case more =>
    rw [afterLitPixel_pos, afterLitPixel_runLeft]
    exact fun hne hleft => ⟨(hmore hne hleft).1.trans hphase, (hmore hne hleft).2⟩
  case frame => conv_lhs => rw [afterLitPixel_frame]
                rw [afterLitPixel_px, afterLitPixel_pos, afterLitPixel_runLeft]; rfl

/-- Settles O21: row T4, whose store is a fill to the line's end. -/
theorem blankFillsRestOfLine : Obligations.BlankFillsRestOfLine := by
  unfold Obligations.BlankFillsRestOfLine
  intro s hphase hpos hcap
  have hread := bufRead_blanked_of_lt hpos hcap
  refine ⟨_, execBlank_inLine hphase hpos hcap, ?inside, ?outside, rfl⟩
  case inside => exact fun a hlo hhi => (hread a).trans (if_pos ⟨hlo, hhi⟩)
  case outside => exact fun a ha => (hread a).trans (if_neg (by omega))

/-! ## Emission -/

/-- `emit_left` counts down without wrapping (R24). -/
theorem emitLeft_pred_toNat (h : 0 < s.emitLeft.toNat) : (s.emitLeft - 1).toNat + 1 = s.emitLeft.toNat := by
  have h1 : (1 : BitVec 9) ≤ s.emitLeft := BitVec.le_def.mpr h
  rw [BitVec.toNat_sub_of_le h1]
  exact Nat.succ_pred_eq_of_pos h

/-- `current_line` counts up without wrapping below `HEIGHT` (R22). -/
theorem currentLine_succ_toNat (h : s.currentLine.toNat < s.height.toNat) :
    (s.currentLine + 1).toNat = s.currentLine.toNat + 1 := by
  have hheight := s.height.isLt
  exact (BitVec.toNat_add ..).trans (Nat.mod_eq_of_lt (show s.currentLine.toNat + 1 < 2 ^ 32 by omega))

/-- Settles O27: row T13. -/
theorem emissionHandsScanline : Obligations.EmissionHandsScanline := by
  unfold Obligations.EmissionHandsScanline
  intro s hhost hphase hleft hlines hwritten
  obtain ⟨bytes, hlen, hbytes, hsink⟩ := sinkAccept_of_written hwritten
  have hstep : step s = .next (afterEmission (s.lineHanded bytes)) := by
    rw [step_no_acts hhost, transaction_emit hphase, emitLine, if_pos (emissionDue_iff.mpr ⟨hleft, hlines⟩), hsink,
      andThen_next]
  obtain ⟨hdone, hover, hmore, hframe⟩ := afterEmission_spec (s.lineHanded bytes)
  have hline : (afterEmission (s.lineHanded bytes)).currentLine = s.currentLine + 1 := by rw [hframe]
  have hemit : (afterEmission (s.lineHanded bytes)).emitLeft = s.emitLeft - 1 := by rw [hframe]
  refine ⟨_, bytes, hstep, hlen, hbytes, ?_⟩
  rw [hline, hemit]
  exact ⟨currentLine_succ_toNat hlines, emitLeft_pred_toNat hleft, hdone, hover,
    fun hne hl => (hmore hne hl).trans hphase, hframe⟩

/-! ## Heads, and the ends of the stream -/

/-- Settles O13: row T1. -/
theorem lineBeginsLineRecord : Obligations.LineBeginsLineRecord := by
  unfold Obligations.LineBeginsLineRecord
  intro s r hphase
  exact ⟨_, execLine_lineHeader hphase r, repeatCount_toNat r, rfl, rfl, rfl⟩

/-- Settles O14: rows T2 and T3. -/
theorem endOfStreamAtLineBoundary : Obligations.EndOfStreamAtLineBoundary := by
  unfold Obligations.EndOfStreamAtLineBoundary
  intro s hhost hphase heof
  have hstep : step s = .next (endAtLineBoundary s) := by rw [step_no_acts hhost, transaction_lineHeader_eof hphase heof]
  rw [hstep, endAtLineBoundary]
  constructor
  · intro hpolicy; rw [if_pos hpolicy]; rfl
  · intro hpolicy; rw [if_neg (by rw [hpolicy]; decide)]; rfl

/-- Settles O16: row T5. -/
theorem repHeadLoadsRun : Obligations.RepHeadLoadsRun := by
  unfold Obligations.RepHeadLoadsRun
  intro s m hphase
  exact ⟨_, execRep_runHeader hphase m, repLength_toNat m, rfl, rfl⟩

/-- Settles O17: row T6. -/
theorem litHeadLoadsRun : Obligations.LitHeadLoadsRun := by
  unfold Obligations.LitHeadLoadsRun
  intro s m hm hphase
  exact ⟨_, execLit_runHeader hphase hm, litLength_toNat m, rfl, rfl⟩

/-- Settles O23: row T12, in both payload phases. -/
theorem endOfStreamInPixel : Obligations.EndOfStreamInPixel := by
  unfold Obligations.EndOfStreamInPixel
  intro s m heof
  exact ⟨fun hp => (execRep_repFetch hp m).trans (fetchPayload_eof heof),
    fun hp hm => (execLit_litFetch hp hm).trans (fetchPayload_eof heof)⟩

/-! ## Where a meaning stops -/

theorem execLine_outOfContext {r : BitVec 8} (hp : s.phase ≠ .lineHeader) : exec (.line r) s = .refused .outOfContext := by
  show execLine r s = _
  unfold execLine
  split
  · contradiction
  all_goals rfl

theorem execRep_outOfContext {m : BitVec 7} (hhead : s.phase ≠ .runHeader) (hfetch : s.phase ≠ .repFetch) :
    exec (.rep m) s = .refused .outOfContext := by
  show execRep m s = _
  unfold execRep
  split
  · contradiction
  · contradiction
  all_goals rfl

theorem execLit_outOfContext {m : BitVec 7} (hm : m ≠ 0) (hhead : s.phase ≠ .runHeader) (hfetch : s.phase ≠ .litFetch) :
    exec (.lit m) s = .refused .outOfContext := by
  show execLit m s = _
  unfold execLit
  rw [if_neg hm]
  split
  · contradiction
  · contradiction
  all_goals rfl

theorem execBlank_outOfContext (hp : s.phase ≠ .runHeader) : exec .blank s = .refused .outOfContext := by
  show execBlank s = _
  unfold execBlank
  split
  · contradiction
  all_goals rfl

/-- Registers that no row of R105 covers. -/
theorem fetchPayload_noTransition {finish : State → Result} (hb : s.stream[s.cursor]? = some b)
    (h : s.pixelBytes ≤ s.pxIdx.toNat ∨
      s.pxIdx.toNat + 1 = s.pixelBytes ∧ (s.runLeft = 0 ∨ s.width.toNat ≤ s.pos.toNat)) :
    fetchPayload finish s = .fault .noTransition := by
  have hmid : ¬ s.midPixel = true := by simp only [State.midPixel, decide_eq_true_eq]; omega
  have hlast : ¬ s.lastOfPixel = true := fun hl => by
    obtain ⟨hidx, hrun, hpos⟩ := lastOfPixel_iff.mp hl
    rcases h with h | ⟨-, h | h⟩
    · omega
    · rw [h] at hrun; cases hrun
    · omega
  simp only [fetchPayload, streamRead_of_some hb]
  rw [if_neg hmid, if_neg hlast]

theorem finishRep_outOfRange (hrun : 0 < s.runLeft.toNat) (hpos : s.pos.toNat < s.width.toNat)
    (hcap : s.build.lineBufBytes < s.lineBytes) : finishRep s = .fault .bufferOutOfRange := by
  have hcopies : 0 < s.clamp s.runLeft.toNat := by simp only [State.clamp]; omega
  simp only [finishRep]
  rw [storeRun_outOfRange hcopies (not_canStore_of_short hcap), andThen_fault]

theorem finishLitPixel_outOfRange (hcap : s.build.lineBufBytes < s.lineBytes) :
    finishLitPixel s = .fault .bufferOutOfRange := by
  rw [finishLitPixel, storePixel_outOfRange (not_canStore_of_short hcap), andThen_fault]

theorem execBlank_outOfRange (hp : s.phase = .runHeader)
    (h : s.width.toNat ≤ s.pos.toNat ∨ s.build.lineBufBytes < s.lineBytes) :
    exec .blank s = .fault .bufferOutOfRange := by
  have hstore : ¬ s.canStore s.pos.toNat = true := fun hc => by
    obtain ⟨hpos, hcap⟩ := canStore_iff.mp hc
    omega
  have hfill : blankFill s.pos.toNat { s with code := encodeHead .blank } = .fault .bufferOutOfRange := if_neg hstore
  rw [execBlank_runHeader hp, hfill, andThen_fault]

end

/-- Settles O24: each stop, by the record it is met in. -/
theorem recordStopsOutOfContext : Obligations.RecordStopsOutOfContext := by
  unfold Obligations.RecordStopsOutOfContext
  refine ⟨fun s r => execLine_outOfContext, fun s m => execRep_outOfContext, fun s m => execLit_outOfContext,
    fun s => rfl, fun s => execBlank_outOfContext, ?noRow, ?outOfRange, fun s => execBlank_outOfRange⟩
  case noRow =>
    intro s m b hbyte hregs
    exact ⟨fun hp => (execRep_repFetch hp m).trans (fetchPayload_noTransition hbyte hregs),
      fun hp hm => (execLit_litFetch hp hm).trans (fetchPayload_noTransition hbyte hregs)⟩
  case outOfRange =>
    intro s m b hbyte hidx hrun hpos hcap
    constructor
    · intro hp
      exact (execRep_repFetch hp m).trans ((fetchPayload_last hbyte hidx hrun hpos).trans
        (finishRep_outOfRange (s := receivePixelByte b s.consumed) hrun hpos hcap))
    · intro hp hm
      exact (execLit_litFetch hp hm).trans ((fetchPayload_last hbyte hidx hrun hpos).trans
        (finishLitPixel_outOfRange (s := receivePixelByte b s.consumed) hcap))

/-! ## The step and the host's acts -/

/-- The byte at the cursor is the first of those not yet consumed. -/
theorem byteAtCursor_of_ahead {s : State} {b : Byte} {rest : List Byte} (h : s.ahead = b :: rest) :
    s.stream[s.cursor]? = some b := by
  have hhead : s.ahead[0]? = some b := by rw [h]; rfl
  rwa [State.ahead, List.getElem?_drop, Nat.add_zero] at hhead

/-- Settles O29: the fetch decodes the byte at the cursor in the context of its phase. -/
theorem stepRunsDecodedHead : Obligations.StepRunsDecodedHead := by
  unfold Obligations.StepRunsDecodedHead
  intro s c i rest hhost hphase hdecode
  cases hahead : s.ahead with
  | nil => rw [hahead] at hdecode; cases hdecode
  | cons b bs =>
    rw [hahead] at hdecode
    obtain ⟨rfl, rfl⟩ : decodeHead c b = i ∧ bs = rest := by simpa [decode] using hdecode
    have hbyte := byteAtCursor_of_ahead hahead
    rw [step_no_acts hhost]
    rcases hphase with ⟨rfl, hp⟩ | ⟨rfl, hp⟩
    · exact transaction_lineHeader hp hbyte
    · exact transaction_runHeader hp hbyte

/-- Settles O30: in a payload phase the transaction and the record's meaning are the same fetch. -/
theorem stepRunsRecordUnderWay : Obligations.StepRunsRecordUnderWay := by
  unfold Obligations.StepRunsRecordUnderWay
  intro s m hhost
  rw [step_no_acts hhost]
  exact ⟨fun hp => (transaction_repFetch hp).trans (execRep_repFetch hp m).symm,
    fun hp hm => (transaction_litFetch hp).trans (execLit_litFetch hp hm).symm⟩

theorem step_serve {s : State} {rest : List HostAct} (h : s.host = .serve :: rest) :
    step s = transaction { s with host := rest } := by
  rw [step, h, hostTurn]

theorem step_await_busy {s : State} {rest : List HostAct} (h : s.host = .await :: rest) (hb : s.phase.busy = true) :
    step s = transaction s := by
  rw [step, h, hostTurn, if_pos hb, State.with_host_self h]

theorem step_await_quiet {s : State} {rest : List HostAct} (h : s.host = .await :: rest) (hb : s.phase.busy = false) :
    step s = step { s with host := rest } := by
  rw [step, h, hostTurn, if_neg (by rw [hb]; decide)]
  exact (hostTurn_with_host transaction rest rest s).symm

theorem step_start {s : State} {c : Page} {rest : List HostAct} (h : s.host = .start c :: rest) :
    step s = start c { s with host := rest } := by
  rw [step, h, hostTurn]

theorem step_reset {s : State} {rest : List HostAct} (h : s.host = .reset :: rest) :
    step s = .next (hardwareReset { s with host := rest }) := by
  rw [step, h, hostTurn]

/-- Settles O31. -/
theorem hostServesBlock : Obligations.HostServesBlock := by
  unfold Obligations.HostServesBlock
  intro s rest
  exact ⟨step_no_acts, step_serve, step_await_busy, step_await_quiet⟩

/-- Settles O32. -/
theorem blockWaitsForStart : Obligations.BlockWaitsForStart := by
  unfold Obligations.BlockWaitsForStart
  intro s hhost hphase
  rw [step_no_acts hhost, transaction_wait hphase]

/-! ## START and reset -/

theorem Phase.busy_eq_false_iff {p : Phase} :
    p.busy = false ↔ p = .idle ∨ p = .done ∨ p = .failed ∨ p = .endedShort := by
  cases p <;> decide

/-- Settles O11: row T0. -/
theorem startOpensSession : Obligations.StartOpensSession := by
  unfold Obligations.StartOpensSession
  intro s c rest hhost hphase hwidth hheight hbpp hmod hcap
  have hlegal := Page.legal_iff.mpr ⟨hwidth, hheight, hbpp, hmod, hcap⟩
  rw [step_start hhost]
  exact start_eq_next.mpr ⟨Phase.busy_eq_false_iff.mpr hphase, hlegal, rfl⟩

/-- Settles O12: each refused configuration breaks one of the constraints of R10. -/
theorem startRefused : Obligations.StartRefused := by
  unfold Obligations.StartRefused
  intro s c rest hhost
  rw [step_start hhost]
  constructor
  · intro hbusy
    exact if_pos hbusy
  · intro hquiet hbad
    have hillegal : ¬ c.legal s.build.lineBufBytes = true := fun hl => by
      obtain ⟨hwidth, hheight, hbpp, hmod, hcap⟩ := Page.legal_iff.mp hl
      rcases hbad with h | h | h | h | h
      · rw [h] at hwidth; cases hwidth
      · rw [h] at hheight; cases hheight
      all_goals omega
    exact (if_neg (by rw [hquiet]; decide)).trans (if_neg hillegal)

/-- Settles O10. -/
theorem hardwareResetState : Obligations.HardwareResetState := by
  unfold Obligations.HardwareResetState
  refine ⟨fun b => ⟨rfl, rfl, rfl, ⟨rfl, rfl, rfl, rfl⟩, rfl⟩, ⟨Config.Build.default, by decide, rfl⟩, ?_⟩
  intro s rest hhost
  exact ⟨_, step_reset hhost, rfl, rfl, ⟨rfl, rfl, rfl, rfl⟩, fun a => rfl, rfl, rfl, rfl, rfl, List.append_nil _⟩

end Sys2Proof.Machine

/-! PROOF. What the rows of 40_decode_session.md R105 leave alone: the configuration and the stream (R21, R64), the count of
lines (R22), the phases' edges (R105), the registers of a failed session (R161, R165, R167), the buffer (R59, R61), and what
depends on the end-of-stream policy (R155). -/

namespace Sys2Proof.Machine

section
variable {s t : State}

/-! ## Registers no row writes -/

/-- What no transaction writes (R21, R64). -/
def ConfigKept (s t : State) : Prop :=
  t.build = s.build ∧ t.width = s.width ∧ t.height = s.height ∧ t.bpp = s.bpp ∧ t.stream = s.stream ∧
    t.earlier = s.earlier ∧ t.host = s.host

theorem Row.configKept (h : Row s t) : ConfigKept s t := by
  have hself : ConfigKept s s := ⟨rfl, rfl, rfl, rfl, rfl, rfl, rfl⟩
  cases h with
  | wait | line | lineEofError | lineEofShort | blank | repHead | litHead | runEof | midPixel | payloadEof => exact hself
  | repPixel b _ k hp hb hi hr hpos hcap hk hwf hst hfull hroom ht => rw [ht]; exact hself
  | litPixel b _ hp hb hi hr hpos hcap hwf hst hfull hover hmore ht => rw [ht]; exact hself
  | emission bytes _ hp hl hh hb hdone hover hmore ht => rw [ht]; exact hself

/-- Settles O34. -/
theorem configurationIsImmutable : Obligations.ConfigurationIsImmutable := by
  unfold Obligations.ConfigurationIsImmutable
  intro s t h
  exact (transaction_row h).configKept

/-- Only row T13 counts a line and calls the sink (R22, R150). -/
theorem Row.lines_eq_of_ne_emit (h : Row s t) (hp : s.phase ≠ .emit) :
    t.currentLine = s.currentLine ∧ t.trace = s.trace := by
  cases h with
  | wait | line | lineEofError | lineEofShort | blank | repHead | litHead | runEof | midPixel | payloadEof =>
    exact ⟨rfl, rfl⟩
  | repPixel b _ k hp hb hi hr hpos hcap hk hwf hst hfull hroom ht => rw [ht]; exact ⟨rfl, rfl⟩
  | litPixel b _ hp hb hi hr hpos hcap hwf hst hfull hover hmore ht => rw [ht]; exact ⟨rfl, rfl⟩
  | emission bytes _ hemit => exact absurd hemit hp

/-- Row T13 as what the sink is handed. -/
theorem Row.line_handed (h : Row s t) (hp : s.phase = .emit) : t.currentLine.toNat = s.currentLine.toNat + 1 ∧
    ∃ bytes, bytes.length = s.lineBytes ∧ t.trace = s.trace ++ [⟨s.currentLine, bytes⟩] := by
  cases h with
  | emission bytes _ _ hl hh hb hdone hover hmore ht =>
    obtain ⟨hlen, -⟩ := Memory.readBytes_spec hb
    rw [ht]
    exact ⟨currentLine_succ_toNat hh, bytes, hlen, rfl⟩
  | wait hq => rw [hp] at hq; rcases hq with h | h | h | h <;> cases h
  | line b hq | lineEofError hq | lineEofShort hq | blank b hq | repHead b m hq | litHead b m hq | runEof hq
  | repPixel b _ k hq | litPixel b _ hq => rw [hp] at hq; cases hq
  | midPixel b hq | payloadEof hq => rw [hp] at hq; rcases hq with h | h <;> cases h

/-- Settles O36. -/
theorem currentLineCountsSinkCalls : Obligations.CurrentLineCountsSinkCalls := by
  unfold Obligations.CurrentLineCountsSinkCalls
  intro s t h
  have hrow := transaction_row h
  by_cases hp : s.phase = .emit
  · exact .inl ⟨hp, hrow.line_handed hp⟩
  · exact .inr ⟨hp, hrow.lines_eq_of_ne_emit hp⟩

/-! ## What no record writes -/

/-- The frame of a record (R21, R22, R64). -/
def RecordKeeps (s t : State) : Prop :=
  t.build = s.build ∧ t.width = s.width ∧ t.height = s.height ∧ t.bpp = s.bpp ∧ t.currentLine = s.currentLine ∧
    t.stream = s.stream ∧ t.trace = s.trace ∧ t.earlier = s.earlier ∧ t.host = s.host

theorem RecordKeeps.refl (s : State) : RecordKeeps s s := ⟨rfl, rfl, rfl, rfl, rfl, rfl, rfl, rfl, rfl⟩

theorem Row.recordKeeps (h : Row s t) (hp : s.phase ≠ .emit) : RecordKeeps s t := by
  obtain ⟨hbuild, hwidth, hheight, hbpp, hstream, hearlier, hhost⟩ := h.configKept
  obtain ⟨hline, htrace⟩ := h.lines_eq_of_ne_emit hp
  exact ⟨hbuild, hwidth, hheight, hbpp, hline, hstream, htrace, hearlier, hhost⟩

theorem execLine_recordKeeps {r : BitVec 8} (h : exec (.line r) s = .next t) : RecordKeeps s t := by
  by_cases hp : s.phase = .lineHeader
  · rw [execLine_lineHeader hp] at h
    injection h with h; subst h; exact .refl s
  · rw [execLine_outOfContext hp] at h; cases h

theorem execRep_recordKeeps {m : BitVec 7} (h : exec (.rep m) s = .next t) : RecordKeeps s t := by
  by_cases hhead : s.phase = .runHeader
  · rw [execRep_runHeader hhead] at h
    injection h with h; subst h; exact .refl s
  · by_cases hfetch : s.phase = .repFetch
    · rw [execRep_repFetch hfetch] at h
      exact (repFetch_row hfetch h).recordKeeps (by rw [hfetch]; decide)
    · rw [execRep_outOfContext hhead hfetch] at h; cases h

theorem execLit_recordKeeps {m : BitVec 7} (h : exec (.lit m) s = .next t) : RecordKeeps s t := by
  by_cases hm : m = 0
  · subst hm; cases h
  by_cases hhead : s.phase = .runHeader
  · rw [execLit_runHeader hhead hm] at h
    injection h with h; subst h; exact .refl s
  · by_cases hfetch : s.phase = .litFetch
    · rw [execLit_litFetch hfetch hm] at h
      exact (litFetch_row hfetch h).recordKeeps (by rw [hfetch]; decide)
    · rw [execLit_outOfContext hm hhead hfetch] at h; cases h

theorem execBlank_recordKeeps (h : exec .blank s = .next t) : RecordKeeps s t := by
  by_cases hp : s.phase = .runHeader
  · rw [execBlank_runHeader hp] at h
    obtain ⟨u, hu, ht⟩ := andThen_eq_next.mp h
    obtain ⟨-, rfl⟩ := blankFill_eq_next.mp hu
    injection ht with ht; subst ht; exact .refl s
  · rw [execBlank_outOfContext hp] at h; cases h

/-- Settles O33, record by record. -/
theorem recordFrame : Obligations.RecordFrame := by
  unfold Obligations.RecordFrame
  intro i s t h
  cases i with
  | line r => exact execLine_recordKeeps h
  | rep m => exact execRep_recordKeeps h
  | lit m => exact execLit_recordKeeps h
  | blank => exact execBlank_recordKeeps h

/-! ## Phases -/

/-- Where a row that chooses between two phases leads (T9 of R105). -/
theorem phase_of_full_or_room {p q : Phase} {c : Prop} (hfull : c → t.phase = p) (hroom : ¬ c → t.phase = q) :
    t.phase = p ∨ t.phase = q := by
  by_cases hc : c
  · exact .inl (hfull hc)
  · exact .inr (hroom hc)

/-- Where a row that chooses among three phases leads (T11 and T13 of R105). -/
theorem phase_of_full_or_over_or_more {p q r : Phase} {c d : Prop} (hfull : c → t.phase = p)
    (hover : ¬ c → d → t.phase = q) (hmore : ¬ c → ¬ d → t.phase = r) : t.phase = p ∨ t.phase = q ∨ t.phase = r := by
  by_cases hc : c
  · exact .inl (hfull hc)
  · exact .inr (phase_of_full_or_room (hover hc) (hmore hc))

theorem Row.edge (h : Row s t) : s.phase.edge t.phase = true := by
  cases h with
  | wait hp => rcases hp with hp | hp | hp | hp <;> rw [hp] <;> rfl
  | line b hp | repHead b m hp | litHead b m hp | blank b hp | lineEofError hp | lineEofShort hp | runEof hp =>
    rw [hp]; rfl
  | midPixel b hp | payloadEof hp => rcases hp with hp | hp <;> simp [hp, Phase.edge]
  | repPixel b _ k hp hb hi hr hpos hcap hk hwf hst hfull hroom ht =>
    rcases phase_of_full_or_room (fun h => (hfull h).1) (fun h => (hroom h).1) with h | h <;> rw [hp, h] <;> rfl
  | litPixel b _ hp hb hi hr hpos hcap hwf hst hfull hover hmore ht =>
    rcases phase_of_full_or_over_or_more (fun h => (hfull h).1) (fun h h' => (hover h h').1)
      (fun h h' => (hmore h h').1) with h | h | h <;> rw [hp, h] <;> rfl
  | emission bytes _ hp hl hh hb hdone hover hmore ht =>
    rcases phase_of_full_or_over_or_more hdone hover hmore with h | h | h <;> rw [hp, h] <;> rfl

/-- Settles O38. -/
theorem phaseFollowsTable : Obligations.PhaseFollowsTable := by
  unfold Obligations.PhaseFollowsTable
  intro s t h
  exact (transaction_row h).edge

/-! ## The failed session -/

/-- Where a read met the end of the stream, and the column it reports (R161). -/
def FailedRead (s t : State) : Prop :=
  s.phase = .lineHeader ∧ t.errWhere = .repeatByte ∧ t.errCol = 0 ∨
    s.phase = .runHeader ∧ t.errWhere = .controlByte ∧ t.errCol = s.pos ∨
    (s.phase = .repFetch ∨ s.phase = .litFetch) ∧ t.errWhere = .pixelPayload ∧ t.errCol = s.pos

/-- The three rows into `FAILED` (T2, T7, T12) are reads at the end of the stream; every other row's phase is another. -/
theorem Row.failedRead (h : Row s t) (hs : s.phase ≠ .failed) (ht : t.phase = .failed) :
    s.stream[s.cursor]? = none ∧ t = raiseTruncated s.currentLine t.errCol t.errWhere s ∧ FailedRead s t := by
  cases h with
  | wait => exact absurd ht hs
  | line | lineEofShort | blank | repHead | litHead => cases ht
  | lineEofError hp hb => exact ⟨hb, rfl, .inl ⟨hp, rfl, rfl⟩⟩
  | runEof hp hb => exact ⟨hb, rfl, .inr (.inl ⟨hp, rfl, rfl⟩)⟩
  | payloadEof hp hb => exact ⟨hb, rfl, .inr (.inr ⟨hp, rfl, rfl⟩)⟩
  | midPixel b hp => exact absurd ht hs
  | repPixel b _ k hp hb hi hr hpos hcap hk hwf hst hfull hroom =>
    rcases phase_of_full_or_room (fun h => (hfull h).1) (fun h => (hroom h).1) with h | h <;> rw [h] at ht <;> cases ht
  | litPixel b _ hp hb hi hr hpos hcap hwf hst hfull hover hmore =>
    rcases phase_of_full_or_over_or_more (fun h => (hfull h).1) (fun h h' => (hover h h').1)
      (fun h h' => (hmore h h').1) with h | h | h <;> rw [h] at ht <;> cases ht
  | emission bytes _ hp hl hh hb hdone hover hmore =>
    rcases phase_of_full_or_over_or_more hdone hover hmore with h | h | h <;> rw [h] at ht <;> cases ht

/-- Settles O39. -/
theorem failureIsPrecise : Obligations.FailureIsPrecise := by
  unfold Obligations.FailureIsPrecise
  intro s t h hs ht
  exact (transaction_row h).failedRead hs ht

/-- The three ways a step of a failed session can go (R167). -/
def FailedStep (s t : State) : Prop :=
  (∃ (n : Nat) (c : Page) (rest : List HostAct), s.host = List.replicate n .await ++ .start c :: rest ∧
    t.host = rest ∧ t.phase = .lineHeader ∧ t.stream = c.stream ∧ t.cursor = 0 ∧ t.currentLine = 0 ∧
    t.errorsAre .none .none 0 0) ∨
  (∃ (n : Nat) (rest : List HostAct), s.host = List.replicate n .await ++ .reset :: rest ∧
    t.host = rest ∧ t.phase = .idle ∧ t.currentLine = 0 ∧ t.errorsAre .none .none 0 0) ∨
  (t = { s with host := t.host } ∧ t.host <:+ s.host)

/-- An `await` that passes at once only comes before what the step does. -/
theorem FailedStep.await {rest : List HostAct} (hhost : s.host = .await :: rest)
    (h : FailedStep { s with host := rest } t) : FailedStep s t := by
  have hcons : ∀ n acts, rest = List.replicate n .await ++ acts → s.host = List.replicate (n + 1) .await ++ acts :=
    fun n acts hrest => by rw [hhost, hrest]; rfl
  obtain ⟨n, c, acts, hacts, hrest⟩ | ⟨n, acts, hacts, hrest⟩ | ⟨hkept, hsuffix⟩ := h
  · exact .inl ⟨n + 1, c, acts, hcons n _ hacts, hrest⟩
  · exact .inr (.inl ⟨n + 1, acts, hcons n _ hacts, hrest⟩)
  · exact .inr (.inr ⟨hkept, hhost ▸ hsuffix.trans (List.suffix_cons _ _)⟩)

theorem failedStep_of_step {acts : List HostAct} (hhost : s.host = acts) (hp : s.phase = .failed)
    (h : step s = .next t) : FailedStep s t := by
  induction acts generalizing s with
  | nil =>
    rw [step_no_acts hhost, transaction_wait (.inr (.inr (.inl hp)))] at h
    injection h with h; subst h
    exact .inr (.inr ⟨rfl, List.suffix_rfl⟩)
  | cons act rest ih => cases act with
    | serve =>
      rw [step_serve hhost, transaction_wait (s := { s with host := rest }) (.inr (.inr (.inl hp)))] at h
      injection h with h; subst h
      exact .inr (.inr ⟨rfl, hhost ▸ List.suffix_cons _ _⟩)
    | await =>
      rw [step_await_quiet hhost (by rw [hp]; rfl)] at h
      exact (ih (s := { s with host := rest }) rfl hp h).await hhost
    | start c =>
      rw [step_start hhost] at h
      obtain ⟨-, -, rfl⟩ := start_eq_next.mp h
      exact .inl ⟨0, c, rest, hhost, rfl, rfl, rfl, rfl, rfl, rfl, rfl, rfl, rfl⟩
    | reset =>
      rw [step_reset hhost] at h
      injection h with h; subst h
      exact .inr (.inl ⟨0, rest, hhost, rfl, rfl, rfl, rfl, rfl, rfl, rfl⟩)

/-- Settles O40, by induction on the acts the host has pending. -/
theorem failedSessionIsOver : Obligations.FailedSessionIsOver := by
  unfold Obligations.FailedSessionIsOver
  intro s t h hp
  exact failedStep_of_step rfl hp h

/-! ## The buffer -/

theorem Row.linebuf_wf (h : Row s t) (hw : Memory.wf s.linebuf) : Memory.wf t.linebuf := by
  cases h with
  | wait | line | lineEofError | lineEofShort | repHead | litHead | runEof | midPixel | payloadEof => exact hw
  | blank => exact Memory.fill_wf hw _ _ _
  | repPixel b _ k hp hb hi hr hpos hcap hk hwf => exact hwf hw
  | litPixel b _ hp hb hi hr hpos hcap hwf => exact hwf hw
  | emission bytes _ hp hl hh hb hdone hover hmore ht => rw [ht]; exact hw

/-- Settles O41. -/
theorem bufferStaysCanonical : Obligations.BufferStaysCanonical := by
  unfold Obligations.BufferStaysCanonical
  intro s t h hw
  rcases step_cases h with ⟨c, rest, u, rfl, hstart⟩ | ⟨rest, rfl⟩ | ⟨rest, hrun⟩
  · obtain ⟨-, -, rfl⟩ := start_eq_next.mp hstart
    exact hw
  · exact Memory.wf_nil
  · exact (transaction_row hrun).linebuf_wf hw

theorem RunStored.bufRead_of_ge_lineBytes {p m a : Nat} (h : RunStored s t p m) (hm : p + m ≤ s.width.toNat)
    (ha : s.lineBytes ≤ a) : t.bufRead a = s.bufRead a :=
  h.2 a (.inr ((pixelAddress_le_lineBytes hm).trans ha))

/-- Every store of a row stays below `LINE_BYTES` (R59). -/
theorem Row.bufRead_of_ge_lineBytes (h : Row s t) {a : Nat} (ha : s.lineBytes ≤ a) : t.bufRead a = s.bufRead a := by
  cases h with
  | wait | line | lineEofError | lineEofShort | repHead | litHead | runEof | midPixel | payloadEof => rfl
  | blank b hp hb hd hc =>
    obtain ⟨hpos, hcap⟩ := canStore_iff.mp hc
    exact (bufRead_blanked_of_lt hpos hcap a).trans (if_neg (by omega))
  | repPixel b _ k hp hb hi hr hpos hcap hk hwf hst =>
    subst hk
    exact hst.bufRead_of_ge_lineBytes (clamp_le (s := s) hpos.le _) ha
  | litPixel b _ hp hb hi hr hpos hcap hwf hst => exact hst.bufRead_of_ge_lineBytes hpos ha
  | emission bytes _ hp hl hh hb hdone hover hmore ht => rw [ht]; rfl

/-- Settles O42. -/
theorem writesStayInLine : Obligations.WritesStayInLine := by
  unfold Obligations.WritesStayInLine
  intro s t h a ha
  exact (transaction_row h).bufRead_of_ge_lineBytes ha

/-- Settles O43: the rows that write are T4, T9 and T11. -/
theorem onlyRunsWriteBuffer : Obligations.OnlyRunsWriteBuffer := by
  unfold Obligations.OnlyRunsWriteBuffer
  intro s t h hne
  cases transaction_row h with
  | wait | line | lineEofError | lineEofShort | repHead | litHead | runEof | midPixel | payloadEof => exact absurd rfl hne
  | blank b hp => exact .inl ⟨hp, rfl⟩
  | repPixel b _ k hp => exact .inr (.inl hp)
  | litPixel b _ hp => exact .inr (.inr hp)
  | emission bytes _ hp hl hh hb hdone hover hmore ht => exact absurd (congrArg State.linebuf ht) hne

end

end Sys2Proof.Machine

/-! PROOF. The invariants of 10_state.md R33, sorted by phase: reset and START meet them, every row of R105 keeps them, and
under them a row of R105 always applies (R59, R66). What a terminal phase reports is read off them (R104). -/

namespace Sys2Proof.Machine

/-! ## The invariants by phase -/

/-- The invariants that hold whatever the phase is. -/
structure MachineInv (s : State) : Prop where
  bufferSize : 1 ≤ s.build.lineBufBytes
  bufferWf : Memory.wf s.linebuf
  bufferFits : ∀ a, s.build.lineBufBytes ≤ a → s.bufRead a = none
  cursorInStream : s.cursor ≤ s.stream.length
  traceLength : s.trace.length = s.currentLine.toNat
  traceEntries : ∀ (i : Nat) (e : Emission), s.trace[i]? = some e → e.lineIndex.toNat = i ∧ e.bytes.length = s.lineBytes

/-- The error registers at rest (R28). -/
abbrev State.errorsClear (s : State) : Prop := s.errorsAre .none .none 0 0

/-- `line_repeat` in 1..256 (R33 item 3). -/
abbrev State.repeatInRange (s : State) : Prop := 1 ≤ s.lineRepeat.toNat ∧ s.lineRepeat.toNat ≤ 256

/-- A legal configuration whose page has lines left (R33 item 1). -/
structure PageOpen (s : State) : Prop where
  config : s.configLegal
  lines : s.currentLine.toNat < s.height.toNat

/-- What is held from a line's `LINE` to its last emission (R33 items 3 and 6). -/
structure LineHeld (s : State) : Prop extends PageOpen s where
  errors : s.errorsClear
  repeatRange : s.repeatInRange
  written : ∀ a, a < s.pixelAddress s.pos.toNat → (s.bufRead a).isSome = true

/-- A line that has room (R33 item 2). -/
structure LineOpen (s : State) : Prop extends LineHeld s where
  room : s.pos.toNat < s.width.toNat

/-- What `FAILED` reports (R161). -/
def FailedReport (s : State) : Prop :=
  s.errKind = .truncatedStream ∧ s.errRow = s.currentLine ∧
    ((s.errWhere = .repeatByte ∧ s.errCol = 0 ∧ s.build.eofAtLineBoundaryIsError = true) ∨
      ((s.errWhere = .controlByte ∨ s.errWhere = .pixelPayload) ∧ s.errCol = s.pos ∧ s.pos.toNat < s.width.toNat))

/-- What the invariants say in each phase. -/
def PhaseInv (s : State) : Prop :=
  match s.phase with
  | .idle => s.currentLine = 0 ∧ s.errorsClear
  | .lineHeader => PageOpen s ∧ s.errorsClear ∧ (s.currentLine ≠ 0 → s.pos = s.width ∧ s.repeatInRange)
  | .runHeader => LineOpen s
  | .repFetch => LineOpen s ∧ s.pxIdx.toNat < s.pixelBytes ∧ u8 s.code ≤ 127 ∧ s.runLeft.toNat = u8 s.code + 1
  | .litFetch => LineOpen s ∧ s.pxIdx.toNat < s.pixelBytes ∧
      129 ≤ u8 s.code ∧ 1 ≤ s.runLeft.toNat ∧ s.runLeft.toNat + u8 s.code ≤ 257
  | .emit => LineHeld s ∧ s.pos = s.width ∧ 1 ≤ s.emitLeft.toNat ∧ s.emitLeft.toNat ≤ s.lineRepeat.toNat
  | .done => s.configLegal ∧ s.currentLine = s.height ∧ s.errorsClear
  | .failed => PageOpen s ∧ s.cursor = s.stream.length ∧ FailedReport s
  | .endedShort => PageOpen s ∧ s.cursor = s.stream.length ∧
      s.errorsAre .none .repeatByte s.currentLine 0 ∧ s.build.eofAtLineBoundaryIsError = false

section
variable {s t : State}

theorem PageOpen.currentLine_ne_height (h : PageOpen s) : s.currentLine ≠ s.height := fun e =>
  absurd (congrArg BitVec.toNat e) (Nat.ne_of_lt h.lines)

/-- R33 item 1, while the page has lines left. -/
theorem PageOpen.lines_iff (h : PageOpen s) (hp : s.phase ≠ .done) :
    s.currentLine.toNat ≤ s.height.toNat ∧ (s.currentLine = s.height ↔ s.phase = .done) :=
  ⟨h.lines.le, iff_of_false h.currentLine_ne_height hp⟩

theorem Inv.machineInv (h : Inv s) : MachineInv s := { h with }

theorem Inv.pageOpen (h : Inv s) (hidle : s.phase ≠ .idle) (hdone : s.phase ≠ .done) : PageOpen s := by
  obtain ⟨hle, hiff⟩ := h.lines hidle
  exact ⟨h.config hidle, Nat.lt_of_le_of_ne hle fun e => hdone (hiff.mp (BitVec.eq_of_toNat_eq e))⟩

theorem Inv.lineHeld (h : Inv s) (hl : s.phase.holdsLine = true) : LineHeld s := by
  have hne : ∀ {p : Phase}, p.holdsLine = false → s.phase ≠ p := fun hp e => by
    rw [e, hp] at hl; cases hl
  exact ⟨h.pageOpen (hne rfl) (hne rfl), h.errorsClear (hne rfl) (hne rfl), h.repeatRange (.inl hl), h.written hl⟩

theorem Inv.lineOpen (h : Inv s) (hl : s.phase.inLine = true) : LineOpen s :=
  ⟨h.lineHeld (by rw [Phase.holdsLine, hl]; rfl), h.posInLine hl⟩

theorem Inv.phaseInv (h : Inv s) : PhaseInv s := by
  cases hp : s.phase with simp only [PhaseInv, hp]
  | idle => exact ⟨h.idleClear hp, h.errorsClear (by simp [hp]) (by simp [hp])⟩
  | lineHeader =>
    exact ⟨h.pageOpen (by simp [hp]) (by simp [hp]), h.errorsClear (by simp [hp]) (by simp [hp]),
      fun hline => ⟨h.posAtEnd (.inr ⟨hp, hline⟩), h.repeatRange (.inr ⟨hp, hline⟩)⟩⟩
  | runHeader => exact h.lineOpen (by simp [hp, Phase.inLine])
  | repFetch => exact ⟨h.lineOpen (by simp [hp, Phase.inLine]), h.pixelIndex (by simp [hp, Phase.fetching]), h.repRun hp⟩
  | litFetch => exact ⟨h.lineOpen (by simp [hp, Phase.inLine]), h.pixelIndex (by simp [hp, Phase.fetching]), h.litRun hp⟩
  | emit => exact ⟨h.lineHeld (by simp [hp, Phase.holdsLine]), h.posAtEnd (.inl hp), h.emitRange hp⟩
  | done =>
    exact ⟨h.config (by simp [hp]), (h.lines (by simp [hp])).2.mpr hp, h.errorsClear (by simp [hp]) (by simp [hp])⟩
  | failed => exact ⟨h.pageOpen (by simp [hp]) (by simp [hp]), h.cursorAtEnd (.inl hp), h.errorsFailed hp⟩
  | endedShort => exact ⟨h.pageOpen (by simp [hp]) (by simp [hp]), h.cursorAtEnd (.inr hp), h.errorsShort hp⟩

/-- The invariants from their two parts: what a phase does not speak of holds vacuously there. -/
theorem inv_of_phaseInv (hm : MachineInv s) (h : PhaseInv s) : Inv s := by
  cases hp : s.phase with simp only [PhaseInv, hp] at h
  | idle =>
    obtain ⟨hline, herr⟩ := h
    refine { hm with
      idleClear := fun _ => hline, errorsClear := fun _ _ => herr
      cursorAtEnd := ?_, config := ?_, lines := ?_, posInLine := ?_, posAtEnd := ?_, repeatRange := ?_, emitRange := ?_
      repRun := ?_, litRun := ?_, pixelIndex := ?_, written := ?_, errorsFailed := ?_, errorsShort := ?_ } <;>
    simp [hp, Phase.inLine, Phase.holdsLine, Phase.fetching]
  | lineHeader =>
    obtain ⟨hopen, herr, hline⟩ := h
    refine { hm with
      config := fun _ => hopen.config, lines := fun _ => hopen.lines_iff (by simp [hp]), errorsClear := fun _ _ => herr
      posAtEnd := fun h => (hline (by simpa [hp] using h)).1
      repeatRange := fun h => (hline (by simpa [hp, Phase.holdsLine, Phase.inLine] using h)).2
      cursorAtEnd := ?_, idleClear := ?_, posInLine := ?_, emitRange := ?_
      repRun := ?_, litRun := ?_, pixelIndex := ?_, written := ?_, errorsFailed := ?_, errorsShort := ?_ } <;>
    simp [hp, Phase.inLine, Phase.holdsLine, Phase.fetching]
  | runHeader =>
    refine { hm with
      config := fun _ => h.config, lines := fun _ => h.lines_iff (by simp [hp]), errorsClear := fun _ _ => h.errors
      posInLine := fun _ => h.room, repeatRange := fun _ => h.repeatRange, written := fun _ => h.written
      cursorAtEnd := ?_, idleClear := ?_, posAtEnd := ?_, emitRange := ?_
      repRun := ?_, litRun := ?_, pixelIndex := ?_, errorsFailed := ?_, errorsShort := ?_ } <;>
    simp [hp, Phase.fetching]
  | repFetch =>
    obtain ⟨hopen, hidx, hrun⟩ := h
    refine { hm with
      config := fun _ => hopen.config, lines := fun _ => hopen.lines_iff (by simp [hp])
      errorsClear := fun _ _ => hopen.errors, posInLine := fun _ => hopen.room
      repeatRange := fun _ => hopen.repeatRange, written := fun _ => hopen.written
      repRun := fun _ => hrun, pixelIndex := fun _ => hidx
      cursorAtEnd := ?_, idleClear := ?_, posAtEnd := ?_, emitRange := ?_
      litRun := ?_, errorsFailed := ?_, errorsShort := ?_ } <;>
    simp [hp]
  | litFetch =>
    obtain ⟨hopen, hidx, hrun⟩ := h
    refine { hm with
      config := fun _ => hopen.config, lines := fun _ => hopen.lines_iff (by simp [hp])
      errorsClear := fun _ _ => hopen.errors, posInLine := fun _ => hopen.room
      repeatRange := fun _ => hopen.repeatRange, written := fun _ => hopen.written
      litRun := fun _ => hrun, pixelIndex := fun _ => hidx
      cursorAtEnd := ?_, idleClear := ?_, posAtEnd := ?_, emitRange := ?_
      repRun := ?_, errorsFailed := ?_, errorsShort := ?_ } <;>
    simp [hp]
  | emit =>
    obtain ⟨hheld, hfull, hemit⟩ := h
    refine { hm with
      config := fun _ => hheld.config, lines := fun _ => hheld.lines_iff (by simp [hp])
      errorsClear := fun _ _ => hheld.errors, repeatRange := fun _ => hheld.repeatRange, written := fun _ => hheld.written
      posAtEnd := fun _ => hfull, emitRange := fun _ => hemit
      cursorAtEnd := ?_, idleClear := ?_, posInLine := ?_
      repRun := ?_, litRun := ?_, pixelIndex := ?_, errorsFailed := ?_, errorsShort := ?_ } <;>
    simp [hp, Phase.inLine, Phase.fetching]
  | done =>
    obtain ⟨hconfig, hend, herr⟩ := h
    refine { hm with
      config := fun _ => hconfig, errorsClear := fun _ _ => herr
      lines := fun _ => ⟨hend ▸ le_rfl, iff_of_true hend hp⟩
      cursorAtEnd := ?_, idleClear := ?_, posInLine := ?_, posAtEnd := ?_, repeatRange := ?_, emitRange := ?_
      repRun := ?_, litRun := ?_, pixelIndex := ?_, written := ?_, errorsFailed := ?_, errorsShort := ?_ } <;>
    simp [hp, Phase.inLine, Phase.holdsLine, Phase.fetching]
  | failed =>
    obtain ⟨hopen, hcursor, hreport⟩ := h
    refine { hm with
      config := fun _ => hopen.config, lines := fun _ => hopen.lines_iff (by simp [hp])
      cursorAtEnd := fun _ => hcursor, errorsFailed := fun _ => hreport
      idleClear := ?_, posInLine := ?_, posAtEnd := ?_, repeatRange := ?_, emitRange := ?_
      repRun := ?_, litRun := ?_, pixelIndex := ?_, written := ?_, errorsClear := ?_, errorsShort := ?_ } <;>
    simp [hp, Phase.inLine, Phase.holdsLine, Phase.fetching]
  | endedShort =>
    obtain ⟨hopen, hcursor, hreport⟩ := h
    refine { hm with
      config := fun _ => hopen.config, lines := fun _ => hopen.lines_iff (by simp [hp])
      cursorAtEnd := fun _ => hcursor, errorsShort := fun _ => hreport
      idleClear := ?_, posInLine := ?_, posAtEnd := ?_, repeatRange := ?_, emitRange := ?_
      repRun := ?_, litRun := ?_, pixelIndex := ?_, written := ?_, errorsClear := ?_, errorsFailed := ?_ } <;>
    simp [hp, Phase.inLine, Phase.holdsLine, Phase.fetching]

/-! ## The rows keep what holds in every phase -/

/-- The sink's lines after one more (R150, R151). -/
theorem MachineInv.traceEntries_append (h : MachineInv s) {bytes : List Byte} (hlen : bytes.length = s.lineBytes)
    {i : Nat} {e : Emission} (he : (s.trace ++ [⟨s.currentLine, bytes⟩])[i]? = some e) :
    e.lineIndex.toNat = i ∧ e.bytes.length = s.lineBytes := by
  rcases Nat.lt_or_ge i s.trace.length with hi | hi
  · rw [List.getElem?_append_left hi] at he
    exact h.traceEntries i e he
  · rw [List.getElem?_append_right hi] at he
    obtain ⟨hi0, rfl⟩ : i - s.trace.length = 0 ∧ (⟨s.currentLine, bytes⟩ : Emission) = e := by
      simpa [List.getElem?_singleton] using he
    exact ⟨by rw [← h.traceLength]; omega, hlen⟩

theorem Row.machineInv (h : Row s t) (hi : Inv s) : MachineInv t := by
  have hm := hi.machineInv
  obtain ⟨hbuild, hwidth, -, hbpp, hstream, -, -⟩ := h.configKept
  have hline : t.lineBytes = s.lineBytes := by simp only [State.lineBytes, State.pixelBytes, hwidth, hbpp]
  have hfits : ∀ a, t.build.lineBufBytes ≤ a → t.bufRead a = none := fun a ha => by
    rw [hbuild] at ha
    by_cases hidle : s.phase = .idle
    · cases h with
      | wait => exact hm.bufferFits a ha
      | line b hp | lineEofError hp | lineEofShort hp | blank b hp | repHead b m hp | litHead b m hp | runEof hp
      | repPixel b _ k hp | litPixel b _ hp | emission bytes _ hp => rw [hidle] at hp; cases hp
      | midPixel b hp | payloadEof hp => rw [hidle] at hp; rcases hp with hp | hp <;> cases hp
    · obtain ⟨-, -, -, -, hcap⟩ := hi.config hidle
      rw [h.bufRead_of_ge_lineBytes (hcap.trans ha)]
      exact hm.bufferFits a ha
  have hcursor : t.cursor ≤ t.stream.length := by
    rw [hstream]
    rcases h.byteRead_or_nothingRead with ⟨hc, hmore, -⟩ | ⟨hc, -⟩
    · omega
    · rw [hc]; exact hm.cursorInStream
  refine ⟨hbuild ▸ hm.bufferSize, h.linebuf_wf hm.bufferWf, hfits, hcursor, ?_, ?_⟩ <;> by_cases hp : s.phase = .emit
  · obtain ⟨hcount, bytes, -, htrace⟩ := h.line_handed hp
    rw [hcount, htrace, List.length_append, hm.traceLength]; rfl
  · obtain ⟨hcount, htrace⟩ := h.lines_eq_of_ne_emit hp
    rw [hcount, htrace]; exact hm.traceLength
  · obtain ⟨-, bytes, hlen, htrace⟩ := h.line_handed hp
    rw [htrace, hline]
    exact fun i e => hm.traceEntries_append hlen
  · obtain ⟨-, htrace⟩ := h.lines_eq_of_ne_emit hp
    rw [htrace, hline]; exact hm.traceEntries

/-! ## The rows keep what holds in their phase -/

/-- A run stored from `pos` on extends the written part of the line (R33 item 6). -/
theorem RunStored.written {p m : Nat} (h : RunStored s t p m)
    (hs : ∀ a, a < s.pixelAddress p → (s.bufRead a).isSome = true) :
    ∀ a, a < s.pixelAddress (p + m) → (t.bufRead a).isSome = true := by
  intro a ha
  obtain ⟨hin, hout⟩ := h
  by_cases hlo : a < s.pixelAddress p
  · rw [hout a (.inl hlo)]; exact hs a hlo
  · obtain ⟨i, j, hi, hj, rfl⟩ := exists_pixel_of_address (Nat.le_of_not_lt hlo) ha
    rw [hin i j hi hj, List.getElem?_eq_getElem (by rw [pixelSlot_length]; exact hj)]
    rfl

theorem u8_encodeHead_rep (m : BitVec 7) : u8 (encodeHead (.rep m)) = m.toNat := by revert m; decide

theorem u8_encodeHead_lit {m : BitVec 7} : u8 (encodeHead (.lit m)) = 128 + m.toNat := by revert m; decide

theorem posPlus_lt_width {k : Nat} (hk : s.pos.toNat + k ≤ s.width.toNat) (hne : s.posPlus k ≠ s.width) :
    (s.posPlus k).toNat < s.width.toNat := by
  have hpos := posPlus_toNat hk
  have : (s.posPlus k).toNat ≠ s.width.toNat := fun e => hne (BitVec.eq_of_toNat_eq e)
  omega

/-- A new line holds nothing yet. -/
theorem LineOpen.lineBegun (ho : PageOpen s) (he : s.errorsClear) (r : Byte) :
    LineOpen { s.consumed with lineRepeat := repeatCount r, pos := 0, phase := .runHeader } := by
  have hr := repeatCount_toNat r
  have hlt : r.toNat < 256 := r.isLt
  have hrange : 1 ≤ (repeatCount r).toNat ∧ (repeatCount r).toNat ≤ 256 := by omega
  exact ⟨⟨⟨ho.config, ho.lines⟩, he, hrange, fun a ha => absurd ha (by simp [State.pixelAddress])⟩, ho.config.1⟩

/-- A line that `BLANK` has filled is written to its end. -/
theorem LineHeld.blanked (h : LineOpen s) : LineHeld (beginEmission s.consumed.blanked) where
  config := h.config
  lines := h.lines
  errors := h.errors
  repeatRange := h.repeatRange
  written := fun a (ha : a < s.lineBytes) => by
    show (s.blanked.bufRead a).isSome = true
    rw [bufRead_blanked s ha]
    split
    · rfl
    · exact h.written a (by omega)

/-- The last byte of a pixel, stored `k` times: the line is held as far as its new position. -/
theorem LineHeld.pixelStored {b : Byte} {k : Nat} {r : BitVec 8} {x : BitVec 5} {p : Phase} {e : BitVec 9}
    (h : LineOpen s) (hk : s.pos.toNat + k ≤ s.width.toNat)
    (hst : RunStored (receivePixelByte b s.consumed) t s.pos.toNat k)
    (ht : t = { receivePixelByte b s.consumed with
      linebuf := t.linebuf, pos := s.posPlus k, runLeft := r, pxIdx := x, phase := p, emitLeft := e }) : LineHeld t := by
  have hwritten : ∀ a, a < s.pixelAddress (s.posPlus k).toNat → (t.bufRead a).isSome = true := by
    rw [posPlus_toNat hk]
    exact hst.written h.written
  rw [ht]
  exact ⟨⟨h.config, h.lines⟩, h.errors, h.repeatRange, hwritten⟩

theorem PhaseInv.of_full (hp : t.phase = .emit) (hheld : LineHeld t) (hpos : t.pos = t.width)
    (hemit : t.emitLeft = t.lineRepeat) : PhaseInv t := by
  simp only [PhaseInv, hp, hemit]
  exact ⟨hheld, hpos, hheld.repeatRange.1, le_rfl⟩

theorem PhaseInv.of_room (hp : t.phase = .runHeader) (hopen : LineOpen t) : PhaseInv t := by
  simp only [PhaseInv, hp]
  exact hopen

theorem PhaseInv.raiseTruncated (h : PageOpen s) (hcursor : s.cursor = s.stream.length) {col : BitVec 32} {w : ErrWhere}
    (hw : (w = .repeatByte ∧ col = 0 ∧ s.build.eofAtLineBoundaryIsError = true) ∨
      ((w = .controlByte ∨ w = .pixelPayload) ∧ col = s.pos ∧ s.pos.toNat < s.width.toNat)) :
    PhaseInv (raiseTruncated s.currentLine col w s) :=
  ⟨⟨h.config, h.lines⟩, hcursor, rfl, rfl, hw⟩

theorem cursor_eq_length_of_none (h : s.cursor ≤ s.stream.length) (hb : s.stream[s.cursor]? = none) :
    s.cursor = s.stream.length :=
  Nat.le_antisymm h (List.getElem?_eq_none_iff.mp hb)

/-- Where row T9 and row T11 leave a session, `t` being told by its frame: at the line's end in `EMIT`, else in a phase
that assembles the line. -/
theorem lineHeld_full_or_open {b : Byte} {k : Nat} {r : BitVec 8} {x : BitVec 5} {p : Phase} {e : BitVec 9}
    (hopen : LineOpen s) (hk : s.pos.toNat + k ≤ s.width.toNat)
    (hst : RunStored (receivePixelByte b s.consumed) t s.pos.toNat k)
    (hfull : s.posPlus k = s.width → t.phase = .emit ∧ t.emitLeft = s.lineRepeat)
    (ht : t = { receivePixelByte b s.consumed with
      linebuf := t.linebuf, pos := s.posPlus k, runLeft := r, pxIdx := x, phase := p, emitLeft := e }) :
    PhaseInv t ∨ s.posPlus k ≠ s.width ∧ LineOpen t := by
  have hheld := LineHeld.pixelStored hopen hk hst ht
  have hpos : t.pos = s.posPlus k := by rw [ht]
  have hwidth : t.width = s.width := by rw [ht]; rfl
  have hrep : t.lineRepeat = s.lineRepeat := by rw [ht]; rfl
  by_cases hend : s.posPlus k = s.width
  · obtain ⟨hp, hemit⟩ := hfull hend
    exact .inl (.of_full hp hheld (hpos.trans (hend.trans hwidth.symm)) (hemit.trans hrep.symm))
  · refine .inr ⟨hend, hheld, ?_⟩
    rw [hpos, hwidth]
    exact posPlus_lt_width hk hend

/-- A head loads a run in its range (R33 item 4), and no byte of its pixel has come in (R33 item 5). -/
theorem LineOpen.runBegun (h : LineOpen s) (code : Byte) (n : BitVec 8) (p : Phase) :
    LineOpen { s.consumed with code := code, runLeft := n, pxIdx := 0, phase := p } :=
  ⟨⟨⟨h.config, h.lines⟩, h.errors, h.repeatRange, h.written⟩, h.room⟩

theorem LineOpen.pixelBytes_pos (h : LineOpen s) : 0 < s.pixelBytes := by
  obtain ⟨-, -, hbpp, -⟩ := h.config
  exact Nat.div_pos hbpp (by decide)

theorem PhaseInv.midPixel {b : Byte} (h : PhaseInv s) (hp : s.phase = .repFetch ∨ s.phase = .litFetch)
    (hm : s.pxIdx.toNat + 1 < s.pixelBytes) : PhaseInv (receiveMidPixel b s.consumed) := by
  have hidx : (s.pxIdx + 1).toNat < s.pixelBytes := by rw [pxIdx_succ_toNat hm]; exact hm
  rcases hp with hp | hp <;> simp only [PhaseInv, hp, receiveMidPixel_phase] at h ⊢ <;> obtain ⟨hopen, -, hrun⟩ := h
  · exact ⟨⟨⟨⟨hopen.config, hopen.lines⟩, hopen.errors, hopen.repeatRange, hopen.written⟩, hopen.room⟩, hidx, hrun⟩
  · exact ⟨⟨⟨⟨hopen.config, hopen.lines⟩, hopen.errors, hopen.repeatRange, hopen.written⟩, hopen.room⟩, hidx, hrun⟩

/-- Row T11 leaves a run that is still in its range where it goes on. -/
theorem PhaseInv.litPixel {b : Byte} (h : PhaseInv s) (hp : s.phase = .litFetch) (hr : 0 < s.runLeft.toNat)
    (hst : RunStored (receivePixelByte b s.consumed) t s.pos.toNat 1)
    (hfull : s.posPlus 1 = s.width → t.phase = .emit ∧ t.emitLeft = s.lineRepeat)
    (hover : s.posPlus 1 ≠ s.width → s.runLeft - 1 = 0 → t.phase = .runHeader ∧ t.emitLeft = s.emitLeft)
    (hmore : s.posPlus 1 ≠ s.width → s.runLeft - 1 ≠ 0 → t.phase = .litFetch ∧ t.emitLeft = s.emitLeft)
    (ht : t = { receivePixelByte b s.consumed with
      linebuf := t.linebuf, pos := s.posPlus 1, runLeft := s.runLeft - 1, pxIdx := 0, phase := t.phase,
      emitLeft := t.emitLeft }) : PhaseInv t := by
  simp only [PhaseInv, hp] at h
  obtain ⟨hopen, -, hcode, -, hrange⟩ := h
  rcases lineHeld_full_or_open hopen hopen.room hst hfull ht with hphase | ⟨hend, htopen⟩
  · exact hphase
  by_cases hlast : s.runLeft - 1 = 0
  · exact .of_room (hover hend hlast).1 htopen
  · have hidx : t.pxIdx.toNat < t.pixelBytes := by
      have h0 : t.pxIdx = 0 := by rw [ht]
      rw [h0]; exact htopen.pixelBytes_pos
    have hleft : t.runLeft = s.runLeft - 1 := by rw [ht]
    have htcode : t.code = s.code := by rw [ht]; rfl
    have hne : (s.runLeft - 1).toNat ≠ 0 := fun e => hlast (BitVec.eq_of_toNat_eq e)
    have hpred := runLeft_pred_toNat hr
    simp only [PhaseInv, (hmore hend hlast).1, hleft, htcode]
    exact ⟨htopen, hidx, hcode, by omega, by omega⟩

/-- Row T13: the page's end, the line's end, or the same line again. -/
theorem PhaseInv.emission (h : PhaseInv s) (hp : s.phase = .emit) (hl : 0 < s.emitLeft.toNat)
    (hh : s.currentLine.toNat < s.height.toNat) {bytes : List Byte}
    (hdone : s.currentLine + 1 = s.height → t.phase = .done)
    (hover : s.currentLine + 1 ≠ s.height → s.emitLeft - 1 = 0 → t.phase = .lineHeader)
    (hmore : s.currentLine + 1 ≠ s.height → s.emitLeft - 1 ≠ 0 → t.phase = .emit)
    (ht : t = { s with
      trace := s.trace ++ [⟨s.currentLine, bytes⟩], currentLine := s.currentLine + 1, emitLeft := s.emitLeft - 1,
      phase := t.phase }) : PhaseInv t := by
  simp only [PhaseInv, hp] at h
  obtain ⟨hheld, hfull, -, hemit⟩ := h
  have hsucc := currentLine_succ_toNat hh
  have hpred := emitLeft_pred_toNat hl
  by_cases hend : s.currentLine + 1 = s.height
  · rw [ht, hdone hend]
    exact ⟨hheld.config, hend, hheld.errors⟩
  · have hlines : (s.currentLine + 1).toNat < s.height.toNat := by
      have : (s.currentLine + 1).toNat ≠ s.height.toNat := fun e => hend (BitVec.eq_of_toNat_eq e)
      omega
    by_cases hlast : s.emitLeft - 1 = 0
    · rw [ht, hover hend hlast]
      exact ⟨⟨hheld.config, hlines⟩, hheld.errors, fun _ => ⟨hfull, hheld.repeatRange⟩⟩
    · have hne : (s.emitLeft - 1).toNat ≠ 0 := fun e => hlast (BitVec.eq_of_toNat_eq e)
      have hleft : 1 ≤ (s.emitLeft - 1).toNat ∧ (s.emitLeft - 1).toNat ≤ s.lineRepeat.toNat := by omega
      rw [ht, hmore hend hlast]
      exact ⟨⟨⟨hheld.config, hlines⟩, hheld.errors, hheld.repeatRange, hheld.written⟩, hfull, hleft⟩

theorem LineOpen.of_phaseInv (h : PhaseInv s) (hl : s.phase.inLine = true) : LineOpen s := by
  cases hp : s.phase with simp only [PhaseInv, hp] at h
  | runHeader => exact h
  | repFetch | litFetch => exact h.1
  | _ => rw [hp] at hl; cases hl

theorem Row.phaseInv (h : Row s t) (hc : s.cursor ≤ s.stream.length) (hs : PhaseInv s) : PhaseInv t := by
  have hlineOpen : ∀ {p : Phase}, s.phase = p → p.inLine = true → LineOpen s := fun hp hl => .of_phaseInv hs (hp ▸ hl)
  cases h with
  | wait => exact hs
  | line b hp =>
    simp only [PhaseInv, hp] at hs
    obtain ⟨hopen, herr, -⟩ := hs
    exact .lineBegun hopen herr b
  | lineEofError hp hb hpolicy =>
    simp only [PhaseInv, hp] at hs
    exact .raiseTruncated hs.1 (cursor_eq_length_of_none hc hb) (.inl ⟨rfl, rfl, hpolicy⟩)
  | lineEofShort hp hb hpolicy =>
    simp only [PhaseInv, hp] at hs
    obtain ⟨hopen, -⟩ := hs
    exact ⟨⟨hopen.config, hopen.lines⟩, cursor_eq_length_of_none hc hb, ⟨rfl, rfl, rfl, rfl⟩, hpolicy⟩
  | blank b hp => exact .of_full rfl (.blanked (hlineOpen hp rfl)) rfl rfl
  | repHead b m hp =>
    have hopen := (hlineOpen hp rfl).runBegun (encodeHead (.rep m)) (repLength m) .repFetch
    have hcode := u8_encodeHead_rep m
    have hm : m.toNat < 128 := m.isLt
    refine ⟨hopen, hopen.pixelBytes_pos, ?_, ?_⟩
    · show u8 (encodeHead (.rep m)) ≤ 127; omega
    · show (repLength m).toNat = u8 (encodeHead (.rep m)) + 1; rw [repLength_toNat, hcode]
  | litHead b m hp hb hd hm =>
    have hopen := (hlineOpen hp rfl).runBegun (encodeHead (.lit m)) (litLength m) .litFetch
    have hcode := u8_encodeHead_lit (m := m)
    have hlen := litLength_toNat m
    have hlt : m.toNat < 128 := m.isLt
    have hpos : m.toNat ≠ 0 := fun e => hm (BitVec.eq_of_toNat_eq e)
    have hrun : 129 ≤ u8 (encodeHead (.lit m)) ∧ 1 ≤ (litLength m).toNat ∧
        (litLength m).toNat + u8 (encodeHead (.lit m)) ≤ 257 := by omega
    exact ⟨hopen, hopen.pixelBytes_pos, hrun⟩
  | runEof hp hb =>
    have hopen := hlineOpen hp rfl
    exact .raiseTruncated hopen.toPageOpen (cursor_eq_length_of_none hc hb) (.inr ⟨.inl rfl, rfl, hopen.room⟩)
  | midPixel b hp hb hm => exact hs.midPixel hp hm
  | repPixel b _ k hp hb hi hr hpos hcap hk hwf hst hfull hroom ht =>
    have hopen := hlineOpen hp rfl
    rcases lineHeld_full_or_open hopen (hk ▸ clamp_le hpos.le _) hst hfull ht with hphase | ⟨hend, htopen⟩
    · exact hphase
    · exact .of_room (hroom hend).1 htopen
  | litPixel b _ hp hb hi hr hpos hcap hwf hst hfull hover hmore ht => exact hs.litPixel hp hr hst hfull hover hmore ht
  | payloadEof hp hb =>
    have hopen : LineOpen s := by rcases hp with hp | hp <;> exact hlineOpen hp rfl
    exact .raiseTruncated hopen.toPageOpen (cursor_eq_length_of_none hc hb) (.inr ⟨.inr rfl, rfl, hopen.room⟩)
  | emission bytes _ hp hl hh hb hdone hover hmore ht => exact hs.emission hp hl hh hdone hover hmore ht

theorem Row.inv (h : Row s t) (hi : Inv s) : Inv t :=
  inv_of_phaseInv (h.machineInv hi) (h.phaseInv hi.cursorInStream hi.phaseInv)

/-! ## Reset, START and the host -/

theorem Inv.withHost (h : Inv s) (acts : List HostAct) : Inv { s with host := acts } := { h with }

theorem inv_of_idle_fresh (hp : s.phase = .idle) (hcap : 1 ≤ s.build.lineBufBytes) (hbuf : s.linebuf = [])
    (hcursor : s.cursor ≤ s.stream.length) (htrace : s.trace = []) (hline : s.currentLine = 0) (herr : s.errorsClear) :
    Inv s := by
  refine inv_of_phaseInv ⟨hcap, ?_, ?_, hcursor, ?_, ?_⟩ ?_
  · rw [hbuf]; exact Memory.wf_nil
  · intro a _; rw [State.bufRead, hbuf]; rfl
  · rw [htrace, hline]; rfl
  · rw [htrace]; nofun
  · simp only [PhaseInv, hp]; exact ⟨hline, herr⟩

theorem inv_resetOf {b : Config.Build} (hb : 1 ≤ b.lineBufBytes) : Inv (State.resetOf b) :=
  inv_of_idle_fresh rfl hb rfl le_rfl rfl rfl ⟨rfl, rfl, rfl, rfl⟩

theorem Inv.hardwareReset (h : Inv s) : Inv (hardwareReset s) :=
  inv_of_idle_fresh rfl h.bufferSize rfl h.cursorInStream rfl rfl ⟨rfl, rfl, rfl, rfl⟩

theorem Inv.openSession {c : Page} (h : Inv s) (hc : c.legal s.build.lineBufBytes = true) : Inv (openSession c s) := by
  obtain ⟨hwidth, hheight, hrest⟩ := Page.legal_iff.mp hc
  refine inv_of_phaseInv ⟨h.bufferSize, h.bufferWf, h.bufferFits, Nat.zero_le _, rfl, nofun⟩ ?_
  exact ⟨⟨⟨hwidth, hheight, hrest⟩, hheight⟩, ⟨rfl, rfl, rfl, rfl⟩, fun hne => absurd rfl hne⟩

theorem Inv.start {c : Page} (h : Inv s) (hs : start c s = .next t) : Inv t := by
  obtain ⟨-, hlegal, rfl⟩ := start_eq_next.mp hs
  exact h.openSession hlegal

theorem Inv.step (h : Inv s) (hs : step s = .next t) : Inv t := by
  rcases step_cases hs with ⟨c, rest, u, rfl, hstart⟩ | ⟨rest, rfl⟩ | ⟨rest, hrun⟩
  · exact (h.withHost rest).start hstart
  · exact (h.withHost rest).hardwareReset
  · exact (transaction_row hrun).inv (h.withHost rest)

end

/-- Settles O44. -/
theorem resetMeetsInvariants : Obligations.ResetMeetsInvariants := by
  unfold Obligations.ResetMeetsInvariants
  exact ⟨fun b => inv_resetOf, inv_resetOf (by decide)⟩

/-- Settles O45: START and reset set up the invariants of their phase, and each row of R105 keeps them. -/
theorem stepKeepsInvariants : Obligations.StepKeepsInvariants := by
  unfold Obligations.StepKeepsInvariants
  intro s t h hs
  exact h.step hs

/-! ## No step faults -/

section
variable {s : State}

theorem LineOpen.fits (h : LineOpen s) : s.lineBytes ≤ s.build.lineBufBytes := by
  obtain ⟨-, -, -, -, hcap⟩ := h.config
  exact hcap

/-- What the invariants say in a payload phase, the same for `REP` and `LIT`. -/
theorem Inv.runUnderWay (h : Inv s) (hp : s.phase = .repFetch ∨ s.phase = .litFetch) :
    LineOpen s ∧ s.pxIdx.toNat < s.pixelBytes ∧ 0 < s.runLeft.toNat := by
  have hs := h.phaseInv
  rcases hp with hp | hp <;> simp only [PhaseInv, hp] at hs
  · obtain ⟨hopen, hidx, -, hrun⟩ := hs
    exact ⟨hopen, hidx, by omega⟩
  · obtain ⟨hopen, hidx, -, hrun, -⟩ := hs
    exact ⟨hopen, hidx, hrun⟩

theorem Inv.transaction_payload (h : Inv s) (hp : s.phase = .repFetch ∨ s.phase = .litFetch) :
    ∃ t, transaction s = .next t := by
  obtain ⟨hopen, hidx, hrun⟩ := h.runUnderWay hp
  obtain ⟨finish, hfetch⟩ := transaction_fetching hp
  cases hb : s.stream[s.cursor]? with
  | none => exact ⟨_, hfetch.trans (fetchPayload_eof hb)⟩
  | some b =>
    by_cases hm : s.pxIdx.toNat + 1 < s.pixelBytes
    · exact ⟨_, hfetch.trans (fetchPayload_mid hb hm)⟩
    · have hd : LastByteDue s b := ⟨hb, by omega, hrun, hopen.room, hopen.fits⟩
      rcases hp with hp | hp
      · obtain ⟨m, -, hnext⟩ := transaction_repPixel hp hd
        exact ⟨_, hnext⟩
      · obtain ⟨m, -, hnext⟩ := transaction_litPixel hp hd
        exact ⟨_, hnext⟩

/-- An emission is due in `EMIT`, and every byte of the line was written. -/
theorem Inv.emission (h : Inv s) (hp : s.phase = .emit) : 0 < s.emitLeft.toNat ∧ s.currentLine.toNat < s.height.toNat ∧
    ∃ bytes, Memory.readBytes s.linebuf 0 s.lineBytes = some bytes := by
  have hs := h.phaseInv
  simp only [PhaseInv, hp] at hs
  obtain ⟨hheld, hfull, hleft, -⟩ := hs
  refine ⟨hleft, hheld.lines, Option.isSome_iff_exists.mp ((Memory.readBytes_isSome _ _ _).mpr fun i hi => ?_)⟩
  rw [Nat.zero_add]
  exact hheld.written i (by rw [hfull]; exact hi)

/-- Under the invariants a row of R105 always applies. -/
theorem Inv.exists_transaction (h : Inv s) : ∃ t, transaction s = .next t := by
  cases hp : s.phase with
  | idle | done | failed | endedShort => exact ⟨s, transaction_wait (by simp [hp])⟩
  | lineHeader =>
    cases hb : s.stream[s.cursor]? with
    | none => exact ⟨_, transaction_lineHeader_eof hp hb⟩
    | some b => exact ⟨_, (transaction_lineHeader hp hb).trans (execLine_lineHeader (s := s.consumed) hp b)⟩
  | runHeader =>
    have hopen := h.lineOpen (by rw [hp]; rfl)
    cases hb : s.stream[s.cursor]? with
    | none => exact ⟨_, transaction_runHeader_eof hp hb⟩
    | some b =>
      obtain ⟨t, hexec, -⟩ := exec_decodeControl_inLine b (s := s.consumed) hp hopen.room hopen.fits
      exact ⟨t, (transaction_runHeader hp hb).trans hexec⟩
  | repFetch => exact h.transaction_payload (.inl hp)
  | litFetch => exact h.transaction_payload (.inr hp)
  | emit =>
    obtain ⟨hleft, hlines, bytes, hbytes⟩ := h.emission hp
    exact ⟨_, transaction_emission hp hleft hlines hbytes⟩

/-- What a step can answer under the invariants: a next state, or the refusal of a START that the host has pending. -/
def SafeAnswer (s : State) (r : Result) : Prop :=
  (∃ t, r = .next t) ∨ ((r = .refused .startWhileBusy ∨ r = .refused .illegalConfiguration) ∧ ∃ c, HostAct.start c ∈ s.host)

theorem start_answers (c : Page) (s : State) : (∃ t, start c s = .next t) ∨
    start c s = .refused .startWhileBusy ∨ start c s = .refused .illegalConfiguration := by
  unfold start
  split
  · exact .inr (.inl rfl)
  · split
    · exact .inl ⟨_, rfl⟩
    · exact .inr (.inr rfl)

theorem Inv.safeAnswer {acts : List HostAct} (hhost : s.host = acts) (h : Inv s) : SafeAnswer s (Machine.step s) := by
  induction acts generalizing s with
  | nil => rw [step_no_acts hhost]; exact .inl h.exists_transaction
  | cons act rest ih => cases act with
    | serve => rw [step_serve hhost]; exact .inl (h.withHost rest).exists_transaction
    | await =>
      cases hb : s.phase.busy with
      | true => rw [step_await_busy hhost hb]; exact .inl h.exists_transaction
      | false =>
        rw [step_await_quiet hhost hb]
        rcases ih (s := { s with host := rest }) rfl (h.withHost rest) with hnext | ⟨hrefused, c, hc⟩
        · exact .inl hnext
        · exact .inr ⟨hrefused, c, by rw [hhost]; exact List.mem_cons_of_mem _ hc⟩
    | start c =>
      rw [step_start hhost]
      exact (start_answers c _).imp_right fun hrefused => ⟨hrefused, c, by rw [hhost]; exact List.mem_cons_self⟩
    | reset => rw [step_reset hhost]; exact .inl ⟨_, rfl⟩

end

/-- Settles O46, by induction on the acts the host has pending. -/
theorem noStepFaults : Obligations.NoStepFaults := by
  unfold Obligations.NoStepFaults
  intro s h
  obtain ⟨t, ht⟩ | ⟨hrefused, hc⟩ := h.safeAnswer rfl
  · rw [ht]; exact ⟨nofun, nofun⟩
  · rcases hrefused with hr | hr <;> rw [hr]
    · exact ⟨nofun, fun x hx => ⟨.inl (Host.Outcome.refused.inj hx).symm, hc⟩⟩
    · exact ⟨nofun, fun x hx => ⟨.inr (Host.Outcome.refused.inj hx).symm, hc⟩⟩

/-- Settles O48. -/
theorem reportOfTerminalPhase : Obligations.ReportOfTerminalPhase := by
  unfold Obligations.ReportOfTerminalPhase
  intro s h
  have hs := h.phaseInv
  refine ⟨?done, ?failed, ?endedShort, ?busy⟩
  case done =>
    intro hp
    simp only [PhaseInv, hp] at hs
    obtain ⟨-, hend, herr⟩ := hs
    exact ⟨by rw [State.result, hp], hend, herr⟩
  case failed =>
    intro hp
    simp only [PhaseInv, hp] at hs
    obtain ⟨hopen, hcursor, hkind, hrow, hread⟩ := hs
    refine ⟨by rw [State.result, hp], hkind, hrow, ?_, hopen.lines, hcursor⟩
    exact hread.imp_left fun ⟨hw, hcol, _⟩ => ⟨hw, hcol⟩
  case endedShort =>
    intro hp
    simp only [PhaseInv, hp] at hs
    obtain ⟨hopen, hcursor, herr, -⟩ := hs
    exact ⟨by rw [State.result, hp], herr, hopen.lines, hcursor⟩
  case busy =>
    cases hp : s.phase <;> simp [State.result, State.status, Phase.status, hp]

/-! ## What a step may read -/

section
variable {s t : State}

theorem AgreeOnLive.withHost (h : AgreeOnLive s t) (acts : List HostAct) :
    AgreeOnLive { s with host := acts } { t with host := acts } := { h with host := rfl }

theorem AgreeOnLive.hardwareReset (h : AgreeOnLive s t) : AgreeOnLive (hardwareReset s) (hardwareReset t) where
  build := h.build
  phase := rfl
  currentLine := rfl
  errors := ⟨rfl, rfl, rfl, rfl⟩
  source := h.source
  sink := rfl
  host := h.host
  config := fun hne => absurd rfl hne
  line := nofun
  run := nofun
  emission := nofun

theorem AgreeOnLive.answersAgree_transaction (h : AgreeOnLive s t) (hs : Inv s) :
    AnswersAgree (transaction s) (transaction t) := by
  obtain ⟨s', hs'⟩ := hs.exists_transaction
  obtain ⟨t', ht', hagree⟩ := h.exists_transaction (fun hp => hs.posAtEnd (.inl hp)) hs'
  rw [hs', ht']
  exact hagree

theorem AgreeOnLive.answersAgree_start (h : AgreeOnLive s t) (c : Page) : AnswersAgree (start c s) (start c t) := by
  unfold Machine.start
  rw [← h.phase, ← h.build]
  split
  · exact rfl
  · split
    · exact agreeOnLive_openSession c h.build h.host
    · exact rfl

theorem AgreeOnLive.answersAgree_step {acts : List HostAct} (hhost : s.host = acts) (h : AgreeOnLive s t) (hs : Inv s) :
    AnswersAgree (step s) (step t) := by
  have hhost' : t.host = acts := h.host.symm.trans hhost
  induction acts generalizing s t with
  | nil => rw [step_no_acts hhost, step_no_acts hhost']; exact h.answersAgree_transaction hs
  | cons act rest ih => cases act with
    | serve =>
      rw [step_serve hhost, step_serve hhost']
      exact (h.withHost rest).answersAgree_transaction (hs.withHost rest)
    | await =>
      cases hb : s.phase.busy with
      | true =>
        rw [step_await_busy hhost hb, step_await_busy hhost' (h.phase ▸ hb)]
        exact h.answersAgree_transaction hs
      | false =>
        rw [step_await_quiet hhost hb, step_await_quiet hhost' (h.phase ▸ hb)]
        exact ih (s := { s with host := rest }) (t := { t with host := rest }) rfl (h.withHost rest) (hs.withHost rest) rfl
    | start c => rw [step_start hhost, step_start hhost']; exact (h.withHost rest).answersAgree_start c
    | reset => rw [step_reset hhost, step_reset hhost']; exact (h.withHost rest).hardwareReset

end

/-- Settles O53: the host's acts are the same in both states, and what they start or let pass is matched. -/
theorem stepReadsLiveStateOnly : Obligations.StepReadsLiveStateOnly := by
  unfold Obligations.StepReadsLiveStateOnly
  intro s t hs _ h
  exact h.answersAgree_step rfl hs

end Sys2Proof.Machine

/-! PROOF. Runs of several steps: what holds all along a session (R143, R151), that it ends (R103, R197), the emissions of
one line (R140 to R142) and the `LIT` record whole (R123). -/

namespace Sys2Proof.Machine

/-! ## Along a run -/

section
variable {s t : State}

/-- What every step keeps holds after any number of steps. -/
theorem runSteps_keeps {P : State → Prop} (hkeep : ∀ s t, P s → step s = .next t → P t) {k : Nat} (hs : P s)
    (hrun : runSteps k s = .next t) : P t := by
  induction k generalizing s with
  | zero =>
    obtain rfl := Host.Outcome.next.inj hrun
    exact hs
  | succ k ih =>
    rw [runSteps_succ] at hrun
    obtain ⟨u, hu, hrest⟩ := andThen_eq_next.mp hrun
    exact ih (hkeep s u hs hu) hrest

/-- The host serves the block, and the block is in a good state. -/
structure Served (s : State) : Prop where
  inv : Inv s
  host : s.host = []

theorem Served.row (h : Served s) (hs : step s = .next t) : Row s t :=
  transaction_row ((step_no_acts h.host).symm.trans hs)

theorem Served.step (h : Served s) (hs : step s = .next t) : Served t :=
  ⟨h.inv.step hs, (h.row hs).host.trans h.host⟩

theorem Served.runSteps {k : Nat} (h : Served s) (hrun : runSteps k s = .next t) : Served t :=
  runSteps_keeps (fun _ _ h hs => Served.step h hs) h hrun

theorem Served.exists_step (h : Served s) : ∃ t, Machine.step s = .next t := by
  rw [step_no_acts h.host]; exact h.inv.exists_transaction

/-! ## The session of a page -/

/-- A session under the configuration of the page `c` (R101), under way or at its end. -/
structure SessionOf (c : Page) (s : State) : Prop extends Served s where
  started : s.phase ≠ .idle
  width : s.width = c.width
  height : s.height = c.height
  bpp : s.bpp = c.bitsPerPixel

theorem Phase.ne_idle_of_edge {p q : Phase} (h : p.edge q = true) (hp : p ≠ .idle) : q ≠ .idle := by
  rintro rfl
  revert h hp; cases p <;> decide

theorem SessionOf.step {c : Page} (h : SessionOf c s) (hs : step s = .next t) : SessionOf c t := by
  have hrow := h.row hs
  obtain ⟨-, hwidth, hheight, hbpp, -⟩ := hrow.configKept
  exact ⟨h.toServed.step hs, Phase.ne_idle_of_edge hrow.edge h.started, hwidth.trans h.width, hheight.trans h.height,
    hbpp.trans h.bpp⟩

theorem SessionOf.of_start {c : Page} (h : Served s) (hs : start c s = .next t) : SessionOf c t := by
  have hinv := h.inv.start hs
  obtain ⟨-, -, rfl⟩ := start_eq_next.mp hs
  exact ⟨⟨hinv, h.host⟩, by rw [openSession_phase]; decide, rfl, rfl, rfl⟩

/-- The call with line index `i` is the `i`-th (R150, R155). -/
theorem Inv.image_eq (h : Inv s) {i : Nat} {e : Emission} (he : s.trace[i]? = some e) : s.image i = some e.bytes := by
  obtain ⟨hi, rfl⟩ := List.getElem?_eq_some_iff.mp he
  have hindex : ∀ (j : Nat) (hj : j < s.trace.length), s.trace[j].lineIndex.toNat = j := fun j hj =>
    (h.traceEntries j _ (List.getElem?_eq_getElem hj)).1
  have hfind : s.trace.find? (fun e => e.lineIndex.toNat == i) = some s.trace[i] := by
    refine List.find?_eq_some_iff_getElem.mpr ⟨beq_iff_eq.mpr (hindex i hi), i, hi, rfl, fun j hj => ?_⟩
    rw [hindex j (hj.trans hi)]
    simpa using hj.ne
  rw [State.image, hfind]; rfl

end

/-- Settles O47: a session under the page's configuration keeps the invariants, which count the calls and tell them apart. -/
theorem doneMeansWholePage : Obligations.DoneMeansWholePage := by
  unfold Obligations.DoneMeansWholePage
  intro c s s1 t k hinv hhost hstart hrun
  have h : SessionOf c t :=
    runSteps_keeps (fun _ _ h hs => SessionOf.step h hs) (SessionOf.of_start ⟨hinv, hhost⟩ hstart) hrun
  have hcount := h.inv.traceLength
  obtain ⟨hle, hdone⟩ := h.inv.lines h.started
  rw [h.height] at hle hdone
  refine ⟨?calls, hcount.symm, ?done, ?before⟩
  case calls =>
    intro i hi
    obtain ⟨e, he⟩ : ∃ e, t.trace[i]? = some e := ⟨_, List.getElem?_eq_getElem hi⟩
    obtain ⟨hindex, hlen⟩ := h.inv.traceEntries i e he
    have hcall : (⟨BitVec.ofNat 32 e.lineIndex.toNat, e.bytes⟩ : Emission) = e := by
      rw [BitVec.ofNat_toNat, BitVec.setWidth_eq]
    refine ⟨e.bytes, by rw [he, ← hindex, hcall], h.inv.image_eq he, ?_⟩
    rw [hlen, State.lineBytes, State.pixelBytes, h.width, h.bpp]
  case done =>
    intro hp
    rw [hcount, hdone.mpr hp]
  case before =>
    intro hp
    have hne : t.currentLine.toNat ≠ c.height.toNat := fun e => hp (hdone.mp (BitVec.eq_of_toNat_eq e))
    omega

/-! ## The session ends -/

section
variable {s t : State}

/-- How many steps a session can still take: a read for each byte ahead and one more, and a call for each line left. -/
def State.stepsLeft (s : State) : Nat := (s.ahead.length + 1) + (s.height.toNat - s.currentLine.toNat)

/-- A read at the end of the stream ends the session (rows T2, T3, T7, T12). -/
theorem Row.quiet_of_eof (h : Row s t) (hp : s.phase.readsStream = true) (heof : s.stream[s.cursor]? = none) :
    t.phase.busy = false := by
  cases h with
  | lineEofError | lineEofShort | runEof | payloadEof => rfl
  | wait hq => rcases hq with hq | hq | hq | hq <;> rw [hq] at hp <;> cases hp
  | emission bytes _ hq => rw [hq] at hp; cases hp
  | line b hq hb | blank b hq hb | repHead b m hq hb | litHead b m hq hb | midPixel b hq hb
  | repPixel b _ k hq hb | litPixel b _ hq hb => rw [heof] at hb; cases hb

theorem Phase.readsStream_of_busy {p : Phase} (hb : p.busy = true) (hp : p ≠ .emit) : p.readsStream = true := by
  revert hb hp; cases p <;> decide

theorem Row.stepsLeft_lt (h : Row s t) (hi : Inv s) (hb : s.phase.busy = true) :
    t.phase.busy = false ∨ t.stepsLeft < s.stepsLeft := by
  obtain ⟨-, -, hheight, -, hstream, -⟩ := h.configKept
  simp only [State.stepsLeft, State.ahead, List.length_drop, hheight, hstream]
  by_cases hp : s.phase = .emit
  · obtain ⟨hcount, -⟩ := h.line_handed hp
    obtain ⟨-, hlines, -⟩ := hi.emission hp
    rcases h.byteRead_or_nothingRead with ⟨-, -, hreads⟩ | ⟨hcursor, -⟩
    · rw [hp] at hreads; cases hreads
    · right; omega
  · have hreads := Phase.readsStream_of_busy hb hp
    obtain ⟨hcount, -⟩ := h.lines_eq_of_ne_emit hp
    rcases h.byteRead_or_nothingRead with ⟨hcursor, hmore, -⟩ | ⟨-, heof | hquiet⟩
    · right; rw [hcount]; omega
    · exact .inl (h.quiet_of_eof hreads (List.getElem?_eq_none_iff.mpr heof))
    · rw [hreads] at hquiet; cases hquiet

/-- A session that is served runs to its end. -/
theorem Served.exists_end {n : Nat} (h : Served s) (hb : s.phase.busy = true) (hn : s.stepsLeft ≤ n) :
    ∃ k t, k ≤ n ∧ Machine.runSteps k s = .next t ∧ t.phase.busy = false := by
  induction n generalizing s with
  | zero => simp only [State.stepsLeft] at hn; omega
  | succ n ih =>
    obtain ⟨t, ht⟩ := h.exists_step
    have hrun : ∀ k, Machine.runSteps (k + 1) s = Machine.runSteps k t := fun k => by
      rw [runSteps_succ, ht, andThen_next]
    cases hbt : t.phase.busy with
    | false => exact ⟨1, t, by omega, hrun 0, hbt⟩
    | true =>
      rcases (h.row ht).stepsLeft_lt h.inv hb with hquiet | hlt
      · rw [hbt] at hquiet; cases hquiet
      · obtain ⟨k, u, hk, hu, hend⟩ := ih (h.step ht) hbt (by omega)
        exact ⟨k + 1, u, by omega, (hrun k).trans hu, hend⟩

end

/-- Settles O49: every step of a busy session reads a byte, hands over a line, or ends it. -/
theorem sessionEndsInTime : Obligations.SessionEndsInTime := by
  unfold Obligations.SessionEndsInTime
  intro s hinv hhost hbusy
  exact Served.exists_end ⟨hinv, hhost⟩ hbusy le_rfl

/-! ## One line's emissions -/

section
variable {s : State}

/-- The calls that hand over the same bytes under consecutive indices. -/
def callsFrom (line : Nat) (bytes : List Byte) (k : Nat) : List Emission :=
  (List.range k).map fun i => ⟨BitVec.ofNat 32 (line + i), bytes⟩

theorem callsFrom_succ (line : BitVec 32) (bytes : List Byte) (k : Nat) :
    callsFrom line.toNat bytes (k + 1) = ⟨line, bytes⟩ :: callsFrom (line.toNat + 1) bytes k := by
  simp only [callsFrom, List.range_succ_eq_map, List.map_cons, List.map_map, Nat.add_zero, BitVec.ofNat_toNat,
    BitVec.setWidth_eq]
  congr 1
  refine List.map_congr_left fun i _ => ?_
  rw [Function.comp_apply, Nat.succ_eq_add_one, Nat.add_right_comm, Nat.add_assoc]

/-- A line's emissions, down to the last that the line or the page has left (R140 to R142). -/
theorem Served.runSteps_emissions {k : Nat} {bytes : List Byte} (h : Served s) (hp : s.phase = .emit)
    (hb : Memory.readBytes s.linebuf 0 s.lineBytes = some bytes)
    (hk : k = min s.emitLeft.toNat (s.height.toNat - s.currentLine.toNat)) :
    ∃ t, Machine.runSteps k s = .next t ∧
      t = { s with
        trace := s.trace ++ callsFrom s.currentLine.toNat bytes k, currentLine := t.currentLine
        emitLeft := t.emitLeft, phase := t.phase } ∧
      t.currentLine.toNat = s.currentLine.toNat + k ∧
      t.phase = if t.currentLine = s.height then .done else .lineHeader := by
  obtain ⟨hleft, hlines, -⟩ := h.inv.emission hp
  induction k generalizing s with
  | zero => omega
  | succ k ih =>
    have hstep : Machine.step s = .next (afterEmission (s.lineHanded bytes)) :=
      (step_no_acts h.host).trans (transaction_emission hp hleft hlines hb)
    have hsucc := currentLine_succ_toNat hlines
    have hpred := emitLeft_pred_toNat hleft
    obtain ⟨hdone, hover, hmore, hframe⟩ := afterEmission_spec (s.lineHanded bytes)
    have hserved := h.step hstep
    generalize afterEmission (s.lineHanded bytes) = t at *
    have hrun : ∀ k, Machine.runSteps (k + 1) s = Machine.runSteps k t := fun k => by
      rw [runSteps_succ, hstep, andThen_next]
    have hline : t.currentLine = s.currentLine + 1 := by rw [hframe]
    have hemit : t.emitLeft = s.emitLeft - 1 := by rw [hframe]
    have htrace : t.trace = s.trace ++ [⟨s.currentLine, bytes⟩] := by rw [hframe]
    cases k with
    | zero =>
      refine ⟨t, hrun 0, ?_, by rw [hline, hsucc], ?_⟩
      · rw [callsFrom_succ]
        conv_lhs => rw [hframe]
        rw [hline, hemit]
        rfl
      · by_cases hend : s.currentLine + 1 = s.height
        · rw [hline, if_pos hend, hdone hend]
        · have hlast : s.emitLeft - 1 = 0 := by
            have hne : (s.currentLine + 1).toNat ≠ s.height.toNat := fun e => hend (BitVec.eq_of_toNat_eq e)
            exact BitVec.eq_of_toNat_eq (show (s.emitLeft - 1).toNat = 0 by omega)
          rw [hline, if_neg hend, hover hend hlast]
    | succ k =>
      have hend : s.currentLine + 1 ≠ s.height := fun e => by
        have := congrArg BitVec.toNat e; omega
      have hlast : s.emitLeft - 1 ≠ 0 := fun e => by
        have h0 : (s.emitLeft - 1).toNat = 0 := congrArg BitVec.toNat e
        omega
      have hpt : t.phase = .emit := (hmore hend hlast).trans hp
      have hbt : Memory.readBytes t.linebuf 0 t.lineBytes = some bytes := by rw [hframe]; exact hb
      have hht : t.height = s.height := by rw [hframe]
      obtain ⟨u, hu, huframe, huline, huphase⟩ := ih hserved hpt hbt (by rw [hemit, hht, hline]; omega)
        (by rw [hemit]; omega) (by rw [hht, hline]; omega)
      refine ⟨u, (hrun _).trans hu, ?_, by rw [huline, hline]; omega, by rw [huphase, hht]⟩
      rw [callsFrom_succ]
      conv_lhs => rw [huframe, htrace, hline, hsucc, List.append_assoc, hframe]
      rfl

end

/-- Settles O28: the line's emissions are consecutive turns of row T13. -/
theorem lineEmittedRepeatedly : Obligations.LineEmittedRepeatedly := by
  unfold Obligations.LineEmittedRepeatedly
  intro s k hinv hhost hphase hk
  obtain ⟨-, -, bytes, hbytes⟩ := hinv.emission hphase
  obtain ⟨hlen, hread⟩ := Memory.readBytes_spec hbytes
  obtain ⟨t, hrun, hframe, hline, hend⟩ := Served.runSteps_emissions ⟨hinv, hhost⟩ hphase hbytes hk
  have hheight : t.height = s.height := by rw [hframe]
  refine ⟨t, bytes, hrun, fun a ha => ?_, hlen, ?_, hline, ?_, ?_, hheight ▸ hend⟩
  · have := hread a ha
    rwa [Nat.zero_add] at this
  all_goals rw [hframe]
  rfl

/-! ## `LIT` whole -/

section
variable {s t : State}

/-- The state a `LIT`'s head leaves, its control byte consumed (row T6 of R105). -/
abbrev State.litOpened (s : State) (m : BitVec 7) : State :=
  { s.consumed with code := encodeHead (.lit m), runLeft := litLength m, pxIdx := 0, phase := .litFetch }

/-- A negative control byte that is not `BLANK`'s opens a `LIT`. -/
theorem step_litHead {b : Byte} (hh : s.host = []) (hp : s.phase = .runHeader) (hb : s.stream[s.cursor]? = some b)
    (hlo : -127 ≤ s8 b) (hhi : s8 b ≤ -1) :
    ∃ m : BitVec 7, ((litLength m).toNat : Int) = -s8 b + 1 ∧ step s = .next (s.litOpened m) := by
  obtain ⟨m, hd, hne, hm⟩ := decodeControl_of_neg hlo hhi
  exact ⟨m, by rw [litLength_toNat]; omega,
    by rw [step_runHeader hh hp hb, hd, execLit_runHeader (s := s.consumed) hp hne]⟩

/-- `q` pixels of a `LIT` read and stored from the state `s` on, in which its payload begins (row T11, `q` times). -/
structure LitProgress (s t : State) (q : Nat) : Prop where
  frame : t = { s with
    cursor := s.cursor + q * s.pixelBytes, px := t.px, pxIdx := 0, linebuf := t.linebuf, pos := t.pos
    runLeft := t.runLeft, phase := t.phase, emitLeft := t.emitLeft }
  pos : t.pos.toNat = s.pos.toNat + q
  left : t.runLeft.toNat + q = s.runLeft.toNat
  stored : ∀ i j, i < q → j < s.pixelBytes →
    t.bufRead (s.byteAddress (s.pos.toNat + i) j) = s.stream[s.cursor + i * s.pixelBytes + j]?
  outside : BufferSameOutside s t (s.pixelAddress s.pos.toNat) (s.pixelAddress (s.pos.toNat + q))
  full : t.pos = s.width → t.phase = .emit ∧ t.emitLeft = s.lineRepeat
  spent : t.pos ≠ s.width → t.runLeft = 0 → t.phase = .runHeader
  more : t.pos ≠ s.width → t.runLeft ≠ 0 → t.phase = .litFetch

/-- A `LIT`'s payload that begins in an open line which the buffer holds. -/
structure LitBegun (s : State) : Prop where
  host : s.host = []
  phase : s.phase = .litFetch
  index : s.pxIdx = 0
  pixel : 1 ≤ s.pixelBytes
  run : 0 < s.runLeft.toNat
  room : s.pos.toNat < s.width.toNat
  fits : s.lineBytes ≤ s.build.lineBufBytes

theorem LitProgress.refl (h : LitBegun s) : LitProgress s s 0 where
  frame := by rw [Nat.zero_mul, Nat.add_zero, ← h.index]
  pos := rfl
  left := rfl
  stored := fun i j hi => absurd hi (Nat.not_lt_zero i)
  outside := fun a _ => rfl
  full := fun e => absurd (congrArg BitVec.toNat e) h.room.ne
  spent := fun _ e => absurd (congrArg BitVec.toNat e) h.run.ne'
  more := fun _ _ => h.phase

/-- While the run and the line both have a pixel left, the payload goes on. -/
theorem LitProgress.begun {q : Nat} (h : LitProgress s t q) (hs : LitBegun s) (hq : q < s.clamp s.runLeft.toNat) :
    LitBegun t := by
  have hpos := h.pos
  have hleft := h.left
  simp only [State.clamp] at hq
  have hne : t.pos ≠ s.width := fun e => by have := congrArg BitVec.toNat e; omega
  have hrun : t.runLeft ≠ 0 := fun e => by
    have h0 : t.runLeft.toNat = 0 := congrArg BitVec.toNat e
    omega
  refine ⟨?_, h.more hne hrun, ?_, ?_, by omega, ?_, ?_⟩
  · rw [h.frame]; exact hs.host
  · rw [h.frame]
  · rw [h.frame]; exact hs.pixel
  · have hw : t.width = s.width := by rw [h.frame]
    rw [hw]; omega
  · rw [h.frame]; exact hs.fits

/-- One more pixel of the payload: its bytes are read and it is stored (rows T10 and T11). -/
theorem LitBegun.runSteps_pixel (h : LitBegun t) (hc : t.cursor + t.pixelBytes ≤ t.stream.length) :
    ∃ px pxIdx lb, (∀ j, j < t.pixelBytes → px[j]? = t.stream[t.cursor + j]?) ∧
      RunStored (t.pixelRead px pxIdx) { t.pixelRead px pxIdx with linebuf := lb } t.pos.toNat 1 ∧
      runSteps t.pixelBytes t = .next (afterLitPixel ((t.pixelRead px pxIdx).litStored lb)) := by
  obtain ⟨u, hu, hpx, -, hrun⟩ :=
    Machine.runSteps_pixel t h.host (by rw [h.phase]; rfl) h.index h.pixel hc h.run h.room
  generalize u.px = px at hu hpx
  generalize u.pxIdx = pxIdx at hu
  subst hu
  obtain ⟨lb, -, hstored, hfinish⟩ := finishLitPixel_spec (s := t.pixelRead px pxIdx) h.room h.fits
  exact ⟨px, pxIdx, lb, hpx, hstored, (hrun h.phase).trans hfinish⟩

theorem LitProgress.succ {q : Nat} (h : LitProgress s t q) (hs : LitBegun s) (hq : q < s.clamp s.runLeft.toNat)
    (hc : s.cursor + (q + 1) * s.pixelBytes ≤ s.stream.length) :
    ∃ u, runSteps s.pixelBytes t = .next u ∧ LitProgress s u (q + 1) := by
  have ht := h.begun hs hq
  have hframe := h.frame
  have hcursor : t.cursor = s.cursor + q * s.pixelBytes := by rw [hframe]
  have hstream : t.stream = s.stream := by rw [hframe]
  have hpb : t.pixelBytes = s.pixelBytes := by rw [hframe]; rfl
  have hwidth : t.width = s.width := by rw [hframe]
  have hrep : t.lineRepeat = s.lineRepeat := by rw [hframe]
  have haddr : ∀ p, t.pixelAddress p = s.pixelAddress p := fun p => by rw [State.pixelAddress, hpb]; rfl
  have hbyte : ∀ p j, t.byteAddress p j = s.byteAddress p j :=
    byteAddress_congr (by rw [hframe]) (by rw [hframe])
  have hmul : (q + 1) * s.pixelBytes = q * s.pixelBytes + s.pixelBytes := Nat.succ_mul _ _
  obtain ⟨px, pxIdx, lb, hpx, hstored, hrun⟩ := ht.runSteps_pixel (by rw [hcursor, hstream, hpb]; omega)
  rw [hpb] at hrun
  have hlast := hstored.congr (afterLitPixel_linebuf ((t.pixelRead px pxIdx).litStored lb))
  obtain ⟨hfull, hover, hmore, hafter⟩ := afterLitPixel_spec ((t.pixelRead px pxIdx).litStored lb)
  have hposu := afterLitPixel_pos ((t.pixelRead px pxIdx).litStored lb)
  have hleftu := afterLitPixel_runLeft ((t.pixelRead px pxIdx).litStored lb)
  generalize afterLitPixel ((t.pixelRead px pxIdx).litStored lb) = u at *
  refine ⟨u, hrun, ?frame, ?pos, ?left, ?stored, ?outside, ?full, ?spent, ?more⟩
  case frame =>
    rw [hafter, hframe, hmul, ← Nat.add_assoc]
    rfl
  case pos => rw [hposu]; exact (posPlus_toNat ht.room).trans (by rw [h.pos]; omega)
  case left =>
    have hpred := runLeft_pred_toNat ht.run
    have hleft := h.left
    rw [hleftu]; show (t.runLeft - 1).toNat + (q + 1) = _; omega
  case stored =>
    intro i j hi hj
    rcases Nat.lt_or_eq_of_le (Nat.le_of_lt_succ hi) with hlt | rfl
    · have hslot := (byteAddress_in_slot s (s.pos.toNat + i) hj).2
      have hbelow : s.pixelAddress (s.pos.toNat + i) + s.pixelBytes ≤ s.pixelAddress (s.pos.toNat + q) := by
        rw [← pixelAddress_succ]; exact Nat.mul_le_mul_right _ (by omega)
      rw [hlast.2 _ (.inl (by show _ < t.pixelAddress _; rw [haddr, h.pos]; omega))]
      exact h.stored i j hlt hj
    · have hread := hlast.bufRead_byte (i := 0) (j := j) Nat.zero_lt_one (by show j < t.pixelBytes; rw [hpb]; exact hj)
      have hsame : (t.pixelRead px pxIdx).byteAddress (t.pos.toNat + 0) j = s.byteAddress (s.pos.toNat + i) j := by
        rw [Nat.add_zero, h.pos]; exact hbyte _ j
      rw [← hsame, hread]
      exact (hpx j (hpb ▸ hj)).trans (by rw [hstream, hcursor])
  case outside =>
    intro a ha
    have hnext : s.pixelAddress (s.pos.toNat + (q + 1)) = s.pixelAddress (s.pos.toNat + q) + s.pixelBytes :=
      pixelAddress_succ s _
    have hfirst : s.pixelAddress s.pos.toNat ≤ s.pixelAddress (s.pos.toNat + q) := Nat.mul_le_mul_right _ (by omega)
    have hpix : t.pixelAddress (t.pos.toNat + 1) = s.pixelAddress (s.pos.toNat + q) + s.pixelBytes := by
      rw [haddr, h.pos]; exact pixelAddress_succ s _
    have hhere : t.pixelAddress t.pos.toNat = s.pixelAddress (s.pos.toNat + q) := by rw [haddr, h.pos]
    refine (hlast.2 a ?_).trans (h.outside a (by omega))
    show a < t.pixelAddress _ ∨ t.pixelAddress _ ≤ a
    omega
  case full => rw [hposu]; exact fun e => hrep ▸ hfull (e.trans hwidth.symm)
  case spent => rw [hposu, hleftu]; exact fun hne hl => (hover (hwidth ▸ hne) hl).1
  case more => rw [hposu, hleftu]; exact fun hne hl => (hmore (hwidth ▸ hne) hl).1.trans ht.phase

/-- As many pixels as the run, the line and the stream have. -/
theorem LitBegun.exists_progress (h : LitBegun s) : ∀ q, q ≤ s.clamp s.runLeft.toNat →
    s.cursor + q * s.pixelBytes ≤ s.stream.length →
    ∃ t, runSteps (q * s.pixelBytes) s = .next t ∧ LitProgress s t q := by
  intro q
  induction q with
  | zero => exact fun _ _ => ⟨s, by rw [Nat.zero_mul]; rfl, .refl h⟩
  | succ q ih =>
    intro hq hc
    have hmul : (q + 1) * s.pixelBytes = q * s.pixelBytes + s.pixelBytes := Nat.succ_mul _ _
    obtain ⟨t, ht, hprog⟩ := ih (by omega) (by omega)
    obtain ⟨u, hu, hnext⟩ := hprog.succ h (by omega) hc
    exact ⟨u, by rw [hmul, runSteps_add, ht, andThen_next, hu], hnext⟩

/-- The payload that the stream cuts off: the whole pixels it holds are stored, and the session fails at the next. -/
theorem LitBegun.exists_cut (h : LitBegun s) (hc0 : s.cursor ≤ s.stream.length)
    (hc : s.stream.length < s.cursor + s.clamp s.runLeft.toNat * s.pixelBytes) :
    ∃ t px pxIdx, LitProgress s t ((s.stream.length - s.cursor) / s.pixelBytes) ∧
      runSteps (s.stream.length - s.cursor + 1) s =
        .next (endInPayload { t with cursor := s.stream.length, px := px, pxIdx := pxIdx }) := by
  have hq : (s.stream.length - s.cursor) / s.pixelBytes < s.clamp s.runLeft.toNat :=
    (Nat.div_lt_iff_lt_mul h.pixel).mpr (by omega)
  have hdiv := Nat.div_add_mod' (s.stream.length - s.cursor) s.pixelBytes
  have hmod := Nat.mod_lt (s.stream.length - s.cursor) h.pixel
  generalize (s.stream.length - s.cursor) / s.pixelBytes = q at *
  obtain ⟨t, ht, hprog⟩ := h.exists_progress q hq.le (by omega)
  have hbegun := hprog.begun h hq
  have hcursor : t.cursor = s.cursor + q * s.pixelBytes := by rw [hprog.frame]
  have hstream : t.stream = s.stream := by rw [hprog.frame]
  have hpb : t.pixelBytes = s.pixelBytes := by rw [hprog.frame]; rfl
  obtain ⟨u, hu, hrun⟩ := runSteps_cutPixel t hbegun.host (by rw [hbegun.phase]; rfl) hbegun.index
    (by rw [hcursor, hstream]; omega) (by rw [hcursor, hstream, hpb]; omega)
  refine ⟨t, u.px, u.pxIdx, hprog, ?_⟩
  have hsplit : s.stream.length - s.cursor + 1 = q * s.pixelBytes + (t.stream.length - t.cursor + 1) := by
    rw [hcursor, hstream]; omega
  rw [hsplit, runSteps_add, ht, andThen_next, hrun, ← hstream, ← hu]

end

/-- Settles O26: row T6 opens the record; then the payload's pixels are read and stored one by one (row T11), to the end of
the run or the line, or until the stream's end cuts one off (row T12). -/
theorem litRecordWhole : Obligations.LitRecordWhole := by
  unfold Obligations.LitRecordWhole
  intro s b k hhost hphase hbyte hlo hhi hk hpos hcap hpb
  obtain ⟨m, hm, hhead⟩ := step_litHead hhost hphase hbyte hlo hhi
  have hrun : ∀ n, runSteps (1 + n) s = runSteps n (s.litOpened m) := fun n => by
    rw [Nat.add_comm, runSteps_succ, hhead, andThen_next]
  have hbegun : LitBegun (s.litOpened m) :=
    ⟨hhost, rfl, rfl, hpb, by show 0 < (litLength m).toNat; omega, hpos, hcap⟩
  have hclamp : (s.litOpened m).clamp (s.litOpened m).runLeft.toNat = k := by
    show min (litLength m).toNat (s.width.toNat - s.pos.toNat) = k; omega
  constructor
  · intro hwhole
    obtain ⟨t, ht, hprog⟩ := hbegun.exists_progress k hclamp.ge hwhole
    have hspent : t.pos ≠ s.width → t.runLeft = 0 := fun hne => by
      have hleft : t.runLeft.toNat + k = (litLength m).toNat := hprog.left
      have hposk : t.pos.toNat = s.pos.toNat + k := hprog.pos
      have : t.pos.toNat ≠ s.width.toNat := fun e => hne (BitVec.eq_of_toNat_eq e)
      exact BitVec.eq_of_toNat_eq (show t.runLeft.toNat = 0 by omega)
    refine ⟨t, (hrun _).trans ht, by rw [hprog.frame]; rfl, hprog.stored, hprog.outside, hprog.pos, hprog.full,
      fun hne => hprog.spent hne (hspent hne), by rw [hprog.frame], by rw [hprog.frame], ?_⟩
    rw [hprog.frame]
    exact ⟨rfl, rfl, rfl, rfl⟩
  · intro hcut
    have hread : s.cursor < s.stream.length := (List.getElem?_eq_some_iff.mp hbyte).1
    obtain ⟨t, px, pxIdx, hprog, hsteps⟩ := hbegun.exists_cut hread (by rw [hclamp]; exact hcut)
    have hline : t.currentLine = s.currentLine := by rw [hprog.frame]
    have htrace : t.trace = s.trace := by rw [hprog.frame]
    rw [Nat.add_assoc, hrun]
    exact ⟨_, _, rfl, hsteps, hprog.stored, hprog.outside, hprog.pos, rfl, ⟨rfl, rfl, hline, rfl⟩, rfl, hline, htrace⟩

end Sys2Proof.Machine

/-! PROOF. The stores of a row as one write of known bytes (20_memory.md R52, R53). With them the rows T9 and T11 of
40_decode_session.md R105 are equations, and so it is seen what depends on the end-of-stream policy (R155). -/

namespace Sys2Proof.Machine

/-! ## Consecutive writes -/

theorem Memory.writeBytes_append (m : Memory) (a : Nat) (xs ys : List Byte) :
    Memory.writeBytes m a (xs ++ ys) = Memory.writeBytes (Memory.writeBytes m a xs) (a + xs.length) ys := by
  induction xs generalizing m a with
  | nil => rfl
  | cons x xs ih =>
    rw [List.cons_append, Memory.writeBytes, ih, List.length_cons, Nat.add_assoc, Nat.add_comm 1]
    rfl

theorem Memory.fill_eq_writeBytes (v : Byte) (m : Memory) (a n : Nat) :
    Memory.fill v m a n = Memory.writeBytes m a (List.replicate n v) := by
  induction n generalizing m a with
  | zero => rfl
  | succ n ih => exact ih _ _

section
variable {s t : State}

/-- The bytes that `n` copies of the pixel in `px` put in the buffer (R52, R122). -/
def State.copies (s : State) (n : Nat) : List Byte := (List.replicate n s.pixelSlot).flatten

theorem State.copies_succ (s : State) (n : Nat) : s.copies (n + 1) = s.pixelSlot ++ s.copies n := by
  rw [State.copies, List.replicate_succ, List.flatten_cons, State.copies]

/-- The buffer with `bytes` written from pixel position `p` on. -/
abbrev State.bufWritten (s : State) (p : Nat) (bytes : List Byte) : Memory :=
  Memory.writeBytes s.linebuf (s.pixelAddress p) bytes

/-- What is written after `k` whole pixels lies at the pixel position after them. -/
theorem bufWritten_append {p k : Nat} {xs : List Byte} (ys : List Byte) (hxs : xs.length = k * s.pixelBytes) :
    s.bufWritten p (xs ++ ys) = Memory.writeBytes (s.bufWritten p xs) (s.pixelAddress (p + k)) ys := by
  rw [State.bufWritten, Memory.writeBytes_append, hxs, ← pixelAddress_add]

theorem storeRun_inLine {p m : Nat} (hp : p + m ≤ s.width.toNat) (hcap : s.lineBytes ≤ s.build.lineBufBytes) :
    storeRun p m s = .next { s with linebuf := s.bufWritten p (s.copies m) } := by
  induction m generalizing p s with
  | zero => rfl
  | succ m ih =>
    have hfirst : storePixel p s = .next { s with linebuf := s.bufWritten p s.pixelSlot } :=
      storePixel_inLine (by omega) hcap
    have hrest : p + 1 + m ≤ s.width.toNat := by omega
    rw [storeRun, hfirst, andThen_next, State.copies_succ,
      bufWritten_append _ (k := 1) (by rw [pixelSlot_length, Nat.one_mul])]
    exact ih (s := { s with linebuf := s.bufWritten p s.pixelSlot }) hrest hcap

/-- The state row T9 leaves, but for its next phase: the pixel in `px` is stored as often as the run and the line ask. -/
def State.repFinished (s : State) : State :=
  s.repStored (s.bufWritten s.pos.toNat (s.copies (s.clamp s.runLeft.toNat)))

/-- The state row T11 leaves, but for its next phase: the pixel in `px` is stored. -/
def State.litFinished (s : State) : State := s.litStored (s.bufWritten s.pos.toNat s.pixelSlot)

theorem finishRep_inLine (hpos : s.pos.toNat < s.width.toNat) (hcap : s.lineBytes ≤ s.build.lineBufBytes) :
    finishRep s = .next (afterRun s.repFinished) := by
  simp only [finishRep]
  rw [storeRun_inLine (clamp_le hpos.le _) hcap, andThen_next]
  rfl

theorem finishLitPixel_inLine (hpos : s.pos.toNat < s.width.toNat) (hcap : s.lineBytes ≤ s.build.lineBufBytes) :
    finishLitPixel s = .next (afterLitPixel s.litFinished) := by
  rw [finishLitPixel, storePixel_inLine hpos hcap, andThen_next]
  rfl

/-! ## The next phase, case by case (R125, R124, R141, R143) -/

variable {q : State}

theorem afterRun_of_full (h : q.pos = q.width) : afterRun q = beginEmission q := if_pos (beq_iff_eq.mpr h)

theorem afterRun_of_room (h : q.pos ≠ q.width) : afterRun q = { q with phase := .runHeader } :=
  if_neg (mt beq_iff_eq.mp h)

theorem afterLitPixel_of_full (h : q.pos = q.width) : afterLitPixel q = beginEmission q := if_pos (beq_iff_eq.mpr h)

theorem afterLitPixel_of_spent (h : q.pos ≠ q.width) (hr : q.runLeft = 0) :
    afterLitPixel q = { q with phase := .runHeader } :=
  (if_neg (mt beq_iff_eq.mp h)).trans (if_pos hr)

theorem afterLitPixel_of_more (h : q.pos ≠ q.width) (hr : q.runLeft ≠ 0) : afterLitPixel q = q :=
  (if_neg (mt beq_iff_eq.mp h)).trans (if_neg hr)

theorem afterEmission_of_done (h : q.currentLine = q.height) : afterEmission q = { q with phase := .done } :=
  if_pos (beq_iff_eq.mpr h)

theorem afterEmission_of_spent (h : q.currentLine ≠ q.height) (hl : q.emitLeft = 0) :
    afterEmission q = { q with phase := .lineHeader } :=
  (if_neg (mt beq_iff_eq.mp h)).trans (if_pos hl)

theorem afterEmission_of_more (h : q.currentLine ≠ q.height) (hl : q.emitLeft ≠ 0) : afterEmission q = q :=
  (if_neg (mt beq_iff_eq.mp h)).trans (if_neg hl)

/-! ## The rows T9 and T11 as equations -/

theorem transaction_repLast {b : Byte} (hp : s.phase = .repFetch) (hd : LastByteDue s b) :
    transaction s = .next (afterRun (receivePixelByte b s.consumed).repFinished) := by
  rw [transaction_repFetch hp, repFetch, fetchPayload_last hd.byte hd.index hd.run hd.room,
    finishRep_inLine (s := receivePixelByte b s.consumed) hd.room hd.fits]

theorem transaction_litLast {b : Byte} (hp : s.phase = .litFetch) (hd : LastByteDue s b) :
    transaction s = .next (afterLitPixel (receivePixelByte b s.consumed).litFinished) := by
  rw [transaction_litFetch hp, litFetch, fetchPayload_last hd.byte hd.index hd.run hd.room,
    finishLitPixel_inLine (s := receivePixelByte b s.consumed) hd.room hd.fits]

/-! ## The end-of-stream policy -/

/-- The same machine built with another end-of-stream policy (R11). -/
abbrev State.withPolicy (s : State) (p : Bool) : State :=
  { s with build := { s.build with eofAtLineBoundaryIsError := p } }

theorem afterRun_withPolicy (q : State) (p : Bool) : afterRun (q.withPolicy p) = (afterRun q).withPolicy p := by
  by_cases hfull : q.pos = q.width
  · rw [afterRun_of_full hfull, afterRun_of_full (q := q.withPolicy p) hfull]; rfl
  · rw [afterRun_of_room hfull, afterRun_of_room (q := q.withPolicy p) hfull]

theorem afterLitPixel_withPolicy (q : State) (p : Bool) :
    afterLitPixel (q.withPolicy p) = (afterLitPixel q).withPolicy p := by
  by_cases hfull : q.pos = q.width
  · rw [afterLitPixel_of_full hfull, afterLitPixel_of_full (q := q.withPolicy p) hfull]; rfl
  by_cases hspent : q.runLeft = 0
  · rw [afterLitPixel_of_spent hfull hspent, afterLitPixel_of_spent (q := q.withPolicy p) hfull hspent]
  · rw [afterLitPixel_of_more hfull hspent, afterLitPixel_of_more (q := q.withPolicy p) hfull hspent]

theorem afterEmission_withPolicy (q : State) (p : Bool) :
    afterEmission (q.withPolicy p) = (afterEmission q).withPolicy p := by
  by_cases hdone : q.currentLine = q.height
  · rw [afterEmission_of_done hdone, afterEmission_of_done (q := q.withPolicy p) hdone]
  by_cases hspent : q.emitLeft = 0
  · rw [afterEmission_of_spent hdone hspent, afterEmission_of_spent (q := q.withPolicy p) hdone hspent]
  · rw [afterEmission_of_more hdone hspent, afterEmission_of_more (q := q.withPolicy p) hdone hspent]

/-- Away from the end of the stream at a line boundary, the policy is not read. -/
theorem transaction_withPolicy (p : Bool) (h : transaction s = .next t)
    (hne : ¬ (s.phase = .lineHeader ∧ s.stream[s.cursor]? = none)) :
    transaction (s.withPolicy p) = .next (t.withPolicy p) := by
  cases transaction_row h with
  | wait hp => exact transaction_wait hp
  | line b hp hb =>
    exact (transaction_lineHeader (s := s.withPolicy p) hp hb).trans
      (execLine_lineHeader (s := (s.withPolicy p).consumed) hp b)
  | lineEofError hp hb | lineEofShort hp hb => exact absurd ⟨hp, hb⟩ hne
  | blank b hp hb hd hc =>
    obtain ⟨hroom, hfits⟩ := canStore_iff.mp hc
    have hnext := transaction_runHeader (s := s.withPolicy p) hp hb
    rw [hd, execBlank_inLine (s := (s.withPolicy p).consumed) hp hroom hfits] at hnext
    exact hnext
  | repHead b m hp hb hd =>
    have hnext := transaction_runHeader (s := s.withPolicy p) hp hb
    rw [hd, execRep_runHeader (s := (s.withPolicy p).consumed) hp] at hnext
    exact hnext
  | litHead b m hp hb hd hm =>
    have hnext := transaction_runHeader (s := s.withPolicy p) hp hb
    rw [hd, execLit_runHeader (s := (s.withPolicy p).consumed) hp hm] at hnext
    exact hnext
  | runEof hp hb => exact transaction_runHeader_eof (s := s.withPolicy p) hp hb
  | midPixel b hp hb hm =>
    obtain ⟨finish, hfetch⟩ := transaction_fetching (s := s.withPolicy p) hp
    exact hfetch.trans (fetchPayload_mid hb hm)
  | payloadEof hp hb =>
    obtain ⟨finish, hfetch⟩ := transaction_fetching (s := s.withPolicy p) hp
    exact hfetch.trans (fetchPayload_eof hb)
  | repPixel b _ k hp hb hi hr hpos hcap =>
    obtain rfl := Host.Outcome.next.inj (h.symm.trans (transaction_repLast hp ⟨hb, hi, hr, hpos, hcap⟩))
    rw [← afterRun_withPolicy]
    exact transaction_repLast (s := s.withPolicy p) hp ⟨hb, hi, hr, hpos, hcap⟩
  | litPixel b _ hp hb hi hr hpos hcap =>
    obtain rfl := Host.Outcome.next.inj (h.symm.trans (transaction_litLast hp ⟨hb, hi, hr, hpos, hcap⟩))
    rw [← afterLitPixel_withPolicy]
    exact transaction_litLast (s := s.withPolicy p) hp ⟨hb, hi, hr, hpos, hcap⟩
  | emission bytes _ hp hl hh hb =>
    obtain rfl := Host.Outcome.next.inj (h.symm.trans (transaction_emission hp hl hh hb))
    rw [← afterEmission_withPolicy]
    exact transaction_emission (s := s.withPolicy p) hp hl hh hb

/-- The two ends at a line boundary differ in the phase and the error kind alone (R162). -/
theorem endAtLineBoundary_eq (s : State) : endAtLineBoundary s = { s with
    errKind := (endAtLineBoundary s).errKind, errWhere := .repeatByte, errRow := s.currentLine, errCol := 0,
    phase := (endAtLineBoundary s).phase } := by
  unfold endAtLineBoundary
  split <;> rfl

end

/-- Settles O55: rows T2 and T3 are the only ones that read the policy. -/
theorem policyOnlyClassifies : Obligations.PolicyOnlyClassifies := by
  unfold Obligations.PolicyOnlyClassifies
  intro s t p h
  by_cases hend : s.phase = .lineHeader ∧ s.stream[s.cursor]? = none
  · obtain ⟨hp, hb⟩ := hend
    obtain rfl := Host.Outcome.next.inj (h.symm.trans (transaction_lineHeader_eof hp hb))
    refine ⟨_, transaction_lineHeader_eof (s := s.withPolicy p) hp hb, ?_, .inl ⟨hp, hb⟩⟩
    conv_lhs => rw [endAtLineBoundary_eq]
    conv_rhs => rw [endAtLineBoundary_eq s]
  · exact ⟨_, transaction_withPolicy p h hend, rfl, .inr ⟨rfl, rfl⟩⟩

end Sys2Proof.Machine

/-! PROOF. The step machine and the algorithm in one piece agree (40_decode_session.md R106). What is left of `DecodePage`
from a state of the step machine is read off its phase (`EndsIn`); each row of R105 does one piece of it, so where it ends
is the same before and after every step. -/

namespace Sys2Proof.Machine

/-! ## The pieces of R102, one turn at a time -/

@[simp] theorem Flow.bind_go (s : State) (k : State → Flow) : (Flow.go s).bind k = k s := rfl
@[simp] theorem Flow.bind_ended (s : State) (k : State → Flow) : (Flow.ended s).bind k = .ended s := rfl

theorem Flow.bind_assoc (f : Flow) (k l : State → Flow) : (f.bind k).bind l = f.bind fun s => (k s).bind l := by
  cases f <;> rfl

section
variable {s u : State} {b : Byte} {n : Nat}

theorem readPixelFrom_byte {j : Nat} (hb : s.stream[s.cursor]? = some b) :
    readPixelFrom (n + 1) j s = readPixelFrom n (j + 1) { s.consumed with px := s.px.setIfInBounds j b } := by
  simp only [readPixelFrom, streamRead_of_some hb]

theorem readPixelFrom_eof {j : Nat} (hb : s.stream[s.cursor]? = none) :
    readPixelFrom (n + 1) j s = .ended (endInPayload s) := by
  simp only [readPixelFrom, streamRead_of_none hb]; rfl

theorem clamp_eq_zero (h : s.width.toNat ≤ s.pos.toNat) : s.clamp n = 0 := by
  simp only [State.clamp]; omega

theorem posPlus_zero (s : State) : s.posPlus 0 = s.pos := by
  rw [State.posPlus, Nat.add_zero, BitVec.ofNat_toNat, BitVec.setWidth_eq]

/-- The state with `n` pixels, which are these bytes, put in the line from `pos` on. -/
abbrev State.pixelsStored (s : State) (n : Nat) (bytes : List Byte) : State :=
  { s with linebuf := s.bufWritten s.pos.toNat bytes, pos := s.posPlus n }

theorem pixelsStored_zero (s : State) : s.pixelsStored 0 [] = s := by
  rw [State.pixelsStored, posPlus_zero]; rfl

/-- Two stores in a row are one. -/
theorem pixelsStored_pixelsStored {k : Nat} {xs ys : List Byte} (hk : s.pos.toNat + k ≤ s.width.toNat)
    (hxs : xs.length = k * s.pixelBytes) :
    (s.pixelsStored k xs).pixelsStored n ys = s.pixelsStored (k + n) (xs ++ ys) := by
  have hpos := posPlus_toNat hk
  have hplus : BitVec.ofNat 32 ((s.posPlus k).toNat + n) = s.posPlus (k + n) := by
    rw [hpos, State.posPlus, Nat.add_assoc]
  have hbuf : Memory.writeBytes (s.bufWritten s.pos.toNat xs) (s.pixelAddress (s.posPlus k).toNat) ys =
      s.bufWritten s.pos.toNat (xs ++ ys) := by
    rw [hpos, bufWritten_append ys hxs]
  show ({ s with
    linebuf := Memory.writeBytes (s.bufWritten s.pos.toNat xs) (s.pixelAddress (s.posPlus k).toNat) ys
    pos := BitVec.ofNat 32 ((s.posPlus k).toNat + n) } : State) = _
  rw [hbuf, hplus]

theorem storeHere_open (hpos : s.pos.toNat < s.width.toNat) (hcap : s.lineBytes ≤ s.build.lineBufBytes) :
    storeHere s = .go (s.pixelsStored 1 s.pixelSlot) := storeHere_inLine hpos hcap

/-- `REP`'s loop stores the clamped run (R122, R124). -/
theorem repLoop_inLine (hcap : s.lineBytes ≤ s.build.lineBufBytes) :
    repLoop n s = .go (s.pixelsStored (s.clamp n) (s.copies (s.clamp n))) := by
  induction n generalizing s with
  | zero =>
    have h0 : s.clamp 0 = 0 := Nat.zero_min _
    rw [h0]; exact congrArg Flow.go (pixelsStored_zero s).symm
  | succ n ih =>
    rw [repLoop]
    split
    · next hroom =>
      have hpos : (s.posPlus 1).toNat = s.pos.toNat + 1 := posPlus_toNat hroom
      have hclamp : s.clamp (n + 1) = 1 + (s.pixelsStored 1 s.pixelSlot).clamp n := by
        simp only [State.clamp, hpos]; omega
      rw [storeHere_open hroom hcap, Flow.bind_go, ih (s := s.pixelsStored 1 s.pixelSlot) hcap, hclamp,
        pixelsStored_pixelsStored hroom (by rw [pixelSlot_length, Nat.one_mul]), Nat.add_comm 1, State.copies_succ]
      rfl
    · next hfull =>
      rw [clamp_eq_zero (Nat.le_of_not_lt hfull)]; exact congrArg Flow.go (pixelsStored_zero s).symm

theorem litLoop_full (h : s.pos = s.width) : litLoop n s = .go s := by
  cases n with
  | zero => rfl
  | succ n => exact if_neg (by rw [h]; exact Nat.lt_irrefl _)

theorem litLoop_open (h : s.pos.toNat < s.width.toNat) :
    litLoop (n + 1) s = (readPixel s).bind fun w => (storeHere w).bind (litLoop n) := if_pos h

theorem runLoop_full (h : s.pos = s.width) : runLoop n s = .go s := by
  cases n with
  | zero => rfl
  | succ n => exact if_neg (by rw [h]; exact Nat.lt_irrefl _)

theorem runLoop_open (h : s.pos.toNat < s.width.toNat) : runLoop (n + 1) s = (runRecord s).bind (runLoop n) := if_pos h

theorem runRecord_eof (hb : s.stream[s.cursor]? = none) : runRecord s = .ended (endAtControlByte s) := by
  simp only [runRecord, streamRead_of_none hb]; rfl

/-- The dispatch of R120 in the big-step form: the field of the record is the run length of the step form. -/
theorem runRecord_blank (hb : s.stream[s.cursor]? = some b) (hd : decodeControl b = .blank)
    (hpos : s.pos.toNat < s.width.toNat) (hcap : s.lineBytes ≤ s.build.lineBufBytes) :
    runRecord s = .go s.consumed.blanked := by
  have hcode : b = encodeHead .blank := by rw [← hd, encodeHead_decodeControl]
  simp only [runRecord, streamRead_of_some hb]
  rw [if_pos (decodeControl_eq_blank_iff.mp hd),
    blankFill_inLine (s := { s.consumed with code := b }) hpos hcap, hcode]
  rfl

theorem runRecord_rep {m : BitVec 7} (hb : s.stream[s.cursor]? = some b) (hd : decodeControl b = .rep m) :
    runRecord s =
      (readPixel { s.consumed with code := encodeHead (.rep m) }).bind (repLoop (repLength m).toNat) := by
  obtain ⟨-, hd', -⟩ | ⟨hne, hsign, m', hd', hlen, hcode⟩ | ⟨-, -, m', hd', -⟩ := decodeControl_cases b
  · rw [hd] at hd'; cases hd'
  · obtain rfl := Instr.rep.inj (hd.symm.trans hd')
    simp only [runRecord, streamRead_of_some hb]
    rw [if_neg hne, if_pos hsign, ← hlen, hcode]
  · rw [hd] at hd'; cases hd'

theorem runRecord_lit {m : BitVec 7} (hb : s.stream[s.cursor]? = some b) (hd : decodeControl b = .lit m) :
    runRecord s = litLoop (litLength m).toNat { s.consumed with code := encodeHead (.lit m) } := by
  obtain ⟨-, hd', -⟩ | ⟨-, -, m', hd', -⟩ | ⟨hne, hsign, m', hd', -, hlen, hcode⟩ := decodeControl_cases b
  · rw [hd] at hd'; cases hd'
  · rw [hd] at hd'; cases hd'
  · obtain rfl := Instr.lit.inj (hd.symm.trans hd')
    simp only [runRecord, streamRead_of_some hb]
    rw [if_neg hne, if_neg hsign, ← hlen, hcode]

theorem emitLoop_due {bytes : List Byte} (hl : 0 < s.emitLeft.toNat) (hh : s.currentLine.toNat < s.height.toNat)
    (hb : Memory.readBytes s.linebuf 0 s.lineBytes = some bytes) :
    emitLoop (n + 1) s = emitLoop n (s.lineHanded bytes) := by
  rw [emitLoop, if_pos (emissionDue_iff.mpr ⟨hl, hh⟩), sinkAccept_eq_next.mpr ⟨bytes, hb, rfl⟩]
  rfl

theorem emitLoop_over (h : s.emitLeft.toNat = 0 ∨ s.height.toNat ≤ s.currentLine.toNat) : emitLoop n s = .go s := by
  cases n with
  | zero => rfl
  | succ n =>
    have hdue : ¬ s.emissionDue = true := fun hdue => by
      obtain ⟨hl, hh⟩ := emissionDue_iff.mp hdue
      omega
    exact if_neg hdue

/-- What R102 does after the run records of a line: its emissions, then the other lines. -/
def finishLine (lines : Nat) (s : State) : Flow :=
  (emitLoop s.lineRepeat.toNat { s with emitLeft := s.lineRepeat }).bind (pageLoop lines)

/-- What R102 does from a control byte on. -/
def finishRuns (lines runs : Nat) (s : State) : Flow := (runLoop runs s).bind (finishLine lines)

theorem pageLoop_over (h : s.height.toNat ≤ s.currentLine.toNat) : pageLoop n s = .ended { s with phase := .done } := by
  cases n with
  | zero => rfl
  | succ n => exact if_neg (Nat.not_lt_of_le h)

theorem pageLoop_eof (hopen : s.currentLine.toNat < s.height.toNat) (hb : s.stream[s.cursor]? = none) :
    pageLoop (n + 1) s = .ended (endAtLineBoundary s) := by
  rw [pageLoop, if_pos hopen]
  simp only [lineRecord, streamRead_of_none hb, Flow.bind_ended]

theorem pageLoop_byte (hopen : s.currentLine.toNat < s.height.toNat) (hb : s.stream[s.cursor]? = some b) :
    pageLoop (n + 1) s =
      finishRuns n s.width.toNat { s.consumed with lineRepeat := repeatCount b, pos := 0 } := by
  rw [pageLoop, if_pos hopen]
  simp only [lineRecord, streamRead_of_some hb]
  exact Flow.bind_assoc _ _ _

/-! ## What is left of the session -/

/-- A state of the step machine as R102 sees it: in `LINE_HEADER` from START to the session's end, and with the two loop
counters it has no registers for at some given values. -/
abbrev State.asPage (s : State) (r : BitVec 8) (x : BitVec 5) : State :=
  { s with phase := .lineHeader, runLeft := r, pxIdx := x }

variable {r : BitVec 8} {x : BitVec 5}

/-- What is left of R102 from the state `s` on ends in `u`, whatever bounds its loops are given, if they are enough. -/
def EndsIn (r : BitVec 8) (x : BitVec 5) (s u : State) : Prop :=
  match s.phase with
  | .lineHeader => ∀ lines, s.height.toNat - s.currentLine.toNat ≤ lines → pageLoop lines (s.asPage r x) = .ended u
  | .runHeader => ∀ lines runs, s.height.toNat - s.currentLine.toNat ≤ lines + 1 →
      s.width.toNat - s.pos.toNat ≤ runs → finishRuns lines runs (s.asPage r x) = .ended u
  | .repFetch => ∀ lines runs, s.height.toNat - s.currentLine.toNat ≤ lines + 1 →
      s.width.toNat - s.pos.toNat ≤ runs + 1 →
      ((readPixelFrom (s.pixelBytes - s.pxIdx.toNat) s.pxIdx.toNat (s.asPage r x)).bind fun w =>
        (repLoop s.runLeft.toNat w).bind (finishRuns lines runs)) = .ended u
  | .litFetch => ∀ lines runs, s.height.toNat - s.currentLine.toNat ≤ lines + 1 →
      s.width.toNat - s.pos.toNat ≤ runs + 1 →
      ((readPixelFrom (s.pixelBytes - s.pxIdx.toNat) s.pxIdx.toNat (s.asPage r x)).bind fun w =>
        (storeHere w).bind fun w' => (litLoop (s.runLeft.toNat - 1) w').bind (finishRuns lines runs)) = .ended u
  | .emit => ∀ lines calls, s.height.toNat - s.currentLine.toNat ≤ lines + 1 → s.emitLeft.toNat ≤ calls →
      (emitLoop calls (s.asPage r x)).bind (pageLoop lines) = .ended u
  | .idle | .done | .failed | .endedShort => { s.asPage r x with phase := s.phase } = u

/-- The end of a line's run records: its emissions follow. -/
theorem EndsIn.full (h : EndsIn r x (beginEmission s) u) (hpos : s.pos = s.width) {lines runs : Nat}
    (hlines : s.height.toNat - s.currentLine.toNat ≤ lines + 1) :
    finishRuns lines runs (s.asPage r x) = .ended u := by
  rw [finishRuns, runLoop_full (s := s.asPage r x) hpos, Flow.bind_go]
  exact h lines s.lineRepeat.toNat hlines le_rfl

/-- Rows T2 and T3: the session ends where a repeat byte is due. -/
theorem EndsIn.lineEof (h : { endAtLineBoundary s with runLeft := r, pxIdx := x } = u) (hp : s.phase = .lineHeader)
    (hopen : s.currentLine.toNat < s.height.toNat) (hb : s.stream[s.cursor]? = none) : EndsIn r x s u := by
  simp only [EndsIn, hp]
  intro lines hlines
  obtain ⟨n, rfl⟩ : ∃ n, lines = n + 1 := ⟨lines - 1, by omega⟩
  rw [pageLoop_eof (s := s.asPage r x) hopen hb, ← h]
  simp only [endAtLineBoundary]
  split <;> rfl

/-- Row T1. -/
theorem EndsIn.line (h : EndsIn r x { s.consumed with lineRepeat := repeatCount b, pos := 0, phase := .runHeader } u)
    (hp : s.phase = .lineHeader) (hopen : s.currentLine.toNat < s.height.toNat)
    (hb : s.stream[s.cursor]? = some b) : EndsIn r x s u := by
  simp only [EndsIn, hp]
  intro lines hlines
  obtain ⟨n, rfl⟩ : ∃ n, lines = n + 1 := ⟨lines - 1, by omega⟩
  rw [pageLoop_byte (s := s.asPage r x) hopen hb]
  exact h n s.width.toNat hlines (Nat.sub_le _ _)

/-- A turn of the inner loop, the line being open. -/
theorem finishRuns_open (hpos : s.pos.toNat < s.width.toNat) {lines runs : Nat} :
    finishRuns lines (runs + 1) s = (runRecord s).bind (finishRuns lines runs) := by
  rw [finishRuns, runLoop_open hpos, Flow.bind_assoc]
  rfl

/-- Row T7. -/
theorem EndsIn.runEof (h : EndsIn r x (endAtControlByte s) u) (hp : s.phase = .runHeader)
    (hpos : s.pos.toNat < s.width.toNat) (hb : s.stream[s.cursor]? = none) : EndsIn r x s u := by
  simp only [EndsIn, hp]
  intro lines runs hlines hruns
  obtain ⟨n, rfl⟩ : ∃ n, runs = n + 1 := ⟨runs - 1, by omega⟩
  rw [finishRuns_open (s := s.asPage r x) hpos, runRecord_eof (s := s.asPage r x) hb, Flow.bind_ended]
  exact congrArg Flow.ended h

/-- Row T4. -/
theorem EndsIn.blank (h : EndsIn r x (beginEmission s.consumed.blanked) u) (hp : s.phase = .runHeader)
    (hpos : s.pos.toNat < s.width.toNat) (hcap : s.lineBytes ≤ s.build.lineBufBytes)
    (hb : s.stream[s.cursor]? = some b) (hd : decodeControl b = .blank) : EndsIn r x s u := by
  simp only [EndsIn, hp]
  intro lines runs hlines hruns
  obtain ⟨n, rfl⟩ : ∃ n, runs = n + 1 := ⟨runs - 1, by omega⟩
  rw [finishRuns_open (s := s.asPage r x) hpos, runRecord_blank (s := s.asPage r x) hb hd hpos hcap, Flow.bind_go]
  exact h.full rfl hlines

/-- Row T5. -/
theorem EndsIn.repHead {m : BitVec 7}
    (h : EndsIn r x { s.consumed with code := encodeHead (.rep m), runLeft := repLength m, pxIdx := 0, phase := .repFetch } u)
    (hp : s.phase = .runHeader) (hpos : s.pos.toNat < s.width.toNat) (hb : s.stream[s.cursor]? = some b)
    (hd : decodeControl b = .rep m) : EndsIn r x s u := by
  simp only [EndsIn, hp]
  intro lines runs hlines hruns
  obtain ⟨n, rfl⟩ : ∃ n, runs = n + 1 := ⟨runs - 1, by omega⟩
  rw [finishRuns_open (s := s.asPage r x) hpos, runRecord_rep (s := s.asPage r x) hb hd, Flow.bind_assoc]
  exact h lines n hlines hruns

/-- Row T6: a `LIT` has a pixel, and the line has room for it. -/
theorem EndsIn.litHead {m : BitVec 7}
    (h : EndsIn r x { s.consumed with code := encodeHead (.lit m), runLeft := litLength m, pxIdx := 0, phase := .litFetch } u)
    (hp : s.phase = .runHeader) (hpos : s.pos.toNat < s.width.toNat) (hb : s.stream[s.cursor]? = some b)
    (hd : decodeControl b = .lit m) : EndsIn r x s u := by
  simp only [EndsIn, hp]
  intro lines runs hlines hruns
  obtain ⟨n, rfl⟩ : ∃ n, runs = n + 1 := ⟨runs - 1, by omega⟩
  obtain ⟨k, hk⟩ : ∃ k, (litLength m).toNat = k + 1 := ⟨(litLength m).toNat - 1, by
    have hm : m.toNat < 128 := m.isLt
    rw [litLength_toNat]; omega⟩
  have hend := h lines n hlines hruns
  simp only [hk, Nat.add_sub_cancel] at hend
  rw [finishRuns_open (s := s.asPage r x) hpos, runRecord_lit (s := s.asPage r x) hb hd, hk,
    litLoop_open (s := { (s.asPage r x).consumed with code := encodeHead (.lit m) }) hpos, Flow.bind_assoc]
  simp only [Flow.bind_assoc]
  exact hend

/-- Row T12. -/
theorem EndsIn.payloadEof (h : EndsIn r x (endInPayload s) u) (hp : s.phase = .repFetch ∨ s.phase = .litFetch)
    (hidx : s.pxIdx.toNat < s.pixelBytes) (hb : s.stream[s.cursor]? = none) : EndsIn r x s u := by
  obtain ⟨n, hn⟩ : ∃ n, s.pixelBytes - s.pxIdx.toNat = n + 1 := ⟨s.pixelBytes - s.pxIdx.toNat - 1, by omega⟩
  have hread := readPixelFrom_eof (s := s.asPage r x) (n := n) (j := s.pxIdx.toNat) hb
  rcases hp with hp | hp <;> simp only [EndsIn, hp, hn, hread, Flow.bind_ended] <;> intro lines runs _ _
  · exact congrArg Flow.ended h
  · exact congrArg Flow.ended h

/-- Rows T8 and T10. -/
theorem EndsIn.midPixel (h : EndsIn r x (receiveMidPixel b s.consumed) u) (hp : s.phase = .repFetch ∨ s.phase = .litFetch)
    (hm : s.pxIdx.toNat + 1 < s.pixelBytes) (hb : s.stream[s.cursor]? = some b) : EndsIn r x s u := by
  have hn : s.pixelBytes - s.pxIdx.toNat = s.pixelBytes - (s.pxIdx.toNat + 1) + 1 := by omega
  have hread := readPixelFrom_byte (s := s.asPage r x) (n := s.pixelBytes - (s.pxIdx.toNat + 1)) (j := s.pxIdx.toNat) hb
  have hidx : (receiveMidPixel b s.consumed).pxIdx.toNat = s.pxIdx.toNat + 1 := pxIdx_succ_toNat hm
  rcases hp with hp | hp <;> simp only [EndsIn, receiveMidPixel_phase, hp, hidx] at h <;>
    simp only [EndsIn, hp, hn, hread]
  · exact h
  · exact h

/-- The last byte of a pixel, in the big-step form. -/
theorem readPixelFrom_last (hi : s.pxIdx.toNat + 1 = s.pixelBytes) (hb : s.stream[s.cursor]? = some b) :
    readPixelFrom (s.pixelBytes - s.pxIdx.toNat) s.pxIdx.toNat (s.asPage r x) =
      .go ((receivePixelByte b s.consumed).asPage r x) := by
  have hn : s.pixelBytes - s.pxIdx.toNat = 0 + 1 := by omega
  rw [hn, readPixelFrom_byte (s := s.asPage r x) hb]
  rfl

/-- Row T9. -/
theorem EndsIn.repPixel (h : EndsIn r x (afterRun (receivePixelByte b s.consumed).repFinished) u)
    (hp : s.phase = .repFetch) (hd : LastByteDue s b) : EndsIn r x s u := by
  simp only [EndsIn, hp]
  intro lines runs hlines hruns
  have hrun := hd.run
  have hroom := hd.room
  have hpos : (s.posPlus (s.clamp s.runLeft.toNat)).toNat = s.pos.toNat + s.clamp s.runLeft.toNat :=
    posPlus_toNat (clamp_le hroom.le _)
  have hcopies : 0 < s.clamp s.runLeft.toNat := by simp only [State.clamp]; omega
  rw [readPixelFrom_last hd.index hd.byte, Flow.bind_go,
    repLoop_inLine (s := (receivePixelByte b s.consumed).asPage r x) hd.fits, Flow.bind_go]
  by_cases hfull : (receivePixelByte b s.consumed).repFinished.pos = (receivePixelByte b s.consumed).repFinished.width
  · rw [afterRun_of_full hfull] at h
    exact h.full hfull hlines
  · rw [afterRun_of_room hfull] at h
    refine h lines runs hlines ?_
    show s.width.toNat - (s.posPlus (s.clamp s.runLeft.toNat)).toNat ≤ runs
    omega

/-- Row T11. -/
theorem EndsIn.litPixel (h : EndsIn r x (afterLitPixel (receivePixelByte b s.consumed).litFinished) u)
    (hp : s.phase = .litFetch) (hd : LastByteDue s b) : EndsIn r x s u := by
  simp only [EndsIn, hp]
  intro lines runs hlines hruns
  have hrun := hd.run
  have hroom := hd.room
  have hpos : (s.posPlus 1).toNat = s.pos.toNat + 1 := posPlus_toNat hroom
  have hpred := runLeft_pred_toNat hrun
  have hruns' : s.width.toNat - (s.posPlus 1).toNat ≤ runs := by omega
  rw [readPixelFrom_last hd.index hd.byte, Flow.bind_go,
    storeHere_open (s := (receivePixelByte b s.consumed).asPage r x) hroom hd.fits, Flow.bind_go]
  by_cases hfull : (receivePixelByte b s.consumed).litFinished.pos = (receivePixelByte b s.consumed).litFinished.width
  · rw [afterLitPixel_of_full hfull] at h
    rw [litLoop_full (s := ((receivePixelByte b s.consumed).asPage r x).pixelsStored 1
      ((receivePixelByte b s.consumed).asPage r x).pixelSlot) hfull, Flow.bind_go]
    exact h.full hfull hlines
  by_cases hspent : (receivePixelByte b s.consumed).litFinished.runLeft = 0
  · have h0 : (s.runLeft - 1).toNat = 0 := congrArg BitVec.toNat hspent
    have hlast : s.runLeft.toNat - 1 = 0 := by omega
    rw [afterLitPixel_of_spent hfull hspent] at h
    rw [hlast]
    exact h lines runs hlines hruns'
  · have hne : (s.runLeft - 1).toNat ≠ 0 := fun e => hspent (BitVec.eq_of_toNat_eq e)
    obtain ⟨k, hk⟩ : ∃ k, s.runLeft.toNat - 1 = k + 1 := ⟨s.runLeft.toNat - 2, by omega⟩
    have hk' : (receivePixelByte b s.consumed).litFinished.runLeft.toNat - 1 = k := by
      show (s.runLeft - 1).toNat - 1 = k; omega
    have hopen : (s.posPlus 1).toNat < s.width.toNat := posPlus_lt_width hroom hfull
    have hphase : (receivePixelByte b s.consumed).litFinished.phase = .litFetch := hp
    rw [afterLitPixel_of_more hfull hspent] at h
    simp only [EndsIn, hphase, hk'] at h
    have hend := h lines runs hlines (by show s.width.toNat - (s.posPlus 1).toNat ≤ runs + 1; omega)
    rw [hk, litLoop_open (s := ((receivePixelByte b s.consumed).asPage r x).pixelsStored 1
      ((receivePixelByte b s.consumed).asPage r x).pixelSlot) hopen]
    simp only [Flow.bind_assoc]
    exact hend

/-- Row T13. -/
theorem EndsIn.emission {bytes : List Byte} (h : EndsIn r x (afterEmission (s.lineHanded bytes)) u)
    (hp : s.phase = .emit) (hl : 0 < s.emitLeft.toNat) (hh : s.currentLine.toNat < s.height.toNat)
    (hb : Memory.readBytes s.linebuf 0 s.lineBytes = some bytes) : EndsIn r x s u := by
  simp only [EndsIn, hp]
  intro lines calls hlines hcalls
  obtain ⟨n, rfl⟩ : ∃ n, calls = n + 1 := ⟨calls - 1, by omega⟩
  have hsucc := currentLine_succ_toNat hh
  have hpred := emitLeft_pred_toNat hl
  rw [emitLoop_due (s := s.asPage r x) hl hh hb]
  by_cases hdone : s.currentLine + 1 = s.height
  · have hend : s.height.toNat ≤ (s.currentLine + 1).toNat := by rw [hdone]
    rw [afterEmission_of_done hdone] at h
    rw [emitLoop_over (.inr hend), Flow.bind_go, pageLoop_over hend]
    exact congrArg Flow.ended h
  by_cases hspent : s.emitLeft - 1 = 0
  · rw [afterEmission_of_spent hdone hspent] at h
    rw [emitLoop_over (.inl (congrArg BitVec.toNat hspent)), Flow.bind_go]
    exact h lines (by show s.height.toNat - (s.currentLine + 1).toNat ≤ lines; omega)
  · rw [afterEmission_of_more hdone hspent] at h
    simp only [EndsIn, hp] at h
    exact h lines n (by show s.height.toNat - (s.currentLine + 1).toNat ≤ lines + 1; omega)
      (by show (s.emitLeft - 1).toNat ≤ n; omega)

/-! ## Every step does a piece of it -/

variable {t : State}

theorem Inv.endsIn_of_transaction (hi : Inv s) (hs : transaction s = .next t) (h : EndsIn r x t u) : EndsIn r x s u := by
  have hlines : s.phase ≠ .idle → s.phase ≠ .done → s.currentLine.toNat < s.height.toNat := fun h1 h2 =>
    (hi.pageOpen h1 h2).lines
  have hopen : ∀ {p : Phase}, s.phase = p → p.inLine = true → LineOpen s := fun hp hl => hi.lineOpen (hp ▸ hl)
  cases transaction_row hs with
  | wait => exact h
  | line b hp hb => exact h.line hp (hlines (by simp [hp]) (by simp [hp])) hb
  | lineEofError hp hb hc | lineEofShort hp hb hc =>
    have hend := Host.Outcome.next.inj (hs.symm.trans (transaction_lineHeader_eof hp hb))
    refine .lineEof ?_ hp (hlines (by simp [hp]) (by simp [hp])) hb
    rw [← hend]
    exact h
  | blank b hp hb hd hc => exact h.blank hp (hopen hp rfl).room (hopen hp rfl).fits hb hd
  | repHead b m hp hb hd => exact h.repHead hp (hopen hp rfl).room hb hd
  | litHead b m hp hb hd hm => exact h.litHead hp (hopen hp rfl).room hb hd
  | runEof hp hb => exact EndsIn.runEof h hp (hopen hp rfl).room hb
  | midPixel b hp hb hm => exact h.midPixel hp hm hb
  | repPixel b _ k hp hb hidx hr hpos hcap =>
    have hd : LastByteDue s b := ⟨hb, hidx, hr, hpos, hcap⟩
    obtain rfl := Host.Outcome.next.inj (hs.symm.trans (transaction_repLast hp hd))
    exact h.repPixel hp hd
  | litPixel b _ hp hb hidx hr hpos hcap =>
    have hd : LastByteDue s b := ⟨hb, hidx, hr, hpos, hcap⟩
    obtain rfl := Host.Outcome.next.inj (hs.symm.trans (transaction_litLast hp hd))
    exact h.litPixel hp hd
  | payloadEof hp hb =>
    obtain ⟨-, hidx, -⟩ := hi.runUnderWay hp
    exact EndsIn.payloadEof h hp hidx hb
  | emission bytes _ hp hl hh hb =>
    obtain rfl := Host.Outcome.next.inj (hs.symm.trans (transaction_emission hp hl hh hb))
    exact h.emission hp hl hh hb

theorem Served.endsIn_of_runSteps {k : Nat} (hs : Served s) (hrun : Machine.runSteps k s = .next t)
    (h : EndsIn r x t u) : EndsIn r x s u := by
  induction k generalizing s with
  | zero =>
    obtain rfl := Host.Outcome.next.inj hrun
    exact h
  | succ k ih =>
    rw [runSteps_succ] at hrun
    obtain ⟨v, hv, hrest⟩ := andThen_eq_next.mp hrun
    exact hs.inv.endsIn_of_transaction ((step_no_acts hs.host).symm.trans hv) (ih (hs.step hv) hrest)

/-- At the session's end nothing is left. -/
theorem endsIn_self_of_quiet (hq : s.phase.busy = false) : EndsIn r x s { s with runLeft := r, pxIdx := x } := by
  rcases Phase.busy_eq_false_iff.mp hq with hp | hp | hp | hp <;> simp only [EndsIn, hp]

/-- The steps of a served session reach the state in which `DecodePage` ends. -/
theorem Served.exists_end_of_decodePage (hs : Served s) (hp : s.phase = .lineHeader) :
    ∃ k t, Machine.runSteps k s = .next t ∧ t.phase.busy = false ∧
      decodePage s = .ended { t with runLeft := s.runLeft, pxIdx := s.pxIdx } := by
  obtain ⟨k, t, -, hrun, hquiet⟩ := hs.exists_end (by rw [hp]; rfl) le_rfl
  have hend := hs.endsIn_of_runSteps hrun (endsIn_self_of_quiet (r := s.runLeft) (x := s.pxIdx) hquiet)
  simp only [EndsIn, hp] at hend
  have hself : s.asPage s.runLeft s.pxIdx = s := by rw [State.asPage, ← hp]
  exact ⟨k, t, hrun, hquiet, by rw [decodePage, ← hend s.height.toNat (Nat.sub_le _ _), hself]⟩

end

/-- Settles O50: the session runs to its end, and `DecodePage` ends where each state on the way says it does. -/
theorem stepsAgreeWithDecodePage : Obligations.StepsAgreeWithDecodePage := by
  unfold Obligations.StepsAgreeWithDecodePage
  intro s hinv hhost hphase
  obtain ⟨k, t, hrun, hquiet, hpage⟩ := Served.exists_end_of_decodePage ⟨hinv, hhost⟩ hphase
  exact ⟨k, t, _, hrun, hpage, hquiet, rfl⟩

end Sys2Proof.Machine

/-! PROOF. `DecodePage` against the grammar of the raster body (30_encoding.md R80): it consumes what the parser consumes,
stores what the records stand for (R121 to R124), and ends early exactly where the parser finds no page. With R106 that is
what a session of the step machine does. -/

namespace Sys2Proof.Machine

/-! ## Reading ahead -/

section
variable {s : State} {b : Byte} {bs : List Byte}

theorem ahead_consumed (h : s.ahead = b :: bs) : s.consumed.ahead = bs := by
  show s.stream.drop (s.cursor + 1) = bs
  rw [← List.drop_drop, ← State.ahead, h]; rfl

theorem eof_of_ahead (h : s.ahead = []) : s.stream[s.cursor]? = none :=
  List.getElem?_eq_none_iff.mpr (List.drop_eq_nil_iff.mp h)

/-- The session ended because the stream did. -/
def EndedEarly (u : State) : Prop := (u.phase = .failed ∨ u.phase = .endedShort) ∧ u.ahead = []

/-- What a parser finds ahead, a piece of R102 consumes and does; where the parser finds nothing, it ends early. -/
def Follows {α : Type} (o : Option (α × List Byte)) (f : Flow) (q : α → State → Prop) : Prop :=
  match o with
  | some (a, rest) => ∃ t, f = .go t ∧ t.ahead = rest ∧ q a t
  | none => ∃ u, f = .ended u ∧ EndedEarly u

/-- The next piece follows on what the parser left. -/
theorem Follows.bind {α β : Type} {o : Option (α × List Byte)} {f : Flow} {q : α → State → Prop}
    {g : α → List Byte → Option (β × List Byte)} {k : State → Flow} {q' : β → State → Prop} (h : Follows o f q)
    (hk : ∀ a t, q a t → Follows (g a t.ahead) (k t) q') : Follows (o.bind fun x => g x.1 x.2) (f.bind k) q' := by
  cases o with
  | none =>
    obtain ⟨u, rfl, hend⟩ := h
    exact ⟨u, rfl, hend⟩
  | some found =>
    obtain ⟨t, rfl, hrest, hq⟩ := h
    rw [Option.bind_some, ← hrest]
    exact hk found.1 t hq

theorem Follows.map {α β : Type} {o : Option (α × List Byte)} {f : Flow} {q : α → State → Prop} {g : α → β}
    {q' : β → State → Prop} (h : Follows o f q) (hq : ∀ a t, q a t → q' (g a) t) :
    Follows (o.map fun x => (g x.1, x.2)) f q' := by
  cases o with
  | none => exact h
  | some found =>
    obtain ⟨t, ht, hrest, ha⟩ := h
    exact ⟨t, ht, hrest, hq found.1 t ha⟩

theorem Follows.imp {α : Type} {o : Option (α × List Byte)} {f : Flow} {q q' : α → State → Prop} (h : Follows o f q)
    (hq : ∀ a t, q a t → q' a t) : Follows o f q' := by
  have hmap := h.map (g := id) hq
  cases o <;> exact hmap

theorem endedEarly_endInPayload (h : s.ahead = []) : EndedEarly (endInPayload s) := ⟨.inl rfl, h⟩

theorem endedEarly_endAtControlByte (h : s.ahead = []) : EndedEarly (endAtControlByte s) := ⟨.inl rfl, h⟩

theorem endedEarly_endAtLineBoundary (h : s.ahead = []) : EndedEarly (endAtLineBoundary s) := by
  unfold endAtLineBoundary
  split
  · exact ⟨.inl rfl, h⟩
  · exact ⟨.inr rfl, h⟩

/-! ## A pixel -/

theorem take_succ_setIfInBounds {px : Vector Byte 31} {j : Nat} (hj : j < 31) :
    (px.setIfInBounds j b).toList.take (j + 1) = px.toList.take j ++ [b] := by
  have hlen : j < px.toList.length := by rw [Vector.length_toList]; exact hj
  rw [Vector.toList_setIfInBounds, List.take_add_one, List.take_set_of_le le_rfl, List.getElem?_set_self hlen]
  rfl

theorem readPixelFrom_whole {n j : Nat} (hj : j + n ≤ 31) (h : n ≤ s.ahead.length) :
    ∃ px, readPixelFrom n j s = .go { s with cursor := s.cursor + n, px := px } ∧
      px.toList.take (j + n) = s.px.toList.take j ++ s.ahead.take n := by
  induction n generalizing j s with
  | zero => exact ⟨s.px, rfl, by simp⟩
  | succ n ih =>
    cases hahead : s.ahead with
    | nil => rw [hahead] at h; cases h
    | cons b bs =>
      have hnext : State.ahead { s.consumed with px := s.px.setIfInBounds j b } = bs := ahead_consumed hahead
      have hlen : n ≤ bs.length := by rw [hahead] at h; exact Nat.le_of_succ_le_succ h
      obtain ⟨px, hread, hpx⟩ := ih (j := j + 1) (s := { s.consumed with px := s.px.setIfInBounds j b })
        (by omega) (hnext.symm ▸ hlen)
      refine ⟨px, ?_, ?_⟩
      · rw [readPixelFrom_byte (byteAtCursor_of_ahead hahead), hread, Nat.add_right_comm, Nat.add_assoc]
      · rw [show j + (n + 1) = j + 1 + n by omega, hpx, hnext, take_succ_setIfInBounds (by omega), List.append_assoc]
        rfl

theorem readPixelFrom_cut {n j : Nat} (h : s.ahead.length < n) :
    ∃ u, readPixelFrom n j s = .ended u ∧ EndedEarly u := by
  induction n generalizing j s with
  | zero => cases h
  | succ n ih =>
    cases hahead : s.ahead with
    | nil => exact ⟨_, readPixelFrom_eof (eof_of_ahead hahead), endedEarly_endInPayload hahead⟩
    | cons b bs =>
      have hnext : State.ahead { s.consumed with px := s.px.setIfInBounds j b } = bs := ahead_consumed hahead
      have hlen : bs.length < n := by rw [hahead] at h; exact Nat.lt_of_succ_lt_succ h
      rw [readPixelFrom_byte (byteAtCursor_of_ahead hahead)]
      exact ih (hnext.symm ▸ hlen)

/-- The state with the next pixel's bytes consumed and in `px`. -/
abbrev State.pixelIn (s : State) (px : Vector Byte 31) : State := { s with cursor := s.cursor + s.pixelBytes, px := px }

theorem ahead_pixelIn (s : State) (px : Vector Byte 31) : (s.pixelIn px).ahead = s.ahead.drop s.pixelBytes :=
  List.drop_drop.symm

/-- `ReadPixel` takes what the parser takes for a pixel, and it is what a store puts in the buffer (R52, R55). -/
theorem readPixel_whole (h : s.pixelBytes ≤ s.ahead.length) :
    ∃ px, readPixel s = .go (s.pixelIn px) ∧
      (s.pixelIn px).pixelSlot = storedPixel s.build (s.ahead.take s.pixelBytes) := by
  obtain ⟨px, hread, hpx⟩ := readPixelFrom_whole (j := 0) (by rw [Nat.zero_add]; exact pixelBytes_le s) h
  rw [Nat.zero_add, List.take_zero, List.nil_append] at hpx
  exact ⟨px, hread, by rw [storedPixel, ← hpx]; rfl⟩

end

theorem readPixel_cut {s : State} (h : s.ahead.length < s.pixelBytes) :
    ∃ u, readPixel s = .ended u ∧ EndedEarly u := readPixelFrom_cut h

/-! ## The line's pixels -/

/-- From `s` to `t`, `n` pixels, which are these bytes, were put in the line; else only the stream and what it fills moved. -/
structure LineGrown (s t : State) (n : Nat) (bytes : List Byte) : Prop where
  frame : t = { s.pixelsStored n bytes with cursor := t.cursor, code := t.code, px := t.px }
  length : bytes.length = n * s.pixelBytes
  room : s.pos.toNat + n ≤ s.width.toNat

section
variable {s t u : State} {n m : Nat} {xs ys : List Byte}

theorem LineGrown.refl (h : s.pos.toNat ≤ s.width.toNat) : LineGrown s s 0 [] :=
  ⟨by rw [pixelsStored_zero], by simp, h⟩

theorem LineGrown.pixelBytes (h : LineGrown s t n xs) : t.pixelBytes = s.pixelBytes := by rw [h.frame]; rfl
theorem LineGrown.width (h : LineGrown s t n xs) : t.width = s.width := by rw [h.frame]
theorem LineGrown.build (h : LineGrown s t n xs) : t.build = s.build := by rw [h.frame]
theorem LineGrown.lineBytes (h : LineGrown s t n xs) : t.lineBytes = s.lineBytes := by rw [h.frame]; rfl

theorem LineGrown.pos (h : LineGrown s t n xs) : t.pos.toNat = s.pos.toNat + n := by
  have hpos : t.pos = s.posPlus n := by rw [h.frame]
  rw [hpos, posPlus_toNat h.room]

theorem LineGrown.trans (h : LineGrown s t n xs) (h' : LineGrown t u m ys) : LineGrown s u (n + m) (xs ++ ys) := by
  refine ⟨?_, ?_, ?_⟩
  · have htwo := pixelsStored_pixelsStored (n := m) (ys := ys) h.room h.length
    rw [← htwo]
    conv_lhs => rw [h'.frame, h.frame]
    rfl
  · rw [List.length_append, h.length, h'.length, h.pixelBytes, Nat.add_mul]
  · have hroom := h'.room
    rw [h.pos, h.width] at hroom
    omega

/-- Reading before storing does not move the line. -/
theorem LineGrown.of_read {c : Nat} {code : Byte} {px : Vector Byte 31}
    (h : LineGrown { s with cursor := c, code := code, px := px } t n xs) : LineGrown s t n xs :=
  ⟨h.frame, h.length, h.room⟩

theorem lineGrown_pixelsStored (hlen : xs.length = n * s.pixelBytes) (hroom : s.pos.toNat + n ≤ s.width.toNat) :
    LineGrown s (s.pixelsStored n xs) n xs := ⟨rfl, hlen, hroom⟩

theorem length_copies (s : State) (n : Nat) : (s.copies n).length = n * s.pixelBytes := by
  rw [State.copies, length_flatten_of_forall_length (pb := s.pixelBytes), List.length_replicate]
  intro p hp
  rw [List.eq_of_mem_replicate hp, pixelSlot_length]

/-! ## The parser, one turn at a time -/

theorem takePixels_succ {pb k : Nat} {bs : List Byte} (h : ¬ bs.length < pb) :
    takePixels pb (k + 1) bs = (takePixels pb k (bs.drop pb)).map fun x => (bs.take pb :: x.1, x.2) := by
  rw [takePixels, if_neg h]
  cases takePixels pb k (bs.drop pb) <;> rfl

theorem parseRun_blank {width pb p : Nat} {b : Byte} {bs : List Byte} (hd : decodeControl b = .blank) :
    parseRun width pb p (b :: bs) = some (.blank, bs) := by
  rw [parseRun, hd]

theorem parseRun_rep {width pb p : Nat} {b : Byte} {bs : List Byte} {m : BitVec 7} (hd : decodeControl b = .rep m) :
    parseRun width pb p (b :: bs) = if bs.length < pb then none else some (.rep m (bs.take pb), bs.drop pb) := by
  rw [parseRun, hd]

theorem parseRun_lit {width pb p : Nat} {b : Byte} {bs : List Byte} {m : BitVec 7} (hd : decodeControl b = .lit m) :
    parseRun width pb p (b :: bs) =
      (takePixels pb (min (129 - m.toNat) (width - p)) bs).map fun x => (.lit m x.1, x.2) := by
  simp only [parseRun, hd]
  cases takePixels pb (min (129 - m.toNat) (width - p)) bs <;> rfl

theorem parseRuns_full {width pb fuel p : Nat} {bs : List Byte} (h : width ≤ p) :
    parseRuns width pb fuel p bs = some ([], bs) := by
  cases fuel <;> exact if_pos h

theorem parseRuns_open {width pb fuel p : Nat} {bs : List Byte} (h : p < width) :
    parseRuns width pb (fuel + 1) p bs = (parseRun width pb p bs).bind fun x =>
      (parseRuns width pb fuel (p + x.1.advance width p) x.2).map fun y => (x.1 :: y.1, y.2) := by
  rw [parseRuns, if_neg (Nat.not_le_of_lt h)]
  cases parseRun width pb p bs with
  | none => rfl
  | some found =>
    obtain ⟨run, rest⟩ := found
    simp only [Option.bind_some]
    cases parseRuns width pb fuel (p + run.advance width p) rest <;> rfl

theorem parseLines_full {width pb height fuel cur : Nat} {bs : List Byte} (h : height ≤ cur) :
    parseLines width pb height fuel cur bs = some ([], bs) := by
  cases fuel <;> exact if_pos h

theorem parseLines_nil {width pb height fuel cur : Nat} (h : cur < height) :
    parseLines width pb height (fuel + 1) cur [] = none := by
  rw [parseLines, if_neg (Nat.not_le_of_lt h)]

theorem parseLines_cons {width pb height fuel cur : Nat} {b : Byte} {bs : List Byte} (h : cur < height) :
    parseLines width pb height (fuel + 1) cur (b :: bs) = (parseRuns width pb width 0 bs).bind fun x =>
      (parseLines width pb height fuel (cur + u8 b + 1) x.2).map fun y => (⟨b, x.1⟩ :: y.1, y.2) := by
  rw [parseLines, if_neg (Nat.not_le_of_lt h)]
  cases parseRuns width pb width 0 bs with
  | none => rfl
  | some found =>
    obtain ⟨runs, rest⟩ := found
    simp only [Option.bind_some]
    cases parseLines width pb height fuel (cur + u8 b + 1) rest <;> rfl

/-! ## Run records -/

/-- The state with the next pixel read and stored (R123). -/
abbrev State.pixelTaken (s : State) (px : Vector Byte 31) : State := (s.pixelIn px).pixelsStored 1 (s.pixelIn px).pixelSlot

theorem lineGrown_pixelTaken (hroom : s.pos.toNat < s.width.toNat) (px : Vector Byte 31) :
    LineGrown s (s.pixelTaken px) 1 (s.pixelIn px).pixelSlot :=
  (lineGrown_pixelsStored (s := s.pixelIn px) (by rw [pixelSlot_length, Nat.one_mul]) hroom).of_read

theorem litLoop_follows (hpos : s.pos.toNat ≤ s.width.toNat) (hcap : s.lineBytes ≤ s.build.lineBufBytes) :
    Follows (takePixels s.pixelBytes (s.clamp n) s.ahead) (litLoop n s)
      fun ps t => LineGrown s t (s.clamp n) (ps.map (storedPixel s.build)).flatten := by
  induction n generalizing s with
  | zero =>
    have h0 : s.clamp 0 = 0 := Nat.zero_min _
    rw [h0]
    exact ⟨s, rfl, rfl, .refl hpos⟩
  | succ n ih =>
    rcases Nat.lt_or_eq_of_le hpos with hroom | hfull
    case inr =>
      rw [clamp_eq_zero hfull.ge, litLoop_full (BitVec.eq_of_toNat_eq hfull)]
      exact ⟨s, rfl, rfl, .refl hpos⟩
    rw [litLoop_open hroom]
    by_cases hcut : s.ahead.length < s.pixelBytes
    · obtain ⟨u, hu, hend⟩ := readPixel_cut hcut
      obtain ⟨k, hk⟩ : ∃ k, s.clamp (n + 1) = k + 1 := ⟨s.clamp (n + 1) - 1, by simp only [State.clamp]; omega⟩
      rw [hu, hk, takePixels, if_pos hcut]
      exact ⟨u, rfl, hend⟩
    · obtain ⟨px, hread, hslot⟩ := readPixel_whole (Nat.le_of_not_lt hcut)
      have hnext : ((s.pixelIn px).posPlus 1).toNat = s.pos.toNat + 1 := posPlus_toNat (s := s) hroom
      have hclamp : s.clamp (n + 1) = (s.pixelTaken px).clamp n + 1 := by
        simp only [State.clamp, hnext]; omega
      have hle : (s.pixelTaken px).pos.toNat ≤ s.width.toNat := hnext.le.trans hroom
      have hrest := ih (s := s.pixelTaken px) hle hcap
      rw [show State.ahead (s.pixelTaken px) = _ from ahead_pixelIn s px] at hrest
      rw [hclamp, takePixels_succ hcut, hread, Flow.bind_go, storeHere_open (s := s.pixelIn px) hroom hcap, Flow.bind_go]
      refine hrest.map fun ps t hgrown => ?_
      rw [List.map_cons, List.flatten_cons, ← hslot, Nat.add_comm]
      exact (lineGrown_pixelTaken hroom px).trans hgrown

/-- `BLANK` puts the rest of the line in, as blank pixels (R121). -/
theorem lineGrown_blanked (hroom : s.pos.toNat < s.width.toNat) : LineGrown s s.consumed.blanked (s.width.toNat - s.pos.toNat)
    (List.replicate ((s.width.toNat - s.pos.toNat) * s.pixelBytes) s.build.blankByte) := by
  have hrest : s.lineBytes - s.pixelAddress s.pos.toNat = (s.width.toNat - s.pos.toNat) * s.pixelBytes :=
    (Nat.sub_mul _ _ _).symm
  have hwidth : s.posPlus (s.width.toNat - s.pos.toNat) = s.width :=
    BitVec.eq_of_toNat_eq ((posPlus_toNat (by omega)).trans (by omega))
  refine ⟨?_, List.length_replicate, by omega⟩
  show _ = ({ s with
    linebuf := Memory.writeBytes s.linebuf (s.pixelAddress s.pos.toNat) _, pos := s.posPlus _
    cursor := s.cursor + 1, code := encodeHead .blank } : State)
  rw [hwidth, ← Memory.fill_eq_writeBytes, ← hrest]
  rfl

/-- The payload of a `REP`, in the big-step form. -/
theorem repPayload_follows (m : BitVec 7) (hroom : s.pos.toNat < s.width.toNat) (hcap : s.lineBytes ≤ s.build.lineBufBytes) :
    Follows (if s.ahead.length < s.pixelBytes then none
        else some (.rep m (s.ahead.take s.pixelBytes), s.ahead.drop s.pixelBytes))
      ((readPixel s).bind (repLoop (repLength m).toNat)) fun run t =>
        LineGrown s t (run.advance s.width.toNat s.pos.toNat)
          (renderRun s.build s.width.toNat s.pixelBytes s.pos.toNat run) := by
  by_cases hcut : s.ahead.length < s.pixelBytes
  · obtain ⟨u, hu, hend⟩ := readPixel_cut hcut
    rw [if_pos hcut, hu]
    exact ⟨u, rfl, hend⟩
  · obtain ⟨px, hread, hslot⟩ := readPixel_whole (Nat.le_of_not_lt hcut)
    rw [if_neg hcut, hread, Flow.bind_go, repLoop_inLine (s := s.pixelIn px) hcap, repLength_toNat]
    refine ⟨_, rfl, ahead_pixelIn s px, ?_⟩
    have hgrown := (lineGrown_pixelsStored (s := s.pixelIn px) (length_copies _ _)
      (clamp_le (s := s) hroom.le (m.toNat + 1))).of_read
    rw [State.copies, hslot] at hgrown ⊢
    exact hgrown

/-- The payload of a `LIT`, in the big-step form. -/
theorem litPayload_follows (m : BitVec 7) (hroom : s.pos.toNat < s.width.toNat) (hcap : s.lineBytes ≤ s.build.lineBufBytes) :
    Follows ((takePixels s.pixelBytes (min (129 - m.toNat) (s.width.toNat - s.pos.toNat)) s.ahead).map
        fun x => (RunRecord.lit m x.1, x.2))
      (litLoop (litLength m).toNat s) fun run t =>
        LineGrown s t (run.advance s.width.toNat s.pos.toNat)
          (renderRun s.build s.width.toNat s.pixelBytes s.pos.toNat run) := by
  rw [litLength_toNat]
  exact (litLoop_follows hroom.le hcap).map fun ps t hgrown => hgrown

theorem runRecord_follows (hroom : s.pos.toNat < s.width.toNat) (hcap : s.lineBytes ≤ s.build.lineBufBytes) :
    Follows (parseRun s.width.toNat s.pixelBytes s.pos.toNat s.ahead) (runRecord s) fun run t =>
      LineGrown s t (run.advance s.width.toNat s.pos.toNat)
        (renderRun s.build s.width.toNat s.pixelBytes s.pos.toNat run) := by
  cases hahead : s.ahead with
  | nil => exact ⟨_, runRecord_eof (eof_of_ahead hahead), endedEarly_endAtControlByte hahead⟩
  | cons b bs =>
    have hb := byteAtCursor_of_ahead hahead
    have hrest : ∀ code, State.ahead { s.consumed with code := code } = bs := fun _ => ahead_consumed hahead
    cases hd : decodeControl b with
    | line r => exact absurd hd (decodeControl_ne_line b r)
    | blank =>
      rw [runRecord_blank hb hd hroom hcap, parseRun_blank hd]
      exact ⟨_, rfl, hrest 0, lineGrown_blanked hroom⟩
    | rep m =>
      have hpayload := repPayload_follows (s := { s.consumed with code := encodeHead (.rep m) }) m hroom hcap
      rw [hrest] at hpayload
      rw [runRecord_rep hb hd, parseRun_rep hd]
      exact hpayload.imp fun run t hgrown => LineGrown.of_read (s := s) hgrown
    | lit m =>
      have hpayload := litPayload_follows (s := { s.consumed with code := encodeHead (.lit m) }) m hroom hcap
      rw [hrest] at hpayload
      rw [runRecord_lit hb hd, parseRun_lit hd]
      exact hpayload.imp fun run t hgrown => LineGrown.of_read (s := s) hgrown

/-- The inner loop reads the run records of a line and leaves the line's bytes (R125). -/
theorem runLoop_follows {fuel : Nat} (hfuel : s.width.toNat - s.pos.toNat ≤ fuel) (hpos : s.pos.toNat ≤ s.width.toNat)
    (hcap : s.lineBytes ≤ s.build.lineBufBytes) :
    Follows (parseRuns s.width.toNat s.pixelBytes fuel s.pos.toNat s.ahead) (runLoop fuel s) fun runs t =>
      LineGrown s t (s.width.toNat - s.pos.toNat) (renderRuns s.build s.width.toNat s.pixelBytes s.pos.toNat runs) := by
  induction fuel generalizing s with
  | zero =>
    rw [parseRuns_full (by omega), show s.width.toNat - s.pos.toNat = 0 by omega]
    exact ⟨s, rfl, rfl, .refl hpos⟩
  | succ fuel ih =>
    rcases Nat.lt_or_eq_of_le hpos with hroom | hfull
    case inr =>
      rw [parseRuns_full hfull.ge, runLoop_full (BitVec.eq_of_toNat_eq hfull), hfull, Nat.sub_self]
      exact ⟨s, rfl, rfl, .refl hpos⟩
    rw [parseRuns_open hroom, runLoop_open hroom]
    refine (runRecord_follows hroom hcap).bind (g := fun run rest => (parseRuns s.width.toNat s.pixelBytes fuel
      (s.pos.toNat + run.advance s.width.toNat s.pos.toNat) rest).map fun y => (run :: y.1, y.2)) fun run t hgrown => ?_
    have hadv := advance_pos hroom run
    have hle := advance_le hpos run
    have hrest := ih (s := t) (by rw [hgrown.pos, hgrown.width]; omega) (by rw [hgrown.pos, hgrown.width]; exact hle)
      (by rw [hgrown.lineBytes, hgrown.build]; exact hcap)
    rw [hgrown.pos, hgrown.width, hgrown.pixelBytes, hgrown.build] at hrest
    refine hrest.map fun runs u hu => ?_
    have hall := hgrown.trans hu
    rwa [show run.advance s.width.toNat s.pos.toNat +
      (s.width.toNat - (s.pos.toNat + run.advance s.width.toNat s.pos.toNat)) = s.width.toNat - s.pos.toNat by omega] at hall

end

/-! ## The page -/

section
variable {s t : State} {n : Nat}

/-- The rows a list of line records stands for, were the page long enough (R140). -/
def pageRows (b : Config.Build) (width pb : Nat) (ls : List LineRecord) : List (List Byte) :=
  (ls.map fun l => List.replicate (u8 l.repeatByte + 1) (renderRuns b width pb 0 l.runs)).flatten

/-- The rows that were handed over. -/
def State.rows (s : State) : List (List Byte) := s.trace.map Emission.bytes

/-- From `s` to `t`, `k` calls handed over these bytes, and nothing but the count and the sink moved. -/
structure RowsHanded (s t : State) (k : Nat) (bytes : List Byte) : Prop where
  frame : t = { s with trace := t.trace, currentLine := t.currentLine, emitLeft := t.emitLeft }
  rows : t.rows = s.rows ++ List.replicate k bytes
  lines : t.currentLine.toNat = s.currentLine.toNat + k

theorem RowsHanded.refl (s : State) (bytes : List Byte) : RowsHanded s s 0 bytes :=
  ⟨rfl, (List.append_nil _).symm, rfl⟩

theorem RowsHanded.cons {k : Nat} {bytes : List Byte} (hh : s.currentLine.toNat < s.height.toNat)
    (h : RowsHanded (s.lineHanded bytes) t k bytes) : RowsHanded s t (k + 1) bytes := by
  obtain ⟨hframe, hrows, hlines⟩ := h
  refine ⟨hframe, ?_, ?_⟩
  · rw [hrows, List.replicate_succ]
    simp [State.rows]
  · rw [hlines]
    show (s.currentLine + 1).toNat + k = _
    rw [currentLine_succ_toNat hh]
    omega

/-- The emission loop hands the line over as often as its count and the page allow (R140, R141, R143). -/
theorem emitLoop_hands {bytes : List Byte} (hn : s.emitLeft.toNat ≤ n)
    (hb : Memory.readBytes s.linebuf 0 s.lineBytes = some bytes) :
    ∃ t, emitLoop n s = .go t ∧ RowsHanded s t (min s.emitLeft.toNat (s.height.toNat - s.currentLine.toNat)) bytes := by
  induction n generalizing s with
  | zero =>
    rw [show min s.emitLeft.toNat (s.height.toNat - s.currentLine.toNat) = 0 by omega]
    exact ⟨s, rfl, .refl s bytes⟩
  | succ n ih =>
    by_cases hover : s.emitLeft.toNat = 0 ∨ s.height.toNat ≤ s.currentLine.toNat
    · rw [show min s.emitLeft.toNat (s.height.toNat - s.currentLine.toNat) = 0 by omega]
      exact ⟨s, emitLoop_over hover, .refl s bytes⟩
    have hl : 0 < s.emitLeft.toNat := by omega
    have hh : s.currentLine.toNat < s.height.toNat := by omega
    have hsucc := currentLine_succ_toNat hh
    have hpred := emitLeft_pred_toNat hl
    obtain ⟨t, ht, hhanded⟩ := ih (s := s.lineHanded bytes) (show (s.emitLeft - 1).toNat ≤ n by omega) hb
    have hk : min s.emitLeft.toNat (s.height.toNat - s.currentLine.toNat) =
        min (s.emitLeft - 1).toNat (s.height.toNat - (s.currentLine + 1).toNat) + 1 := by omega
    exact ⟨t, (emitLoop_due hl hh hb).trans ht, hk ▸ hhanded.cons hh⟩

section
variable {k : Nat} {bytes : List Byte}

theorem RowsHanded.width (h : RowsHanded s t k bytes) : t.width = s.width := by rw [h.frame]
theorem RowsHanded.height (h : RowsHanded s t k bytes) : t.height = s.height := by rw [h.frame]
theorem RowsHanded.build (h : RowsHanded s t k bytes) : t.build = s.build := by rw [h.frame]
theorem RowsHanded.pixelBytes (h : RowsHanded s t k bytes) : t.pixelBytes = s.pixelBytes := by rw [h.frame]; rfl
theorem RowsHanded.lineBytes (h : RowsHanded s t k bytes) : t.lineBytes = s.lineBytes := by rw [h.frame]; rfl
theorem RowsHanded.ahead (h : RowsHanded s t k bytes) : t.ahead = s.ahead := by rw [h.frame]; rfl

end

/-- What R102 does with the lines the parser finds: it ends in `DONE` just after them. -/
def PageFollows (o : Option (List LineRecord × List Byte)) (f : Flow) (q : List LineRecord → State → Prop) : Prop :=
  match o with
  | some (ls, rest) => ∃ u, f = .ended u ∧ u.phase = .done ∧ u.ahead = rest ∧ q ls u
  | none => ∃ u, f = .ended u ∧ EndedEarly u

theorem PageFollows.of_line {α : Type} {o : Option (α × List Byte)} {f : Flow} {q : α → State → Prop}
    {g : α → List Byte → Option (List LineRecord × List Byte)} {k : State → Flow} {q' : List LineRecord → State → Prop}
    (h : Follows o f q) (hk : ∀ a t, q a t → PageFollows (g a t.ahead) (k t) q') :
    PageFollows (o.bind fun x => g x.1 x.2) (f.bind k) q' := by
  cases o with
  | none =>
    obtain ⟨u, rfl, hend⟩ := h
    exact ⟨u, rfl, hend⟩
  | some found =>
    obtain ⟨t, rfl, hrest, hq⟩ := h
    rw [Option.bind_some, ← hrest]
    exact hk found.1 t hq

theorem PageFollows.cons {o : Option (List LineRecord × List Byte)} {f : Flow} {q q' : List LineRecord → State → Prop}
    (l : LineRecord) (h : PageFollows o f q) (hq : ∀ ls u, q ls u → q' (l :: ls) u) :
    PageFollows (o.map fun x => (l :: x.1, x.2)) f q' := by
  cases o with
  | none => exact h
  | some found =>
    obtain ⟨u, hu, hdone, hrest, hls⟩ := h
    exact ⟨u, hu, hdone, hrest, hq found.1 u hls⟩

/-- A line whose every pixel was put in is read back whole. -/
theorem LineGrown.readBytes {bytes : List Byte} (h : LineGrown s t s.width.toNat bytes) (hpos : s.pos = 0) :
    Memory.readBytes t.linebuf 0 t.lineBytes = some bytes := by
  have hlen : bytes.length = t.lineBytes := by rw [h.lineBytes, h.length]; rfl
  have hbuf : t.linebuf = Memory.writeBytes s.linebuf 0 bytes := by
    have h0 : s.pixelAddress s.pos.toNat = 0 := by rw [hpos]; exact Nat.zero_mul _
    rw [h.frame]; show s.bufWritten s.pos.toNat bytes = _; rw [State.bufWritten, h0]
  have hread : ∀ i, i < t.lineBytes → Memory.read t.linebuf (0 + i) = bytes[i]? := fun i hi => by
    rw [hbuf, Memory.read_writeBytes, if_pos (by omega)]; congr 1; omega
  obtain ⟨bytes', hb⟩ := Option.isSome_iff_exists.mp ((Memory.readBytes_isSome t.linebuf 0 t.lineBytes).mpr fun i hi => by
    rw [hread i hi, List.getElem?_eq_getElem (by omega)]; rfl)
  obtain ⟨hlen', hread'⟩ := Memory.readBytes_spec hb
  rw [hb]
  congr 1
  refine List.ext_getElem? fun i => ?_
  rcases Nat.lt_or_ge i t.lineBytes with hi | hi
  · rw [← hread' i hi, hread i hi]
  · rw [List.getElem?_eq_none (by omega), List.getElem?_eq_none (by omega)]

/-- A list of rows cut to the page, its first line's rows apart. -/
theorem take_pageRows_cons (b : Config.Build) (width pb k : Nat) (l : LineRecord) (ls : List LineRecord) :
    (pageRows b width pb (l :: ls)).take k =
      List.replicate (min (u8 l.repeatByte + 1) k) (renderRuns b width pb 0 l.runs) ++
        (pageRows b width pb ls).take (k - (u8 l.repeatByte + 1)) := by
  rw [pageRows, List.map_cons, List.flatten_cons, List.take_append, List.length_replicate, List.take_replicate, Nat.min_comm]
  rfl

/-- The line record that begins at the repeat byte `b`, with the stream and the registers after that byte. -/
abbrev State.lineBegun (s : State) (b : Byte) : State := { s.consumed with lineRepeat := repeatCount b, pos := 0 }

/-- The run records of a line, in the big-step form: they leave a line of the length a line has. -/
theorem lineRuns_follows (hcap : s.lineBytes ≤ s.build.lineBufBytes) {b : Byte} {bs : List Byte} (h : s.ahead = b :: bs) :
    Follows (parseRuns s.width.toNat s.pixelBytes s.width.toNat 0 bs) (runLoop s.width.toNat (s.lineBegun b)) fun runs t =>
      LineGrown (s.lineBegun b) t s.width.toNat (renderRuns s.build s.width.toNat s.pixelBytes 0 runs) := by
  have hruns := runLoop_follows (s := s.lineBegun b) (fuel := s.width.toNat) (Nat.sub_le _ _) (Nat.zero_le _) hcap
  rw [show State.ahead (s.lineBegun b) = bs from ahead_consumed h] at hruns
  exact hruns

/-- The emissions of a line that is in the buffer whole, in the big-step form. -/
theorem lineGrown_hands {b : Byte} {bytes : List Byte} (h : LineGrown (s.lineBegun b) t s.width.toNat bytes) :
    ∃ u, emitLoop t.lineRepeat.toNat { t with emitLeft := t.lineRepeat } = .go u ∧
      RowsHanded { t with emitLeft := t.lineRepeat } u (min (u8 b + 1) (s.height.toNat - s.currentLine.toNat)) bytes := by
  have hrepeat : t.lineRepeat.toNat = u8 b + 1 := by rw [h.frame]; exact repeatCount_toNat b
  have hheight : t.height = s.height := by rw [h.frame]
  have hline : t.currentLine = s.currentLine := by rw [h.frame]
  have hhands := emitLoop_hands (s := { t with emitLeft := t.lineRepeat }) le_rfl (h.readBytes rfl)
  have hcount : min t.lineRepeat.toNat (t.height.toNat - t.currentLine.toNat) =
      min (u8 b + 1) (s.height.toNat - s.currentLine.toNat) := by rw [hrepeat, hheight, hline]
  exact hcount ▸ hhands

/-- At the page's end the parser takes no line and the machine is done (R143). -/
theorem pageLoop_follows_over {cur : Nat} (hover : s.height.toNat ≤ cur) (hline : s.height.toNat ≤ s.currentLine.toNat) :
    PageFollows (parseLines s.width.toNat s.pixelBytes s.height.toNat n cur s.ahead) (pageLoop n s) fun ls u =>
      u.rows = s.rows ++ (pageRows s.build s.width.toNat s.pixelBytes ls).take (s.height.toNat - cur) := by
  rw [parseLines_full hover, pageLoop_over hline]
  exact ⟨_, rfl, rfl, rfl, by simp [State.rows, pageRows]⟩

/-- `DecodePage` from a line record on, that begins at line `cur`: the parser's count of lines runs on past the page's end,
where the machine's stops. -/
theorem pageLoop_follows {cur : Nat} (hn : s.height.toNat - cur ≤ n) (hcur : s.currentLine.toNat = min cur s.height.toNat)
    (hcap : s.lineBytes ≤ s.build.lineBufBytes) :
    PageFollows (parseLines s.width.toNat s.pixelBytes s.height.toNat n cur s.ahead) (pageLoop n s) fun ls u =>
      u.rows = s.rows ++ (pageRows s.build s.width.toNat s.pixelBytes ls).take (s.height.toNat - cur) := by
  induction n generalizing s cur with
  | zero => exact pageLoop_follows_over (by omega) (by omega)
  | succ n ih =>
    rcases Nat.lt_or_ge cur s.height.toNat with hopen | hover
    case inr => exact pageLoop_follows_over hover (by omega)
    have hline : s.currentLine.toNat = cur := by omega
    cases hahead : s.ahead with
    | nil =>
      rw [parseLines_nil hopen, pageLoop_eof (by omega) (eof_of_ahead hahead)]
      exact ⟨_, rfl, endedEarly_endAtLineBoundary hahead⟩
    | cons b bs =>
      rw [parseLines_cons hopen, pageLoop_byte (by omega) (byteAtCursor_of_ahead hahead), finishRuns]
      refine PageFollows.of_line (g := fun runs rest => (parseLines s.width.toNat s.pixelBytes s.height.toNat n
        (cur + u8 b + 1) rest).map fun y => (⟨b, runs⟩ :: y.1, y.2)) (lineRuns_follows hcap hahead) fun runs t hgrown => ?_
      obtain ⟨u, hemit, hhanded⟩ := lineGrown_hands hgrown
      have hwidth : u.width = s.width := hhanded.width.trans hgrown.width
      have hpb : u.pixelBytes = s.pixelBytes := hhanded.pixelBytes.trans hgrown.pixelBytes
      have hbuild : u.build = s.build := hhanded.build.trans hgrown.build
      have hbytes : u.lineBytes = s.lineBytes := hhanded.lineBytes.trans hgrown.lineBytes
      have hheight : u.height = s.height := hhanded.height.trans (by rw [hgrown.frame])
      have hlines := hhanded.lines
      have hbegun : t.currentLine = s.currentLine := by rw [hgrown.frame]
      rw [show State.currentLine { t with emitLeft := t.lineRepeat } = s.currentLine from hbegun] at hlines
      have hrows := hhanded.rows
      have hrowsBegun : t.rows = s.rows := by rw [hgrown.frame]; rfl
      rw [show State.rows { t with emitLeft := t.lineRepeat } = s.rows from hrowsBegun] at hrows
      have hpage := ih (s := u) (cur := cur + u8 b + 1) (by rw [hheight]; omega) (by rw [hheight]; omega)
        (by rw [hbytes, hbuild]; exact hcap)
      rw [hwidth, hpb, hheight, hbuild, show u.ahead = t.ahead from hhanded.ahead] at hpage
      rw [finishLine, hemit, Flow.bind_go]
      refine hpage.cons ⟨b, runs⟩ fun ls v hv => ?_
      rw [hv, hrows, take_pageRows_cons, List.append_assoc, hline, Nat.sub_sub, Nat.add_assoc]

end

/-! ## Sessions over a page -/

/-- A session from START on, against the parser of the raster body. -/
theorem Served.follows_parseBody {s : State} (hs : Served s) (hp : s.phase = .lineHeader) (hline : s.currentLine = 0) :
    ∃ k t, Machine.runSteps k s = .next t ∧ match parseBody s.width.toNat s.pixelBytes s.height.toNat s.ahead with
      | some (ls, rest) => t.phase = .done ∧ t.ahead = rest ∧
          t.rows = renderBody s.build s.width.toNat s.pixelBytes s.height.toNat ls
      | none => EndedEarly t := by
  obtain ⟨k, t, hrun, -, hpage⟩ := hs.exists_end_of_decodePage hp
  refine ⟨k, t, hrun, ?_⟩
  obtain ⟨-, -, -, -, hcap⟩ := hs.inv.config (by rw [hp]; decide)
  have hempty : s.rows = [] := List.map_eq_nil_iff.mpr (List.length_eq_zero_iff.mp (by rw [hs.inv.traceLength, hline]; rfl))
  have hfollows := pageLoop_follows (cur := 0) le_rfl (by rw [hline]; exact (Nat.zero_min _).symm) hcap
  rw [Nat.sub_zero, show pageLoop s.height.toNat s = decodePage s from rfl, hpage, hempty] at hfollows
  rw [parseBody]
  cases hparse : parseLines s.width.toNat s.pixelBytes s.height.toNat s.height.toNat 0 s.ahead with
  | none =>
    rw [hparse] at hfollows
    obtain ⟨u, hu, hearly⟩ := hfollows
    obtain rfl := Flow.ended.inj hu
    exact hearly
  | some found =>
    rw [hparse] at hfollows
    obtain ⟨u, hu, hdone, hrest, hrows⟩ := hfollows
    obtain rfl := Flow.ended.inj hu
    exact ⟨hdone, hrest, hrows⟩

/-- Settles O51: the steps do what `DecodePage` does (O50), and `DecodePage` consumes what the parser consumes. -/
theorem sessionReadsTheParsedPage : Obligations.SessionReadsTheParsedPage := by
  unfold Obligations.SessionReadsTheParsedPage
  intro s hinv hhost hphase hline
  obtain ⟨k, t, hrun, hend⟩ := Served.follows_parseBody ⟨hinv, hhost⟩ hphase hline
  cases hparse : parseBody s.width.toNat s.pixelBytes s.height.toNat s.ahead with
  | none =>
    rw [hparse] at hend
    exact ⟨k, t, hrun, hend⟩
  | some found =>
    rw [hparse] at hend
    obtain ⟨hdone, hrest, -⟩ := hend
    exact ⟨k, t, hrun, hdone, hrest⟩

/-- Settles O52: the parser finds the line records again (O7), and the session hands over the rows they stand for. -/
theorem sessionRendersThePage : Obligations.SessionRendersThePage := by
  unfold Obligations.SessionRendersThePage
  intro s ls rest hinv hhost hphase hline hfills hahead
  obtain ⟨k, t, hrun, hend⟩ := Served.follows_parseBody ⟨hinv, hhost⟩ hphase hline
  rw [hahead, parseOfEncodedBody _ _ _ ls rest hfills] at hend
  exact ⟨k, t, hrun, hend⟩

end Sys2Proof.Machine
